-- ==== Sys2Proof/Word.lean ====
section
/-! DEFINITION. The command word and the byte (spec 30_encoding R78, 20_memory R50). -/

namespace Sys2Proof

/-- One command word, `cmd_word[31:0]` (30_encoding R78, R86: there is one length). -/
abbrev Word := BitVec 32

/-- The only addressable unit of `GS` and `DC` (20_memory R50). -/
abbrev Byte := BitVec 8

end Sys2Proof
end

