-- ==== Sys2Proof/Config.lean ====
section
/-! DEFINITION. The configuration the block is constructed with (spec 00_scope R5 to R12, 10_state R28), its
legality (60_exceptions R193), and the values the spec leaves open, each an opaque constant. -/

namespace Sys2Proof

/-- `transportKind` (00_scope R9). Only `bitbang` is specified to pin level. -/
inductive TransportKind where
  | hwSpi
  | usartSync
  | bitbang
  deriving DecidableEq, Repr

/-- The configuration (00_scope R6 to R10). Nothing changes it after construction (R5). -/
structure Config where
  /-- `N`, 1..256 (R6) -/
  chipCount : Nat
  /-- `B`, 8..12 (R7) -/
  pwmBits : Nat
  /-- `R`, 0 (no multiplexing) or 1..8 (R8) -/
  multiplexRows : Nat
  transportKind : TransportKind
  includeDotCorrection : Bool
  includeGammaCorrection : Bool
  hardwireProgramPins : Bool
  deriving DecidableEq, Repr

/-- 60_exceptions R193: a configuration is valid exactly when these hold (`transportKind` is one of the three by
its type). -/
abbrev Config.Valid (c : Config) : Prop :=
  (1 ≤ c.chipCount ∧ c.chipCount ≤ 256) ∧ (8 ≤ c.pwmBits ∧ c.pwmBits ≤ 12) ∧ c.multiplexRows ≤ 8

/-- The configuration `State.reset` stands at: the one 95_test_vectors' conventions take unless a vector says
otherwise, with `N = 1`, `B = 12`, `R = 0`. DESIGN CHOICE (log 1): every statement is about every configuration. -/
def Config.standard : Config :=
  { chipCount := 1, pwmBits := 12, multiplexRows := 0, transportKind := .bitbang,
    includeDotCorrection := true, includeGammaCorrection := true, hardwireProgramPins := false }

/-- FREE VALUE (10_state R40, log 6): what the byte of `GS` numbered `key` holds after the reset that began
`epoch`, until it is written. Nothing constrains it. -/
opaque Config.freeGsByte : (epoch key : Nat) → Byte

/-- FREE VALUE (10_state R40, log 6): the same for the byte of `DC` with index `key`. -/
opaque Config.freeDcByte : (epoch key : Nat) → Byte

/-- FREE VALUE (20_memory R64, log 27): what stands in the driven chips' shift register above its low 6 bits a channel,
after `bit` was clocked into it with `prog_sel = 1` and it held `csr` before, in a chain of `channels` channels. -/
opaque Config.freeShiftHigh : (channels csr : Nat) → (bit : Bool) → Nat

/-- OPEN parameter `T_PERIOD` (00_scope R12, log 20): no rule reads it. -/
opaque Config.tPeriod : Nat

/-- OPEN parameter `T_HOLD` (00_scope R12, log 20): no rule reads it. -/
opaque Config.tHold : Nat

end Sys2Proof
end

