-- ==== Sys2Proof/Syntax.lean ====
section
/-! DEFINITION. The commands of the block: one constructor per row of spec/opcode_table.json (30_encoding R80).
TICK and RESET are events with no encoding (R82) and are no constructors. -/

namespace Sys2Proof

/-- One host command, its operands with the widths of 30_encoding R78 (`row` 3 bits, `chan` 12, `val` 12) and
R79 (GAMMA's index in `val[7:0]`). All operands are unsigned. -/
inductive Instr where
  | init
  | setgs (row : BitVec 3) (chan : BitVec 12) (val : BitVec 12)
  | setallgs (val : BitVec 12)
  | getgs (row : BitVec 3) (chan : BitVec 12)
  | setdc (chan : BitVec 12) (val : BitVec 12)
  | setalldc (val : BitVec 12)
  | getdc (chan : BitVec 12)
  | commit
  | pending
  | gamma (idx : BitVec 8)
  | clockindc
  deriving DecidableEq, Repr

end Sys2Proof
end

