-- ==== Sys2Proof/Decode.lean ====
section
/-! DEFINITION. The command word: its fields (spec 30_encoding R78, R79), the opcode map (R80), the decoder, which
answers a command or the reason the word is reserved (R84), and the encoder written from the same map. -/

namespace Sys2Proof

/-- Why a word is reserved (30_encoding R84): no operation has its `op`, its bit `z` is 1, or a field its
operation does not use is not zero. -/
inductive Reserved where
  | opcode
  | zBit
  | rowField
  | chanField
  | valField
  deriving DecidableEq, Repr

/-- bits 31..28 (R78) -/
def opField (w : Word) : BitVec 4 := w.extractLsb' 28 4
/-- bits 27..25 (R78) -/
def rowField (w : Word) : BitVec 3 := w.extractLsb' 25 3
/-- bit 24 (R78) -/
def zField (w : Word) : BitVec 1 := w.extractLsb' 24 1
/-- bits 23..12 (R78) -/
def chanField (w : Word) : BitVec 12 := w.extractLsb' 12 12
/-- bits 11..0 (R78) -/
def valField (w : Word) : BitVec 12 := w.extractLsb' 0 12
/-- `val[7:0]`, GAMMA's operand (R79) -/
def idxField (w : Word) : BitVec 8 := w.extractLsb' 0 8
/-- `val[11:8]`, zero in GAMMA (R79) -/
def idxPad (w : Word) : BitVec 4 := w.extractLsb' 8 4

/-- The operation code of a command (R80). -/
def Instr.opcode : Instr → BitVec 4
  | .init => 0x1
  | .setgs _ _ _ => 0x2
  | .setallgs _ => 0x3
  | .getgs _ _ => 0x4
  | .setdc _ _ => 0x5
  | .setalldc _ => 0x6
  | .getdc _ => 0x7
  | .commit => 0x8
  | .pending => 0x9
  | .gamma _ => 0xA
  | .clockindc => 0xB

/-- The mnemonic of a command (R80, R83). -/
def Instr.mnemonic : Instr → String
  | .init => "INIT"
  | .setgs _ _ _ => "SETGS"
  | .setallgs _ => "SETALLGS"
  | .getgs _ _ => "GETGS"
  | .setdc _ _ => "SETDC"
  | .setalldc _ => "SETALLDC"
  | .getdc _ => "GETDC"
  | .commit => "COMMIT"
  | .pending => "PENDING"
  | .gamma _ => "GAMMA"
  | .clockindc => "CLOCKINDC"

/-- A row of the opcode map (R80): a word `w` selects the row when `w & mask = match`. -/
structure OpcodeRow where
  mnemonic : String
  matchWord : Word
  mask : Word
  deriving DecidableEq, Repr

/-- The opcode map as R80 and opcode_table.json print it. The decoder below is written from the field rule R79;
that the two agree is a statement. -/
def opcodeMap : List OpcodeRow :=
  [ ⟨"INIT", 0x10000000, 0xFFFFFFFF⟩,
    ⟨"SETGS", 0x20000000, 0xF1000000⟩,
    ⟨"SETALLGS", 0x30000000, 0xFFFFF000⟩,
    ⟨"GETGS", 0x40000000, 0xF1000FFF⟩,
    ⟨"SETDC", 0x50000000, 0xFF000000⟩,
    ⟨"SETALLDC", 0x60000000, 0xFFFFF000⟩,
    ⟨"GETDC", 0x70000000, 0xFF000FFF⟩,
    ⟨"COMMIT", 0x80000000, 0xFFFFFFFF⟩,
    ⟨"PENDING", 0x90000000, 0xFFFFFFFF⟩,
    ⟨"GAMMA", 0xA0000000, 0xFFFFFF00⟩,
    ⟨"CLOCKINDC", 0xB0000000, 0xFFFFFFFF⟩ ]

/-- `i` when none of the named fields, all of which `i`'s operation leaves unused, is non-zero; else the reason. -/
def unlessNonzero : List (Bool × Reserved) → Instr → Except Reserved Instr
  | [], i => .ok i
  | (isZero, why) :: rest, i => if isZero then unlessNonzero rest i else .error why

/-- The decoder: R79's operand assembly under R80's opcode map; everything else is reserved (R84). -/
def decode (w : Word) : Except Reserved Instr :=
  let z := (zField w == 0, Reserved.zBit)
  let row := (rowField w == 0, Reserved.rowField)
  let chan := (chanField w == 0, Reserved.chanField)
  let val := (valField w == 0, Reserved.valField)
  match (opField w).toNat with
  | 0x1 => unlessNonzero [z, row, chan, val] .init
  | 0x2 => unlessNonzero [z] (.setgs (rowField w) (chanField w) (valField w))
  | 0x3 => unlessNonzero [z, row, chan] (.setallgs (valField w))
  | 0x4 => unlessNonzero [z, val] (.getgs (rowField w) (chanField w))
  | 0x5 => unlessNonzero [z, row] (.setdc (chanField w) (valField w))
  | 0x6 => unlessNonzero [z, row, chan] (.setalldc (valField w))
  | 0x7 => unlessNonzero [z, row, val] (.getdc (chanField w))
  | 0x8 => unlessNonzero [z, row, chan, val] .commit
  | 0x9 => unlessNonzero [z, row, chan, val] .pending
  | 0xA => unlessNonzero [z, row, chan, (idxPad w == 0, .valField)] (.gamma (idxField w))
  | 0xB => unlessNonzero [z, row, chan, val] .clockindc
  | _ => .error .opcode

/-- The one format (R78): `oooo rrr z cccccccccccc vvvvvvvvvvvv`, with `z = 0`. -/
def wordOf (op : BitVec 4) (row : BitVec 3) (chan val : BitVec 12) : Word :=
  op ++ row ++ 0#1 ++ chan ++ val

/-- The encoder (R80): the operation code, the fields the command uses, zeros elsewhere (R79). -/
def encode (i : Instr) : Word :=
  match i with
  | .init => wordOf i.opcode 0 0 0
  | .setgs row chan val => wordOf i.opcode row chan val
  | .setallgs val => wordOf i.opcode 0 0 val
  | .getgs row chan => wordOf i.opcode row chan 0
  | .setdc chan val => wordOf i.opcode 0 chan val
  | .setalldc val => wordOf i.opcode 0 0 val
  | .getdc chan => wordOf i.opcode 0 chan 0
  | .commit => wordOf i.opcode 0 0 0
  | .pending => wordOf i.opcode 0 0 0
  | .gamma idx => wordOf i.opcode 0 0 (0#4 ++ idx)
  | .clockindc => wordOf i.opcode 0 0 0

/-- The command word whose low `nbits` bits are those of `w`, the bits above zero (opcode_table.json numbers bit 0
the least significant of the word). -/
def tableWord (nbits w : Nat) : Word := BitVec.ofNat 32 (w % 2 ^ nbits)

/-- What the decoder reads from a word of the opcode table; commands are one word of 32 bits (R86). -/
def decodeTableWord (nbits w : Nat) : Option Instr :=
  match decode (tableWord nbits w) with
  | .ok i => if nbits ≤ 32 then some i else none
  | .error _ => none

end Sys2Proof
end

