-- ==== Sys2Proof/Machine/State.lean ====
section
/-! DEFINITION. The architectural state (spec 10_state R20 to R41), the outside world's events (R31), and the
reasons a step can stop. -/

namespace Sys2Proof.Machine

/-- A byte space: the bytes written since the last `rst`, as (key, byte) pairs with strictly rising keys. A byte
that is not listed is unspecified (10_state R40); reading it draws a free value (log 6). -/
abbrev Memory := List Host.Cell

/-- The sequencer's phases (42_refresh_engine R150). -/
inductive Phase where
  | idle
  | blankOn
  | rowOff
  | latchHi
  | latchLo
  | rowOn
  | hold
  | blankOff
  | advance
  | load
  | bitSetup
  | clkHi
  | clkLo
  | done
  deriving DecidableEq, Repr

/-- The one-bit output pins (10_state R30). -/
inductive Pin where
  | clkOut
  | dataOut
  | latch
  | blank
  | progSel
  deriving DecidableEq, Repr

/-- A wire event (00_scope R18): a write of a one-bit pin, a write of `row_sel` (its `R` bits in the low bits of
eight, log 15), or a byte handed to a peripheral transport (43_transport R166). -/
inductive WireEvent where
  | pin (p : Pin) (v : Bool)
  | rowSel (v : BitVec 8)
  | byte (b : Byte)
  deriving DecidableEq, Repr

/-- The output pins (10_state R30); 1 is asserted. A pin that the configuration leaves out is never written and
stands at its reset value (log 13). -/
structure Pins where
  clkOut : Bool
  dataOut : Bool
  latch : Bool
  blank : Bool
  progSel : Bool
  rowSel : BitVec 8
  deriving DecidableEq, Repr

/-- An event at the input ports (10_state R31): one is consumed by each step. `quiet` is a step with no event. -/
inductive Input where
  | rst
  | tick
  | cmd (word : Word)
  | quiet
  deriving DecidableEq, Repr

/-- The state (10_state R20), with the output port `cmd_done` (R31), the ghost wire trace (R33), the constant
configuration (R28) and the model's own `inputs` (log 2) and `epoch` (log 6). -/
structure State where
  /-- constant after construction (00_scope R5) -/
  cfg : Config
  /-- `GS[p][r][j]` under the key `gsKey p r j` (R34) -/
  gs : Memory
  /-- `DC[j]` under the key `j` (R35) -/
  dc : Memory
  /-- the front page, page 1 when true (R22) -/
  front : Bool
  /-- `update_req` (R23) -/
  updateReq : Bool
  /-- `row_cursor`, used only when `mux` (R24) -/
  rowCursor : Nat
  /-- `latch_pending`, used only when not `mux` (R25) -/
  latchPending : Bool
  /-- the micro-step performed next (R26) -/
  phase : Phase
  /-- `byte_idx` (R26) -/
  byteIdx : Nat
  /-- `bit_cnt` (R26) -/
  bitCnt : Fin 8
  /-- the shift register (R26) -/
  sr : Byte
  /-- the host's result register (R29) -/
  resp : BitVec 16
  /-- the output pins (R30) -/
  pins : Pins
  /-- `cmd_done`: the last step completed a command (R31, log 14) -/
  cmdDone : Bool
  /-- the wire trace, oldest event first (R33) -/
  wire : List WireEvent
  /-- the events the outside world presents, the next one first (log 2) -/
  inputs : List Input
  /-- which draw the unlisted bytes of `gs` and `dc` belong to (log 6) -/
  epoch : Nat
  deriving DecidableEq, Repr

/-- Why a run stops in a fault. All are safe: the model stops where the spec defines no state (60_exceptions R192,
00_scope R17 `require`). -/
inductive Fault where
  /-- Raised by SETGS, SETALLGS, GETGS, SETDC, SETALLDC, GETDC with an operand out of range; records the command
  word (60_exceptions R191). Safe. -/
  | operandOutOfRange (word : Word)
  /-- Raised by SETGS, SETALLGS while `update_req = 1`; records the command word (60_exceptions R191). Safe. -/
  | backWriteWhilePending (word : Word)
  /-- INIT while a tick is in progress: the premise of 70_reset_and_hazards R218 fails, no transition exists. Safe. -/
  | initWhileBusy
  /-- CLOCKINDC while a tick is in progress: the premise of 70_reset_and_hazards R218 fails. Safe. -/
  | clockInDcWhileBusy
  /-- A tick event while a tick is in progress: the premise of 70_reset_and_hazards R216 fails. Safe. -/
  | tickWhileBusy
  deriving DecidableEq, Repr

/-- Why a command has no meaning. All are safe: the model stops. -/
inductive Refusal where
  /-- Raised by `exec` for a constructor whose meaning is not written. Safe. -/
  | notModelled (mnemonic : String)
  /-- Raised by `step` for a reserved word (30_encoding R84). Safe. -/
  | reservedWord (word : Word) (why : Reserved)
  /-- Raised by a command the configuration removes (30_encoding R84); records the command word. Safe. -/
  | unavailable (word : Word)
  deriving DecidableEq, Repr

/-- The pins after reset (10_state R39): all de-asserted but `blank`. -/
def Pins.reset : Pins :=
  { clkOut := false, dataOut := false, latch := false, blank := true, progSel := false, rowSel := 0 }

/-- The state of a block of configuration `c` after `rst` (10_state R39, R40), its `GS` and `DC` drawn afresh
as draw number `epoch`, with the events `inputs` still to come. -/
def State.afterReset (c : Config) (epoch : Nat) (inputs : List Input) : State :=
  { cfg := c, gs := [], dc := [], front := false, updateReq := false, rowCursor := 0, latchPending := false,
    phase := .idle, byteIdx := 0, bitCnt := 7, sr := 0, resp := 0, pins := Pins.reset, cmdDone := false,
    wire := [], inputs := inputs, epoch := epoch }

/-- 60_exceptions R193: no block exists for an invalid configuration. -/
def State.construct (c : Config) : Option State :=
  if c.Valid then some (State.afterReset c 0 []) else none

/-- The machine right after reset, at the standard configuration (log 1), with no event presented (log 2). -/
def State.reset : State := State.afterReset Config.standard 0 []

end Sys2Proof.Machine
end

