-- ==== Sys2Proof/Machine/Flags.lean ====
section
/-! DEFINITION. The flags (spec 10_state R27): `update_req` and `latch_pending`, stored, and `busy`, derived; who
sets, clears and reads each. There are no arithmetic condition codes. -/

namespace Sys2Proof.Machine

/-- `busy = (phase != IDLE)` (10_state R27). -/
def State.busy (s : State) : Bool := s.phase != .idle

/-- `update_req <- 1`: COMMIT alone (10_state R23, R27). -/
def setUpdateReq (s : State) : State := { s with updateReq := true }

/-- `PageFlip` (41_handoff R123): one indivisible update of `front` and `update_req`. -/
def pageFlip (s : State) : State := { s with front := !s.front, updateReq := false }

/-- `latch_pending <- 1`, at the end of a transmission when not `mux` (10_state R25). -/
def setLatchPending (s : State) : State := { s with latchPending := true }

/-- `latch_pending <- 0`, at the latch pulse when not `mux` (10_state R25). -/
def clearLatchPending (s : State) : State := { s with latchPending := false }

end Sys2Proof.Machine
end

