-- ==== Sys2Proof/Machine/Sizes.lean ====
section
/-! DEFINITION. The sizes every other file derives from the configuration (spec 00_scope R8, R13) and the
availability of pins and commands (00_scope R10, 10_state R30). -/

namespace Sys2Proof

/-- `numChannels = 16 * chipCount` (00_scope R6). -/
def Config.numChannels (c : Config) : Nat := 16 * c.chipCount

/-- `gsLen`, the bytes of one packed grayscale buffer: exactly `2 * chipCount * B` (00_scope R13). -/
def Config.gsLen (c : Config) : Nat := 2 * c.chipCount * c.pwmBits

/-- `dcLen = 12 * chipCount`, the bytes of the dot-correction buffer (00_scope R13). -/
def Config.dcLen (c : Config) : Nat := 12 * c.chipCount

/-- `maxGS = 2^B - 1` (00_scope R13). -/
def Config.maxGS (c : Config) : Nat := 2 ^ c.pwmBits - 1

/-- `maxDC = 63` (00_scope R13). -/
def Config.maxDC (_ : Config) : Nat := 63

/-- `mux = (R > 0)` (00_scope R8). -/
def Config.mux (c : Config) : Bool := decide (0 < c.multiplexRows)

/-- `nRows`: `R` when multiplexing, else 1 (00_scope R8). -/
def Config.nRows (c : Config) : Nat := if c.mux then c.multiplexRows else 1

/-- The bit-banged transport is the one with `clk_out` and `data_out` (10_state R30, 43_transport R166). -/
def Config.bitBanged (c : Config) : Bool := c.transportKind == .bitbang

/-- `prog_sel` is present (10_state R30), and with it the command CLOCKINDC (00_scope R10). -/
def Config.hasProgSel (c : Config) : Bool := c.includeDotCorrection && !c.hardwireProgramPins

/-- The code of `transportKind` in the configuration's register map (10_state R28). -/
def TransportKind.code : TransportKind → BitVec 2
  | .hwSpi => 0
  | .usartSync => 1
  | .bitbang => 2

end Sys2Proof
end

