-- ==== Sys2Proof/Machine/Checks.lean ====
section
/-! DEFINITION. The two checks a command meets before it acts: it is one the constructed block has (spec 00_scope R10,
30_encoding R84), and its operands are in range (40_codec R90). -/

namespace Sys2Proof

/-- The command exists in this configuration (00_scope R10, 30_encoding R84). -/
def Instr.available (c : Config) : Instr → Bool
  | .setdc _ _ => c.includeDotCorrection
  | .setalldc _ => c.includeDotCorrection
  | .getdc _ => c.includeDotCorrection
  | .clockindc => c.hasProgSel
  | .gamma _ => c.includeGammaCorrection
  | .init => true
  | .setgs _ _ _ => true
  | .setallgs _ => true
  | .getgs _ _ => true
  | .commit => true
  | .pending => true

/-- The operands are in range (40_codec R90; 60_exceptions R191: the other commands have no operand that can be
out of range). -/
def Instr.inRange (c : Config) : Instr → Bool
  | .setgs row chan val =>
      decide (chan.toNat < c.numChannels) && decide (row.toNat < c.nRows) && decide (val.toNat ≤ c.maxGS)
  | .setallgs val => decide (val.toNat ≤ c.maxGS)
  | .getgs row chan => decide (chan.toNat < c.numChannels) && decide (row.toNat < c.nRows)
  | .setdc chan val => decide (chan.toNat < c.numChannels) && decide (val.toNat ≤ c.maxDC)
  | .setalldc val => decide (val.toNat ≤ c.maxDC)
  | .getdc chan => decide (chan.toNat < c.numChannels)
  | .init => true
  | .commit => true
  | .pending => true
  | .gamma _ => true
  | .clockindc => true

end Sys2Proof
end

