-- ==== Sys2Proof/Machine/Memory.lean ====
section
/-! DEFINITION. The byte spaces `GS` and `DC`: reading and writing a byte, the keys of `GS`, stream bits, and the
field accessors GetBits and PutBits (spec 20_memory R50 to R60, 00_scope R16, R17). -/

namespace Sys2Proof.Machine

/-- The canonical form of a space: keys strictly rising (log 6). An unlisted byte is unspecified, so no entry can
equal it. -/
abbrev Memory.wf (m : Memory) : Prop := (m.map Prod.fst).Pairwise (· < ·)

/-- The byte listed under a key; `none` when nothing has written it since the last `rst`. -/
def Memory.find : Memory → Nat → Option Byte
  | [], _ => none
  | (b, w) :: rest, a => if a = b then some w else Memory.find rest a

/-- `MemRead(S, a, 1)` (00_scope R17): the listed byte, else the free value `draw` gives the key (10_state R40). -/
def Memory.read (draw : Nat → Byte) (m : Memory) (a : Nat) : Byte := (m.find a).getD (draw a)

/-- `MemWrite(S, a, 1, v)` (00_scope R17), keeping the keys rising. -/
def Memory.write : Memory → Nat → Byte → Memory
  | [], a, v => [(a, v)]
  | (b, w) :: rest, a, v =>
    if a < b then (a, v) :: (b, w) :: rest
    else if a = b then (a, v) :: rest
    else (b, w) :: Memory.write rest a v

/-- The key of the first byte of `GS[p][r]`. A row has room for 8192 bytes and a page for eight rows: `gsLen` is at
most 6144 and `nRows` at most 8. The numbering is the model's and is not observable (log 7). -/
def gsBase (p : Bool) (r : Nat) : Nat := (if p then 65536 else 0) + 8192 * r

/-- The key of `GS[p][r][j]` (10_state R34). -/
def gsKey (p : Bool) (r j : Nat) : Nat := gsBase p r + j

/-- `v[n]`, a bit of a byte (00_scope R16). -/
def byteBit (b : Byte) (n : Nat) : Bool := b.getLsbD n

/-- Stream bit `k` of the buffer at `base`: bit `7 - (k mod 8)` of byte `k div 8` (20_memory R56). -/
def streamBit (draw : Nat → Byte) (m : Memory) (base k : Nat) : Bool :=
  byteBit (m.read draw (base + k / 8)) (7 - k % 8)

/-- One turn of PutBits' loop (20_memory R58): stream bit `k` of the buffer at `base` becomes `bit`. -/
def putBit (draw : Nat → Byte) (m : Memory) (base k : Nat) (bit : Bool) : Memory :=
  let j := base + k / 8
  let mask : Byte := 1#8 <<< (7 - k % 8)
  let old := m.read draw j
  m.write j ((old &&& ~~~mask) ||| (if bit then mask else 0))

/-- `GetBits(S, off, W)` (20_memory R57) for the buffer at `base`: `W` stream bits from `off`, the first the most
significant. -/
def getBits (draw : Nat → Byte) (m : Memory) (base off : Nat) : Nat → Nat
  | 0 => 0
  | w + 1 => 2 * getBits draw m base off w + (streamBit draw m base (off + w)).toNat

/-- The first `n` turns of PutBits' loop for a field of `W` bits (20_memory R58): turn `t` writes `v[W-1-t]`. -/
def putBitsLoop (draw : Nat → Byte) (m : Memory) (base off W v : Nat) : Nat → Memory
  | 0 => m
  | n + 1 => putBit draw (putBitsLoop draw m base off W v n) base (off + n) (v.testBit (W - 1 - n))

/-- `PutBits(S, off, W, v)` (20_memory R58) for the buffer at `base`. -/
def putBits (draw : Nat → Byte) (m : Memory) (base off W v : Nat) : Memory :=
  putBitsLoop draw m base off W v W

/-- The draw of the unlisted bytes of `GS` in a state (log 6). -/
def State.gsDraw (s : State) : Nat → Byte := Config.freeGsByte s.epoch

/-- The draw of the unlisted bytes of `DC` in a state (log 6). -/
def State.dcDraw (s : State) : Nat → Byte := Config.freeDcByte s.epoch

/-- `GS[p][r][j]` (10_state R34). -/
def State.gsByte (s : State) (p : Bool) (r j : Nat) : Byte := s.gs.read s.gsDraw (gsKey p r j)

/-- `DC[j]` (10_state R35). -/
def State.dcByte (s : State) (j : Nat) : Byte := s.dc.read s.dcDraw j

/-- `j` is an index of a byte of `GS` under a configuration (20_memory R51), as a key. -/
def gsKeyInSpace (c : Config) (key : Nat) : Bool :=
  decide (key / 65536 < 2) && decide (key % 65536 / 8192 < c.nRows) && decide (key % 8192 < c.gsLen)

/-- Every listed byte of `GS` and of `DC` has an index in the ranges of 20_memory R51. -/
def State.memoryInSpace (s : State) : Bool :=
  s.gs.all (fun cell => gsKeyInSpace s.cfg cell.1) && s.dc.all (fun cell => decide (cell.1 < s.cfg.dcLen))

end Sys2Proof.Machine
end

