-- ==== Sys2Proof/Machine/Operands.lean ====
section
/-! DEFINITION. Operand assembly for the packed formats (spec 30_encoding R71, R75), the pure codec functions
(40_codec R91, R92, R96, R97), page and row selection (20_memory R52), and the checks the commands make before
they act (40_codec R90, R105, 30_encoding R84). -/

namespace Sys2Proof.Machine

/-- `channelRev = numChannels - 1 - c` (30_encoding R71). -/
def channelRev (cfg : Config) (c : Nat) : Nat := cfg.numChannels - 1 - c

/-- The stream-bit offset of channel `c`'s field of `w` bits (30_encoding R75). -/
def fieldOffset (cfg : Config) (w c : Nat) : Nat := w * channelRev cfg c

/-- The width of a dot-correction field (30_encoding R73). -/
def dcWidth : Nat := 6

/-- `encodeGS(buf, c, v)` (40_codec R91), on the buffer at `base`. -/
def encodeGS (cfg : Config) (draw : Nat → Byte) (m : Memory) (base c v : Nat) : Memory :=
  putBits draw m base (fieldOffset cfg cfg.pwmBits c) cfg.pwmBits v

/-- `decodeGS(buf, c)` (40_codec R92), on the buffer at `base`. -/
def decodeGS (cfg : Config) (draw : Nat → Byte) (m : Memory) (base c : Nat) : Nat :=
  getBits draw m base (fieldOffset cfg cfg.pwmBits c) cfg.pwmBits

/-- `encodeDC(buf, c, v)` (40_codec R96); the one `DC` buffer starts at key 0. -/
def encodeDC (cfg : Config) (draw : Nat → Byte) (m : Memory) (c v : Nat) : Memory :=
  putBits draw m 0 (fieldOffset cfg dcWidth c) dcWidth v

/-- `decodeDC(buf, c)` (40_codec R97). -/
def decodeDC (cfg : Config) (draw : Nat → Byte) (m : Memory) (c : Nat) : Nat :=
  getBits draw m 0 (fieldOffset cfg dcWidth c) dcWidth

/-- `for c = 0 .. n-1: buf <- encodeGS(buf, c, v)` (40_codec R94), on the buffer at `base`. -/
def fillGS (cfg : Config) (draw : Nat → Byte) (base v : Nat) : Nat → Memory → Memory
  | 0, m => m
  | n + 1, m => encodeGS cfg draw (fillGS cfg draw base v n m) base n v

/-- `for r = 0 .. n-1`: every channel of row `r` of page `p` becomes `v` (40_codec R94). -/
def fillRows (cfg : Config) (draw : Nat → Byte) (p : Bool) (v : Nat) : Nat → Memory → Memory
  | 0, m => m
  | n + 1, m => fillGS cfg draw (gsBase p n) v cfg.numChannels (fillRows cfg draw p v n m)

/-- `for c = 0 .. n-1: DC <- encodeDC(DC, c, v)` (40_codec R99). -/
def fillDC (cfg : Config) (draw : Nat → Byte) (v : Nat) : Nat → Memory → Memory
  | 0, m => m
  | n + 1, m => encodeDC cfg draw (fillDC cfg draw v n m) n v

/-- `1 - front`, the page the host's commands address (20_memory R52). -/
def State.back (s : State) : Bool := !s.front

/-- The grayscale value of channel `c` of row `r` of page `p` in a state. -/
def State.gsValue (s : State) (p : Bool) (r c : Nat) : Nat := decodeGS s.cfg s.gsDraw s.gs (gsBase p r) c

/-- The dot-correction value of channel `c` in a state. -/
def State.dcValue (s : State) (c : Nat) : Nat := decodeDC s.cfg s.dcDraw s.dc c

/-- `zext_16` of a result (30_encoding R81). -/
def zext16 (n : Nat) : BitVec 16 := BitVec.ofNat 16 n

/-- `if <an operand is out of range>: raise Fault(OperandOutOfRange)` (40_codec R90), after the refusal of a command
the configuration removes (30_encoding R84; the order is DEDUCED, log 11): both come before any effect. -/
def checked (i : Instr) (s : State) (act : State → Host.Outcome State Fault Refusal) :
    Host.Outcome State Fault Refusal :=
  if i.available s.cfg then
    if i.inRange s.cfg then act s else .fault (.operandOutOfRange (encode i))
  else .refused (.unavailable (encode i))

/-- `if update_req = 1: raise Fault(BackWriteWhilePending)` (40_codec R105), the check of the grayscale writers. -/
def whenNotPending (i : Instr) (s : State) (act : State → Host.Outcome State Fault Refusal) :
    Host.Outcome State Fault Refusal :=
  if s.updateReq then .fault (.backWriteWhilePending (encode i)) else act s

end Sys2Proof.Machine
end

