-- ==== Sys2Proof/Machine/Ops.lean ====
section
/-! DEFINITION. The shared operations: pin writes with their wire events (spec 00_scope R17, R18), the response
register, taking the one asynchronous event and returning from it (60_exceptions R197, R198), and `rst`
(70_reset_and_hazards R210). The block raises no synchronous exception (60_exceptions R190). -/

namespace Sys2Proof.Machine

/-- A one-bit pin takes a value (10_state R30). -/
def Pins.set (ps : Pins) (p : Pin) (v : Bool) : Pins :=
  match p with
  | .clkOut => { ps with clkOut := v }
  | .dataOut => { ps with dataOut := v }
  | .latch => { ps with latch := v }
  | .blank => { ps with blank := v }
  | .progSel => { ps with progSel := v }

/-- The value of a one-bit pin. -/
def Pins.get (ps : Pins) (p : Pin) : Bool :=
  match p with
  | .clkOut => ps.clkOut
  | .dataOut => ps.dataOut
  | .latch => ps.latch
  | .blank => ps.blank
  | .progSel => ps.progSel

/-- What a wire event does to the pins: a pin write sets the pin, a byte of a peripheral transport none of ours. -/
def Pins.after (ps : Pins) (e : WireEvent) : Pins :=
  match e with
  | .pin p v => ps.set p v
  | .rowSel v => { ps with rowSel := v }
  | .byte _ => ps

/-- The pins after the wire events `es`, in order. -/
def Pins.replay (ps : Pins) (es : List WireEvent) : Pins := es.foldl Pins.after ps

/-- `e` happens on the wire: the pin takes the value and the event is appended to the trace, whether or not the
value changes (00_scope R17, R18). -/
def emit (e : WireEvent) (s : State) : State := { s with pins := s.pins.after e, wire := s.wire ++ [e] }

/-- `WritePin(p, v)` for a one-bit pin (00_scope R17). -/
def writePin (p : Pin) (v : Bool) (s : State) : State := emit (.pin p v) s

/-- `WritePin(row_sel, v)` (00_scope R17). -/
def writeRowSel (v : BitVec 8) (s : State) : State := emit (.rowSel v) s

/-- `resp <- zext_16(n)` (10_state R29, 30_encoding R81). -/
def respond (n : Nat) (s : State) : State := { s with resp := zext16 n }

/-- `phase <- X`, this hardware's `pc <- target` (00_scope R17). -/
def goto (p : Phase) (s : State) : State := { s with phase := p }

/-- `byte_idx <- n` (10_state R26). -/
def setByteIdx (n : Nat) (s : State) : State := { s with byteIdx := n }

/-- `bit_cnt <- n` (10_state R26). -/
def setBitCnt (n : Fin 8) (s : State) : State := { s with bitCnt := n }

/-- `sr <- b` (10_state R26). -/
def setSr (b : Byte) (s : State) : State := { s with sr := b }

/-- Taking a tick (60_exceptions R197): nothing is saved, no mode changes, there is no vector; the sequencer leaves
IDLE for BLANK_ON. A tick is taken only in IDLE (42_refresh_engine R151); a tick event in another phase breaks the
premise of 70_reset_and_hazards R216, and no transition exists (log 10). -/
def takeTick (s : State) : Host.Outcome State Fault Refusal :=
  if s.busy then .fault .tickWhileBusy else .next (goto .blankOn s)

/-- Returning from a tick (60_exceptions R198): DONE is followed by IDLE, `byte_idx` and `bit_cnt` at their idle
values (42_refresh_engine R150); nothing is restored. -/
def returnToIdle (s : State) : State := goto .idle (setBitCnt 7 (setByteIdx 0 s))

/-- `rst` (70_reset_and_hazards R210): whatever is in progress is abandoned, every register and pin takes its reset
value without a wire event, the trace is emptied, and every byte of `GS` and `DC` is unspecified again: a new draw
(10_state R40, log 8). The configuration stays, and so do the events still to come. -/
def takeRst (s : State) : State := State.afterReset s.cfg (s.epoch + 1) s.inputs

end Sys2Proof.Machine
end

