-- ==== Sys2Proof/Machine/Codec.lean ====
section
/-! DEFINITION. The packing-codec commands SETGS, SETALLGS, GETGS, SETDC, SETALLDC, GETDC (spec 40_codec). -/

namespace Sys2Proof.Machine

/-- SETGS (40_codec R93): `GS[1-front][row] <- encodeGS(GS[1-front][row], chan, val)`. -/
def execSetgs (row : BitVec 3) (chan val : BitVec 12) (s : State) : Host.Outcome State Fault Refusal :=
  checked (.setgs row chan val) s fun s =>
    whenNotPending (.setgs row chan val) s fun s =>
      .next { s with gs := encodeGS s.cfg s.gsDraw s.gs (gsBase s.back row.toNat) chan.toNat val.toNat }

/-- SETALLGS (40_codec R94): every channel of every row of the back page. -/
def execSetallgs (val : BitVec 12) (s : State) : Host.Outcome State Fault Refusal :=
  checked (.setallgs val) s fun s =>
    whenNotPending (.setallgs val) s fun s =>
      .next { s with gs := fillRows s.cfg s.gsDraw s.back val.toNat s.cfg.nRows s.gs }

/-- GETGS (40_codec R95): allowed at any time, `update_req` or not (R105). -/
def execGetgs (row : BitVec 3) (chan : BitVec 12) (s : State) : Host.Outcome State Fault Refusal :=
  checked (.getgs row chan) s fun s => .next (respond (s.gsValue s.back row.toNat chan.toNat) s)

/-- SETDC (40_codec R98). -/
def execSetdc (chan val : BitVec 12) (s : State) : Host.Outcome State Fault Refusal :=
  checked (.setdc chan val) s fun s =>
    .next { s with dc := encodeDC s.cfg s.dcDraw s.dc chan.toNat val.toNat }

/-- SETALLDC (40_codec R99). -/
def execSetalldc (val : BitVec 12) (s : State) : Host.Outcome State Fault Refusal :=
  checked (.setalldc val) s fun s =>
    .next { s with dc := fillDC s.cfg s.dcDraw val.toNat s.cfg.numChannels s.dc }

/-- GETDC (40_codec R100). -/
def execGetdc (chan : BitVec 12) (s : State) : Host.Outcome State Fault Refusal :=
  checked (.getdc chan) s fun s => .next (respond (s.dcValue chan.toNat) s)

end Sys2Proof.Machine
end

