-- ==== Sys2Proof/Machine/Gamma.lean ====
section
/-! DEFINITION. The gamma table (spec 44_gamma R180 to R185): the five tables of R184, which are normative for the
model, the integer statement of R180 they come from, and the command GAMMA. -/

namespace Sys2Proof.Machine

/-- `pwmBits = 12` (44_gamma R184). -/
def gammaTable12 : List Nat :=
  [0, 0, 0, 0, 0, 0, 0, 1, 1, 1, 1, 2, 2, 2, 3, 3] ++
  [4, 5, 5, 6, 7, 8, 9, 10, 11, 12, 14, 15, 16, 18, 19, 21] ++
  [23, 25, 27, 29, 31, 33, 35, 37, 40, 42, 45, 48, 51, 54, 57, 60] ++
  [63, 66, 70, 73, 77, 81, 85, 88, 93, 97, 101, 105, 110, 115, 119, 124] ++
  [129, 134, 140, 145, 150, 156, 162, 168, 173, 180, 186, 192, 199, 205, 212, 219] ++
  [226, 233, 240, 248, 255, 263, 270, 278, 286, 295, 303, 312, 320, 329, 338, 347] ++
  [356, 365, 375, 385, 394, 404, 414, 425, 435, 446, 456, 467, 478, 489, 500, 512] ++
  [524, 535, 547, 559, 572, 584, 596, 609, 622, 635, 648, 662, 675, 689, 703, 717] ++
  [731, 745, 760, 775, 789, 805, 820, 835, 851, 866, 882, 898, 915, 931, 948, 964] ++
  [981, 998, 1016, 1033, 1051, 1069, 1087, 1105, 1123, 1142, 1161, 1180, 1199, 1218, 1238, 1257] ++
  [1277, 1297, 1317, 1338, 1358, 1379, 1400, 1421, 1443, 1464, 1486, 1508, 1530, 1552, 1575, 1598] ++
  [1621, 1644, 1667, 1691, 1714, 1738, 1762, 1787, 1811, 1836, 1861, 1886, 1911, 1937, 1962, 1988] ++
  [2014, 2041, 2067, 2094, 2121, 2148, 2176, 2203, 2231, 2259, 2287, 2315, 2344, 2373, 2402, 2431] ++
  [2461, 2490, 2520, 2550, 2581, 2611, 2642, 2673, 2704, 2736, 2767, 2799, 2831, 2863, 2896, 2929] ++
  [2962, 2995, 3028, 3062, 3096, 3130, 3164, 3198, 3233, 3268, 3303, 3339, 3374, 3410, 3446, 3483] ++
  [3519, 3556, 3593, 3630, 3668, 3705, 3743, 3781, 3820, 3858, 3897, 3936, 3976, 4015, 4055, 4095]

/-- `pwmBits = 11` (44_gamma R184). -/
def gammaTable11 : List Nat :=
  [0, 0, 0, 0, 0, 0, 0, 0, 0, 0, 1, 1, 1, 1, 1, 2] ++
  [2, 2, 3, 3, 4, 4, 4, 5, 6, 6, 7, 7, 8, 9, 10, 11] ++
  [11, 12, 13, 14, 15, 16, 18, 19, 20, 21, 23, 24, 25, 27, 28, 30] ++
  [31, 33, 35, 37, 38, 40, 42, 44, 46, 48, 51, 53, 55, 57, 60, 62] ++
  [65, 67, 70, 72, 75, 78, 81, 84, 87, 90, 93, 96, 99, 103, 106, 109] ++
  [113, 116, 120, 124, 127, 131, 135, 139, 143, 147, 151, 156, 160, 164, 169, 173] ++
  [178, 183, 187, 192, 197, 202, 207, 212, 217, 223, 228, 233, 239, 245, 250, 256] ++
  [262, 268, 274, 280, 286, 292, 298, 305, 311, 317, 324, 331, 338, 344, 351, 358] ++
  [365, 373, 380, 387, 395, 402, 410, 417, 425, 433, 441, 449, 457, 465, 474, 482] ++
  [491, 499, 508, 516, 525, 534, 543, 552, 562, 571, 580, 590, 599, 609, 619, 628] ++
  [638, 648, 658, 669, 679, 689, 700, 710, 721, 732, 743, 754, 765, 776, 787, 799] ++
  [810, 822, 833, 845, 857, 869, 881, 893, 905, 918, 930, 943, 955, 968, 981, 994] ++
  [1007, 1020, 1033, 1047, 1060, 1074, 1088, 1101, 1115, 1129, 1143, 1157, 1172, 1186, 1201, 1215] ++
  [1230, 1245, 1260, 1275, 1290, 1305, 1321, 1336, 1352, 1367, 1383, 1399, 1415, 1431, 1448, 1464] ++
  [1480, 1497, 1514, 1530, 1547, 1564, 1582, 1599, 1616, 1634, 1651, 1669, 1687, 1705, 1723, 1741] ++
  [1759, 1778, 1796, 1815, 1833, 1852, 1871, 1890, 1909, 1929, 1948, 1968, 1987, 2007, 2027, 2047]

/-- `pwmBits = 10` (44_gamma R184). -/
def gammaTable10 : List Nat :=
  [0, 0, 0, 0, 0, 0, 0, 0, 0, 0, 0, 0, 0, 1, 1, 1] ++
  [1, 1, 1, 2, 2, 2, 2, 2, 3, 3, 3, 4, 4, 4, 5, 5] ++
  [6, 6, 7, 7, 8, 8, 9, 9, 10, 11, 11, 12, 13, 13, 14, 15] ++
  [16, 17, 17, 18, 19, 20, 21, 22, 23, 24, 25, 26, 27, 29, 30, 31] ++
  [32, 34, 35, 36, 38, 39, 40, 42, 43, 45, 46, 48, 50, 51, 53, 55] ++
  [56, 58, 60, 62, 64, 66, 68, 70, 72, 74, 76, 78, 80, 82, 84, 87] ++
  [89, 91, 94, 96, 99, 101, 104, 106, 109, 111, 114, 117, 119, 122, 125, 128] ++
  [131, 134, 137, 140, 143, 146, 149, 152, 155, 159, 162, 165, 169, 172, 176, 179] ++
  [183, 186, 190, 194, 197, 201, 205, 209, 213, 216, 220, 224, 228, 233, 237, 241] ++
  [245, 249, 254, 258, 263, 267, 271, 276, 281, 285, 290, 295, 299, 304, 309, 314] ++
  [319, 324, 329, 334, 339, 345, 350, 355, 360, 366, 371, 377, 382, 388, 393, 399] ++
  [405, 411, 416, 422, 428, 434, 440, 446, 452, 459, 465, 471, 477, 484, 490, 497] ++
  [503, 510, 516, 523, 530, 537, 543, 550, 557, 564, 571, 578, 586, 593, 600, 607] ++
  [615, 622, 630, 637, 645, 652, 660, 668, 676, 683, 691, 699, 707, 715, 723, 732] ++
  [740, 748, 756, 765, 773, 782, 790, 799, 808, 816, 825, 834, 843, 852, 861, 870] ++
  [879, 888, 898, 907, 916, 926, 935, 945, 954, 964, 974, 983, 993, 1003, 1013, 1023]

/-- `pwmBits = 9` (44_gamma R184). -/
def gammaTable9 : List Nat :=
  [0, 0, 0, 0, 0, 0, 0, 0, 0, 0, 0, 0, 0, 0, 0, 0] ++
  [1, 1, 1, 1, 1, 1, 1, 1, 1, 2, 2, 2, 2, 2, 2, 3] ++
  [3, 3, 3, 4, 4, 4, 4, 5, 5, 5, 6, 6, 6, 7, 7, 7] ++
  [8, 8, 9, 9, 10, 10, 11, 11, 12, 12, 13, 13, 14, 14, 15, 16] ++
  [16, 17, 17, 18, 19, 19, 20, 21, 22, 22, 23, 24, 25, 26, 26, 27] ++
  [28, 29, 30, 31, 32, 33, 34, 35, 36, 37, 38, 39, 40, 41, 42, 43] ++
  [44, 46, 47, 48, 49, 50, 52, 53, 54, 56, 57, 58, 60, 61, 62, 64] ++
  [65, 67, 68, 70, 71, 73, 74, 76, 78, 79, 81, 83, 84, 86, 88, 89] ++
  [91, 93, 95, 97, 99, 100, 102, 104, 106, 108, 110, 112, 114, 116, 118, 120] ++
  [122, 125, 127, 129, 131, 133, 136, 138, 140, 142, 145, 147, 150, 152, 154, 157] ++
  [159, 162, 164, 167, 170, 172, 175, 177, 180, 183, 185, 188, 191, 194, 197, 199] ++
  [202, 205, 208, 211, 214, 217, 220, 223, 226, 229, 232, 235, 238, 242, 245, 248] ++
  [251, 255, 258, 261, 265, 268, 271, 275, 278, 282, 285, 289, 293, 296, 300, 303] ++
  [307, 311, 314, 318, 322, 326, 330, 334, 337, 341, 345, 349, 353, 357, 361, 365] ++
  [370, 374, 378, 382, 386, 391, 395, 399, 403, 408, 412, 417, 421, 426, 430, 435] ++
  [439, 444, 448, 453, 458, 462, 467, 472, 477, 481, 486, 491, 496, 501, 506, 511]

/-- `pwmBits = 8` (44_gamma R184). -/
def gammaTable8 : List Nat :=
  [0, 0, 0, 0, 0, 0, 0, 0, 0, 0, 0, 0, 0, 0, 0, 0] ++
  [0, 0, 0, 0, 0, 0, 1, 1, 1, 1, 1, 1, 1, 1, 1, 1] ++
  [1, 2, 2, 2, 2, 2, 2, 2, 2, 3, 3, 3, 3, 3, 4, 4] ++
  [4, 4, 4, 5, 5, 5, 5, 6, 6, 6, 6, 7, 7, 7, 7, 8] ++
  [8, 8, 9, 9, 9, 10, 10, 10, 11, 11, 12, 12, 12, 13, 13, 14] ++
  [14, 15, 15, 15, 16, 16, 17, 17, 18, 18, 19, 19, 20, 20, 21, 22] ++
  [22, 23, 23, 24, 25, 25, 26, 26, 27, 28, 28, 29, 30, 30, 31, 32] ++
  [33, 33, 34, 35, 36, 36, 37, 38, 39, 40, 40, 41, 42, 43, 44, 45] ++
  [46, 46, 47, 48, 49, 50, 51, 52, 53, 54, 55, 56, 57, 58, 59, 60] ++
  [61, 62, 63, 64, 65, 67, 68, 69, 70, 71, 72, 73, 75, 76, 77, 78] ++
  [80, 81, 82, 83, 85, 86, 87, 89, 90, 91, 93, 94, 95, 97, 98, 99] ++
  [101, 102, 104, 105, 107, 108, 110, 111, 113, 114, 116, 117, 119, 121, 122, 124] ++
  [125, 127, 129, 130, 132, 134, 135, 137, 139, 141, 142, 144, 146, 148, 150, 151] ++
  [153, 155, 157, 159, 161, 163, 165, 166, 168, 170, 172, 174, 176, 178, 180, 182] ++
  [184, 186, 189, 191, 193, 195, 197, 199, 201, 204, 206, 208, 210, 212, 215, 217] ++
  [219, 221, 224, 226, 228, 231, 233, 235, 238, 240, 243, 245, 248, 250, 253, 255]

/-- `GAMMA` for a bit depth (44_gamma R184); a depth outside 8..12 has no block (60_exceptions R193). -/
def gammaTable (pwmBits : Nat) : List Nat :=
  match pwmBits with
  | 8 => gammaTable8
  | 9 => gammaTable9
  | 10 => gammaTable10
  | 11 => gammaTable11
  | 12 => gammaTable12
  | _ => []

/-- `GAMMA[i]` (10_state R36). -/
def gammaEntry (c : Config) (i : Nat) : Nat := (gammaTable c.pwmBits).getD i 0

/-- The integer statement of `round((i/255)^2.5 * maxGS) = n` (44_gamma R180): `GAMMA[0] = 0`, and for `i >= 1` the
two strict inequalities, the left one trivial at `n = 0`. -/
def isRoundedGamma (maxGS i n : Nat) : Bool :=
  if i = 0 then n == 0
  else
    (n == 0 || decide ((2 * n - 1) ^ 2 * 255 ^ 5 < 4 * maxGS ^ 2 * i ^ 5)) &&
    decide (4 * maxGS ^ 2 * i ^ 5 < (2 * n + 1) ^ 2 * 255 ^ 5)

/-- GAMMA (44_gamma R183): `resp <- zext_16(GAMMA[idx])`. -/
def execGamma (idx : BitVec 8) (s : State) : Host.Outcome State Fault Refusal :=
  checked (.gamma idx) s fun s => .next (respond (gammaEntry s.cfg idx.toNat) s)

end Sys2Proof.Machine
end

