-- ==== Sys2Proof/Machine/Handoff.lean ====
section
/-! DEFINITION. The handoff commands INIT, COMMIT, PENDING (spec 41_handoff). The page flip is `pageFlip`. -/

namespace Sys2Proof.Machine

/-- The register half of INIT (41_handoff R120). -/
def initRegisters (s : State) : State :=
  { s with
    front := false, updateReq := false,
    rowCursor := if s.cfg.mux then 0 else s.rowCursor,
    latchPending := if s.cfg.mux then s.latchPending else false,
    phase := .idle, byteIdx := 0, bitCnt := 7, sr := 0 }

/-- The wire events of INIT, in the order of 41_handoff R120: one per pin the configuration has. -/
def initEvents (c : Config) : List WireEvent :=
  [.pin .blank true, .pin .latch false] ++
  (if c.bitBanged then [.pin .clkOut false, .pin .dataOut false] else []) ++
  (if c.hasProgSel then [.pin .progSel false] else []) ++
  (if c.mux then [.rowSel 0] else [])

/-- A list of wire events, one after the other. -/
def emitAll : List WireEvent → State → State
  | [], s => s
  | e :: es, s => emitAll es (emit e s)

/-- INIT (41_handoff R120): registers and pins to their reset values, one event per pin; `GS`, `DC` and `resp` stay.
With a tick in progress the premise of 70_reset_and_hazards R218 fails (log 10). -/
def execInit (s : State) : Host.Outcome State Fault Refusal :=
  if s.busy then .fault .initWhileBusy else .next (emitAll (initEvents s.cfg) (initRegisters s))

/-- COMMIT (41_handoff R121): `update_req <- 1`. -/
def execCommit (s : State) : Host.Outcome State Fault Refusal := .next (setUpdateReq s)

/-- PENDING (41_handoff R122): `resp <- zext_16(update_req)`. -/
def execPending (s : State) : Host.Outcome State Fault Refusal :=
  .next (respond s.updateReq.toNat s)

end Sys2Proof.Machine
end

