-- ==== Sys2Proof/Machine/Transport.lean ====
section
/-! DEFINITION. The serial transport (spec 43_transport): `transmit`, the bit-banged `ShiftByte`, and the command
CLOCKINDC. -/

namespace Sys2Proof.Machine

/-- One bit of ShiftByte (43_transport R167): present `sr[k]` while the clock is low, raise the clock, lower it. -/
def clockBit (k : Nat) (s : State) : State :=
  writePin .clkOut false (writePin .clkOut true (writePin .dataOut (byteBit s.sr k) s))

/-- `for bit_cnt = n-1 downto 0` (43_transport R167). -/
def clockBits : Nat → State → State
  | 0, s => s
  | n + 1, s => clockBits n (clockBit n s)

/-- `ShiftByte(b)` (43_transport R167); `bit_cnt` is left at 7. -/
def shiftByte (b : Byte) (s : State) : State := setBitCnt 7 (clockBits 8 (setSr b s))

/-- `transmit(b)` (43_transport R165): ShiftByte when bit-banged, else one `Byte(b)` event and nothing else (R166). -/
def transmit (b : Byte) (s : State) : State :=
  if s.cfg.bitBanged then shiftByte b s else emit (.byte b) s

/-- `for j in the n indices from j: transmit(GS[front][r][j])` (42_refresh_engine R144). -/
def sendGsFrom (r : Nat) : (n j : Nat) → State → State
  | 0, _, s => s
  | n + 1, j, s => sendGsFrom r n (j + 1) (transmit (s.gsByte s.front r j) s)

/-- The transmission of row `r` of the front page: bytes `0 .. gsLen-1` (42_refresh_engine R144). -/
def sendGs (r : Nat) (s : State) : State := sendGsFrom r s.cfg.gsLen 0 s

/-- `for j in the n indices from j: transmit(DC[j])` (43_transport R172). -/
def sendDcFrom : (n j : Nat) → State → State
  | 0, _, s => s
  | n + 1, j, s => sendDcFrom n (j + 1) (transmit (s.dcByte j) s)

/-- The transmission of the dot-correction buffer: bytes `0 .. dcLen-1` (43_transport R172). -/
def sendDc (s : State) : State := sendDcFrom s.cfg.dcLen 0 s

/-- The 24 wire events of ShiftByte (43_transport R167): for each bit, most significant first, the data, the rising
and the falling edge. -/
def shiftEvents (b : Byte) : List WireEvent :=
  [7, 6, 5, 4, 3, 2, 1, 0].flatMap fun k => [.pin .dataOut (byteBit b k), .pin .clkOut true, .pin .clkOut false]

/-- The wire events of `transmit(b)` under a configuration (43_transport R165, R166, R167). -/
def transmitEvents (c : Config) (b : Byte) : List WireEvent := if c.bitBanged then shiftEvents b else [.byte b]

/-- The bytes of `GS[p][r]` in index order (10_state R34). -/
def State.rowBytes (s : State) (p : Bool) (r : Nat) : List Byte := (List.range s.cfg.gsLen).map (s.gsByte p r)

/-- The bytes of `DC` in index order (10_state R35). -/
def State.dcBytes (s : State) : List Byte := (List.range s.cfg.dcLen).map s.dcByte

/-- The latch toggle: high, then low (42_refresh_engine R139, 43_transport R172). -/
def toggleLatch (s : State) : State := writePin .latch false (writePin .latch true s)

/-- CLOCKINDC (43_transport R172). With a tick in progress the premise of 70_reset_and_hazards R218 fails (log 10). -/
def execClockindc (s : State) : Host.Outcome State Fault Refusal :=
  checked .clockindc s fun s =>
    if s.busy then .fault .clockInDcWhileBusy
    else .next (writePin .progSel false (toggleLatch (sendDc (writePin .progSel true s))))

end Sys2Proof.Machine
end

