-- ==== Sys2Proof/Machine/Dispatch.lean ====
section
/-! DEFINITION. `exec`: one arm per command, each a direct call of its meaning. -/

namespace Sys2Proof.Machine

def exec (i : Instr) (s : State) : Host.Outcome State Fault Refusal :=
  match i with
  | .init => Sys2Proof.Machine.execInit s
  | .setgs row chan val => Sys2Proof.Machine.execSetgs row chan val s
  | .setallgs val => Sys2Proof.Machine.execSetallgs val s
  | .getgs row chan => Sys2Proof.Machine.execGetgs row chan s
  | .setdc chan val => Sys2Proof.Machine.execSetdc chan val s
  | .setalldc val => Sys2Proof.Machine.execSetalldc val s
  | .getdc chan => Sys2Proof.Machine.execGetdc chan s
  | .commit => Sys2Proof.Machine.execCommit s
  | .pending => Sys2Proof.Machine.execPending s
  | .gamma idx => Sys2Proof.Machine.execGamma idx s
  | .clockindc => Sys2Proof.Machine.execClockindc s

end Sys2Proof.Machine
end

