-- ==== Sys2Proof/Machine/Engine.lean ====
section
/-! DEFINITION. The refresh state machine (spec 42_refresh_engine): the row-select table, the sequencer's micro-steps
(R150 to R156), and one whole tick at the operation level (R137, R138). -/

namespace Sys2Proof.Machine

/-- `ROWTAB[k]`, `k` in `0..2R-1` (42_refresh_engine R158): at step `s`, entry `2s` names the row to de-assert,
`(s - 1) mod R`, and entry `2s + 1` the row to assert, `s`. -/
def rowTab (R k : Nat) : BitVec 8 :=
  if k % 2 = 0 then 1#8 <<< ((k / 2 + R - 1) % R) else 1#8 <<< (k / 2)

/-- The code of a phase (42_refresh_engine R150); 14 and 15 are unused. -/
def Phase.code : Phase → BitVec 4
  | .idle => 0
  | .blankOn => 1
  | .rowOff => 2
  | .latchHi => 3
  | .latchLo => 4
  | .rowOn => 5
  | .hold => 6
  | .blankOff => 7
  | .advance => 8
  | .load => 9
  | .bitSetup => 10
  | .clkHi => 11
  | .clkLo => 12
  | .done => 13

/-- The de-assertion of the previous row at step `row_cursor` (42_refresh_engine R141). -/
def deassertRow (s : State) : State :=
  writeRowSel (s.pins.rowSel &&& ~~~rowTab s.cfg.multiplexRows (2 * s.rowCursor)) s

/-- The assertion of row `row_cursor` (42_refresh_engine R141). -/
def assertRow (s : State) : State :=
  writeRowSel (s.pins.rowSel ||| rowTab s.cfg.multiplexRows (2 * s.rowCursor + 1)) s

/-- `row_cursor <- (row_cursor + 1) mod R`, when `mux` (42_refresh_engine R142). -/
def advanceCursor (s : State) : State :=
  { s with rowCursor := if s.cfg.mux then (s.rowCursor + 1) % s.cfg.multiplexRows else s.rowCursor }

/-- The frame boundary, tested after the advance (41_handoff R124): any tick when not `mux`, cursor 0 when `mux`. -/
def State.atBoundary (s : State) : Bool := !s.cfg.mux || s.rowCursor == 0

/-- The frame-boundary test (42_refresh_engine R143): a pending request is answered by a page flip. -/
def boundaryTest (s : State) : State := if s.atBoundary && s.updateReq then pageFlip s else s

/-- The row whose buffer the engine transmits: the cursor after its advance (42_refresh_engine R145), row 0 when not
`mux` (20_memory R52). -/
def State.sendRow (s : State) : Nat := if s.cfg.mux then s.rowCursor else 0

/-- The next byte of the transmission, `GS[front][row][byte_idx]` (42_refresh_engine R150, LOAD). -/
def State.loadByte (s : State) : Byte := s.gsByte s.front s.sendRow s.byteIdx

/-- BLANK_ON -/
def phaseBlankOn (s : State) : State :=
  goto (if s.cfg.mux then .rowOff else if s.latchPending then .latchHi else .hold) (writePin .blank true s)

/-- ROW_OFF -/
def phaseRowOff (s : State) : State := goto .latchHi (deassertRow s)

/-- LATCH_HI -/
def phaseLatchHi (s : State) : State := goto .latchLo (writePin .latch true s)

/-- LATCH_LO -/
def phaseLatchLo (s : State) : State :=
  if s.cfg.mux then goto .rowOn (writePin .latch false s)
  else goto .hold (clearLatchPending (writePin .latch false s))

/-- ROW_ON -/
def phaseRowOn (s : State) : State := goto .hold (assertRow s)

/-- HOLD stands for the `T_HOLD` delay and changes nothing (70_reset_and_hazards R223). -/
def phaseHold (s : State) : State := goto .blankOff s

/-- BLANK_OFF -/
def phaseBlankOff (s : State) : State := goto .advance (writePin .blank false s)

/-- ADVANCE: the advance and the flip in one step (42_refresh_engine R154). -/
def phaseAdvance (s : State) : State := goto .load (setByteIdx 0 (boundaryTest (advanceCursor s)))

/-- After a byte: the next one, or DONE after the last (42_refresh_engine R150, CLK_LO). -/
def nextByte (s : State) : State :=
  if s.byteIdx < s.cfg.gsLen - 1 then goto .load (setByteIdx (s.byteIdx + 1) s) else goto .done s

/-- LOAD. Under a peripheral transport a byte is one micro-step, the one `Byte` event of 43_transport R166
(DESIGN CHOICE, log 12: the spec gives the bit phases for the bit-banged transport only). -/
def phaseLoad (s : State) : State :=
  if s.cfg.bitBanged then goto .bitSetup (setBitCnt 7 (setSr s.loadByte s))
  else nextByte (emit (.byte s.loadByte) s)

/-- BIT_SETUP -/
def phaseBitSetup (s : State) : State := goto .clkHi (writePin .dataOut (byteBit s.sr s.bitCnt.val) s)

/-- CLK_HI -/
def phaseClkHi (s : State) : State := goto .clkLo (writePin .clkOut true s)

/-- CLK_LO -/
def phaseClkLo (s : State) : State :=
  if 0 < s.bitCnt.val then goto .bitSetup (setBitCnt (s.bitCnt - 1) (writePin .clkOut false s))
  else nextByte (writePin .clkOut false s)

/-- DONE, and the return to IDLE. -/
def phaseDone (s : State) : State := returnToIdle (if s.cfg.mux then s else setLatchPending s)

/-- One micro-step of the sequencer (42_refresh_engine R150); in IDLE the engine changes no state (R151). -/
def microStep (s : State) : State :=
  match s.phase with
  | .idle => s
  | .blankOn => phaseBlankOn s
  | .rowOff => phaseRowOff s
  | .latchHi => phaseLatchHi s
  | .latchLo => phaseLatchLo s
  | .rowOn => phaseRowOn s
  | .hold => phaseHold s
  | .blankOff => phaseBlankOff s
  | .advance => phaseAdvance s
  | .load => phaseLoad s
  | .bitSetup => phaseBitSetup s
  | .clkHi => phaseClkHi s
  | .clkLo => phaseClkLo s
  | .done => phaseDone s

/-- `n` micro-steps. -/
def microSteps : Nat → State → State
  | 0, s => s
  | n + 1, s => microSteps n (microStep s)

/-- The blank and latch pulse of a tick when not `mux` (42_refresh_engine R137, step 1). -/
def pulsePlain (s : State) : State :=
  writePin .blank false
    (if s.latchPending then clearLatchPending (toggleLatch (writePin .blank true s)) else writePin .blank true s)

/-- The blank and latch pulse with the row switch, when `mux` (42_refresh_engine R138, steps 1 and 2a). -/
def pulseMux (s : State) : State :=
  writePin .blank false (assertRow (toggleLatch (deassertRow (writePin .blank true s))))

/-- One whole TICK at the operation level (42_refresh_engine R137 and R138). -/
def tickOperation (s : State) : State :=
  if s.cfg.mux then
    let t := boundaryTest (advanceCursor (pulseMux s))
    sendGs t.rowCursor t
  else
    setLatchPending (sendGs 0 (boundaryTest (pulsePlain s)))

/-- The micro-steps of one tick, from leaving IDLE to returning to it (42_refresh_engine R156): one LOAD and 24 bit
phases per byte when bit-banged, one micro-step per byte otherwise (log 12). -/
def tickLength (s : State) : Nat :=
  1 + (if s.cfg.mux || s.latchPending then 2 else 0) + (if s.cfg.mux then 2 else 0) + 1 + 1 + 1 +
    s.cfg.gsLen * (if s.cfg.bitBanged then 25 else 1) + 1

end Sys2Proof.Machine
end

