-- ==== Sys2Proof/Machine/Step.lean ====
section
/-! DEFINITION. One step: the next event of the outside world lands, or the engine takes one micro-step (spec
00_scope R14 at the micro-step level, 60_exceptions R196). -/

namespace Sys2Proof.Machine

/-- The state as the event at the head of `inputs` finds it: that event consumed, `cmd_done` low. -/
def State.consume (s : State) (rest : List Input) : State := { s with inputs := rest, cmdDone := false }

/-- `cmd_done` is raised for a command that completed (10_state R31). -/
def completeCommand (r : Host.Outcome State Fault Refusal) : Host.Outcome State Fault Refusal :=
  match r with
  | .next t => .next { t with cmdDone := true }
  | .fault f => .fault f
  | .refused x => .refused x

/-- The host presents a command word (10_state R31): its command is performed, a reserved word refused (30_encoding
R84). -/
def runCommand (w : Word) (s : State) : Host.Outcome State Fault Refusal :=
  match decode w with
  | .ok i => completeCommand (exec i s)
  | .error why => .refused (.reservedWord w why)

/-- One step. An event lands between two micro-steps; a step with no event (none listed, or `quiet`) is one
micro-step of the engine, and in IDLE the block waits (log 2, log 4). -/
def step (s : State) : Host.Outcome State Fault Refusal :=
  match s.inputs with
  | [] => .next (microStep (s.consume []))
  | .quiet :: rest => .next (microStep (s.consume rest))
  | .rst :: rest => .next (takeRst (s.consume rest))
  | .tick :: rest => takeTick (s.consume rest)
  | .cmd w :: rest => runCommand w (s.consume rest)

/-- The instruction word presented at the command port for the very next step (log 3). -/
def State.withFetchWord (s : State) (nbits w : Nat) : State :=
  { s with inputs := .cmd (tableWord nbits w) :: s.inputs }

end Sys2Proof.Machine
end

