-- ==== Sys2Proof/Machine/Assembler.lean ====
section
/-! DEFINITION. The assembler syntax (spec 30_encoding R83), with the pseudo-commands of R85, one line at a time. -/

namespace Sys2Proof.Machine

/-- What a line of a program stands for. TICK is an event, WAITCOMMIT and SETGAMMA are the host's (R82, R85). -/
inductive AsmLine where
  | empty
  | command (i : Instr)
  | tick
  | waitCommit
  | setGamma (row : BitVec 3) (chan : BitVec 12) (idx : BitVec 8)
  deriving DecidableEq, Repr

/-- Blanks between the parts of a line. -/
def isBlank (c : Char) : Bool := c == ' ' || c == '\t'

/-- Leading and trailing blanks removed. -/
def trim (cs : List Char) : List Char :=
  ((cs.dropWhile isBlank).reverse.dropWhile isBlank).reverse

/-- The operands of a line, separated by commas. -/
def splitCommas : List Char → List (List Char)
  | [] => [[]]
  | c :: cs =>
    match splitCommas cs with
    | [] => [[c]]
    | part :: parts => if c == ',' then [] :: part :: parts else (c :: part) :: parts

/-- The value of a digit, hexadecimal digits in either case. -/
def digitValue (c : Char) : Option Nat :=
  let n := c.toNat
  if 48 ≤ n ∧ n ≤ 57 then some (n - 48)
  else if 65 ≤ n ∧ n ≤ 70 then some (n - 55)
  else if 97 ≤ n ∧ n ≤ 102 then some (n - 87)
  else none

/-- Digits of a base, most significant first, onto `acc`. -/
def digits (base : Nat) : List Char → Nat → Option Nat
  | [], acc => some acc
  | c :: cs, acc =>
    match digitValue c with
    | some d => if d < base then digits base cs (base * acc + d) else none
    | none => none

/-- A decimal or `0x` hexadecimal number (R83). -/
def number (cs : List Char) : Option Nat :=
  match cs with
  | '0' :: 'x' :: c :: rest => digits 16 (c :: rest) 0
  | c :: rest => digits 10 (c :: rest) 0
  | [] => none

/-- A number that fits a field of `w` bits (R78). -/
def field (w : Nat) (cs : List Char) : Option (BitVec w) :=
  match number (trim cs) with
  | some n => if n < 2 ^ w then some (BitVec.ofNat w n) else none
  | none => none

/-- The operands of SETGS: `row, chan, val`; the row may be left out when not `mux` (R83). -/
def asmSetgs (mux : Bool) (ops : List (List Char)) : Option AsmLine :=
  match ops with
  | [r, c, v] => do return .command (.setgs (← field 3 r) (← field 12 c) (← field 12 v))
  | [c, v] => if mux then none else do return .command (.setgs 0 (← field 12 c) (← field 12 v))
  | _ => none

/-- The operands of GETGS: `row, chan`; the row may be left out when not `mux` (R83). -/
def asmGetgs (mux : Bool) (ops : List (List Char)) : Option AsmLine :=
  match ops with
  | [r, c] => do return .command (.getgs (← field 3 r) (← field 12 c))
  | [c] => if mux then none else do return .command (.getgs 0 (← field 12 c))
  | _ => none

/-- The operands of SETGAMMA: `row, chan, idx` (R85). -/
def asmSetGamma (ops : List (List Char)) : Option AsmLine :=
  match ops with
  | [r, c, x] => do return .setGamma (← field 3 r) (← field 12 c) (← field 8 x)
  | _ => none

/-- A line with one operand of `w` bits. -/
def asmOne (w : Nat) (build : BitVec w → Instr) (ops : List (List Char)) : Option AsmLine :=
  match ops with
  | [v] => do return .command (build (← field w v))
  | _ => none

/-- A line with no operand. -/
def asmNone (l : AsmLine) (ops : List (List Char)) : Option AsmLine := if ops.isEmpty then some l else none

/-- SETDC: `chan, val` (R83). -/
def asmSetdc (ops : List (List Char)) : Option AsmLine :=
  match ops with
  | [c, v] => do return .command (.setdc (← field 12 c) (← field 12 v))
  | _ => none

/-- One line: the mnemonic in upper case, its operands separated by commas, a comment after `;` (R83). `none` for a
line that is no command of the syntax. -/
def assemble (mux : Bool) (line : List Char) : Option AsmLine :=
  let code := trim (line.takeWhile (· != ';'))
  let word := code.takeWhile (fun c => !isBlank c)
  let rest := trim (code.dropWhile (fun c => !isBlank c))
  let ops := if rest.isEmpty then [] else splitCommas rest
  match word with
  | [] => some .empty
  | ['I', 'N', 'I', 'T'] => asmNone (.command .init) ops
  | ['S', 'E', 'T', 'G', 'S'] => asmSetgs mux ops
  | ['S', 'E', 'T', 'A', 'L', 'L', 'G', 'S'] => asmOne 12 .setallgs ops
  | ['G', 'E', 'T', 'G', 'S'] => asmGetgs mux ops
  | ['S', 'E', 'T', 'D', 'C'] => asmSetdc ops
  | ['S', 'E', 'T', 'A', 'L', 'L', 'D', 'C'] => asmOne 12 .setalldc ops
  | ['G', 'E', 'T', 'D', 'C'] => asmOne 12 .getdc ops
  | ['C', 'O', 'M', 'M', 'I', 'T'] => asmNone (.command .commit) ops
  | ['P', 'E', 'N', 'D', 'I', 'N', 'G'] => asmNone (.command .pending) ops
  | ['G', 'A', 'M', 'M', 'A'] => asmOne 8 .gamma ops
  | ['C', 'L', 'O', 'C', 'K', 'I', 'N', 'D', 'C'] => asmNone (.command .clockindc) ops
  | ['T', 'I', 'C', 'K'] => asmNone .tick ops
  | ['W', 'A', 'I', 'T', 'C', 'O', 'M', 'M', 'I', 'T'] => asmNone .waitCommit ops
  | ['S', 'E', 'T', 'G', 'A', 'M', 'M', 'A'] => asmSetGamma ops
  | ['C', 'L', 'E', 'A', 'R', 'G', 'S'] => asmNone (.command (.setallgs 0)) ops
  | _ => none

end Sys2Proof.Machine
end

