-- ==== Sys2Proof/Machine/Pseudo.lean ====
section
/-! DEFINITION. The pseudo-commands (spec 30_encoding R85): what a host does with several commands. The loop and the
data movement are the host's, not the block's. -/

namespace Sys2Proof.Machine

/-- CLEARGS is `SETALLGS 0` (30_encoding R85). -/
def clearGs (s : State) : Host.Outcome State Fault Refusal := exec (.setallgs 0) s

/-- SETGAMMA `row, chan, idx` is `GAMMA idx` followed by `SETGS row, chan, resp[11:0]` (30_encoding R85). -/
def setGamma (row : BitVec 3) (chan : BitVec 12) (idx : BitVec 8) (s : State) : Host.Outcome State Fault Refusal :=
  match exec (.gamma idx) s with
  | .next t => exec (.setgs row chan (t.resp.extractLsb' 0 12)) t
  | .fault f => .fault f
  | .refused x => .refused x

/-- An event lands now, before those the state still lists. -/
def State.present (e : Input) (s : State) : Host.Outcome State Fault Refusal := step { s with inputs := e :: s.inputs }

/-- Events land one after the other; the run ends at the first fault or refusal. -/
def State.presentAll : List Input → State → Host.Outcome State Fault Refusal
  | [], s => .next s
  | e :: es, s =>
    match s.present e with
    | .next t => State.presentAll es t
    | .fault f => .fault f
    | .refused x => .refused x

/-- How far WAITCOMMIT got. -/
inductive Waited where
  /-- a poll answered 0: the loop has ended -/
  | returned (s : State)
  /-- every poll so far answered 1: the loop goes on -/
  | polling (s : State)
  /-- the block stopped meanwhile -/
  | fault (f : Fault)
  | refused (x : Refusal)
  deriving DecidableEq, Repr

/-- WAITCOMMIT, `loop: PENDING; if resp != 0 goto loop` (30_encoding R85), followed through the time that `gaps` spans:
each gap is what happens between two polls, ticks and micro-steps, as many as may be. A poll may fall in any phase. The
loop has no timeout (41_handoff R127): when the gaps are used up and the last poll answered 1, it is still polling
(70_reset_and_hazards R217, log 17). -/
def waitCommit : (gaps : List (List Input)) → State → Waited
  | [], s =>
    match s.present (.cmd (encode .pending)) with
    | .next t => if t.resp = 0 then .returned t else .polling t
    | .fault f => .fault f
    | .refused x => .refused x
  | gap :: gaps, s =>
    match s.present (.cmd (encode .pending)) with
    | .next t =>
      if t.resp = 0 then .returned t
      else
        match t.presentAll gap with
        | .next u => waitCommit gaps u
        | .fault f => .fault f
        | .refused x => .refused x
    | .fault f => .fault f
    | .refused x => .refused x

end Sys2Proof.Machine
end

