-- ==== Sys2Proof/Machine/Observe.lean ====
section
/-! DEFINITION. Reading a wire trace (spec 43_transport R170): one left-to-right pass that keeps the value of every
pin, starting from the reset values of 10_state R39. -/

namespace Sys2Proof.Machine

/-- `b[7], .., b[0]` (43_transport R165). -/
def byteBits (b : Byte) : List Bool :=
  [byteBit b 7, byteBit b 6, byteBit b 5, byteBit b 4, byteBit b 3, byteBit b 2, byteBit b 1, byteBit b 0]

/-- The byte whose bits are these, the first the most significant. -/
def byteOfBits (b7 b6 b5 b4 b3 b2 b1 b0 : Bool) : Byte :=
  BitVec.ofBool b7 ++ BitVec.ofBool b6 ++ BitVec.ofBool b5 ++ BitVec.ofBool b4 ++
    BitVec.ofBool b3 ++ BitVec.ofBool b2 ++ BitVec.ofBool b1 ++ BitVec.ofBool b0

/-- Bits grouped by eight, most significant first; an incomplete last group is no byte (43_transport R170). -/
def groupBytes : List Bool → List Byte
  | b7 :: b6 :: b5 :: b4 :: b3 :: b2 :: b1 :: b0 :: rest => byteOfBits b7 b6 b5 b4 b3 b2 b1 b0 :: groupBytes rest
  | _ => []

/-- The bits one event clocks: `data_out` at a rising edge of `clk_out`, the eight bits of a `Byte` (43_transport
R170). -/
def eventBits (ps : Pins) (e : WireEvent) : List Bool :=
  match e with
  | .pin .clkOut true => if ps.clkOut then [] else [ps.dataOut]
  | .byte b => byteBits b
  | _ => []

/-- The bits clocked by events that find the pins at `ps`. -/
def bitsFrom (ps : Pins) : List WireEvent → List Bool
  | [] => []
  | e :: es => eventBits ps e ++ bitsFrom (ps.after e) es

/-- `bits(w)` (43_transport R170). -/
def bits (w : List WireEvent) : List Bool := bitsFrom Pins.reset w

/-- `bytes(w)` (43_transport R170). -/
def bytes (w : List WireEvent) : List Byte := groupBytes (bits w)

/-- A rising edge of `latch` (43_transport R170): the bits clocked before it, and the pins at that moment. -/
structure LatchEdge where
  bitsBefore : Nat
  blank : Bool
  progSel : Bool
  rowSel : BitVec 8
  deriving DecidableEq, Repr

/-- A `Pin(latch, 1)` event that finds `latch = 0`. -/
def isLatchEdge (ps : Pins) (e : WireEvent) : Bool :=
  match e with
  | .pin .latch true => !ps.latch
  | _ => false

/-- The latch edges of events that find the pins at `ps`, `n` bits having been clocked before. -/
def latchesFrom (ps : Pins) (n : Nat) : List WireEvent → List LatchEdge
  | [] => []
  | e :: es =>
    (if isLatchEdge ps e then [⟨n, ps.blank, ps.progSel, ps.rowSel⟩] else []) ++
      latchesFrom (ps.after e) (n + (eventBits ps e).length) es

/-- `latches(w)` (43_transport R170). -/
def latches (w : List WireEvent) : List LatchEdge := latchesFrom Pins.reset 0 w

/-- The byte sequences clocked up to each latch edge, `pendingBits` having been clocked since the last one. -/
def framesFrom (ps : Pins) (pendingBits : List Bool) : List WireEvent → List (List Byte)
  | [] => []
  | e :: es =>
    if isLatchEdge ps e then groupBytes pendingBits :: framesFrom (ps.after e) [] es
    else framesFrom (ps.after e) (pendingBits ++ eventBits ps e) es

/-- `frames(w)` (43_transport R170): what has been clocked since the last latch edge awaits the next one. -/
def frames (w : List WireEvent) : List (List Byte) := framesFrom Pins.reset [] w

/-- An interval with the outputs enabled (43_transport R170): the trace positions of the `Pin(blank, 0)` and of the
next `Pin(blank, 1)`, and `row_sel` in it (log 16). -/
structure Unblanked where
  opened : Nat
  closed : Nat
  rowSel : BitVec 8
  deriving DecidableEq, Repr

/-- The unblanked intervals of events at trace position `n` and on, `open?` being the interval begun and not ended. -/
def unblankedFrom (ps : Pins) (n : Nat) (begun : Option (Nat × BitVec 8)) : List WireEvent → List Unblanked
  | [] => []
  | .pin .blank false :: es =>
    unblankedFrom (ps.set .blank false) (n + 1) (begun.or (some (n, ps.rowSel))) es
  | .pin .blank true :: es =>
    (match begun with
      | some (k, rows) => [⟨k, n, rows⟩]
      | none => []) ++ unblankedFrom (ps.set .blank true) (n + 1) none es
  | e :: es => unblankedFrom (ps.after e) (n + 1) begun es

/-- `unblanked(w)` (43_transport R170). -/
def unblanked (w : List WireEvent) : List Unblanked := unblankedFrom Pins.reset 0 none w

/-- The value of `latch` when an event is a rising edge of `clk_out` (43_transport R170, the second fact). -/
def clockEdge (ps : Pins) (e : WireEvent) : List Bool :=
  match e with
  | .pin .clkOut true => if ps.clkOut then [] else [ps.latch]
  | _ => []

/-- The value of `latch` at each rising edge of `clk_out`, of events that find the pins at `ps`. -/
def clockEdgesFrom (ps : Pins) : List WireEvent → List Bool
  | [] => []
  | e :: es => clockEdge ps e ++ clockEdgesFrom (ps.after e) es

/-- The value of `latch` at each rising edge of `clk_out` of a trace. -/
def clockEdges (w : List WireEvent) : List Bool := clockEdgesFrom Pins.reset w

end Sys2Proof.Machine
end

