-- ==== Sys2Proof/Machine/Receiver.lean ====
section
/-! DEFINITION. The reference receiver (spec 20_memory R64): the chain of chips as one shift register and its output
registers, driven by a wire trace. It is not part of the block and no rule of the block reads it; it gives a trace a
meaning, for `B = 12`. Its contents at power-on are unknown (10_state R32): an argument of every statement (log 19). -/

namespace Sys2Proof.Machine

/-- The chain's registers as the numbers their bits make (20_memory R64): the one shift register `CSR`, which takes
grayscale and dot-correction bits alike (43_transport R172, 70_reset_and_hazards R218); the output register `COUT`, 12
bits a channel; the separate dot-correction register, 6 bits a channel. -/
structure Receiver where
  csr : Nat
  cout : Nat
  dcOut : Nat
  deriving DecidableEq, Repr

/-- A shift register of `width` bits takes one bit at its low end (20_memory R64). -/
def shiftIn (width reg : Nat) (bit : Bool) : Nat := (2 * reg + bit.toNat) % 2 ^ width

/-- One bit clocked into the shift register (20_memory R64): with `prog_sel = 0` it is 12 bits a channel long; with
`prog_sel = 1` 6, and what then stands above those bits is a free value (log 27). -/
def shiftBit (channels : Nat) (progSel : Bool) (csr : Nat) (bit : Bool) : Nat :=
  if progSel then
    (2 ^ (6 * channels) * Config.freeShiftHigh channels csr bit + shiftIn (6 * channels) csr bit) % 2 ^ (12 * channels)
  else shiftIn (12 * channels) csr bit

/-- Several bits, the first first. -/
def shiftBits (channels : Nat) (progSel : Bool) (csr : Nat) (bs : List Bool) : Nat :=
  bs.foldl (shiftBit channels progSel) csr

/-- The latch (20_memory R64): with `prog_sel = 0` the output register takes the shift register, with `prog_sel = 1` the
dot-correction register takes its 6 bits a channel (43_transport R172). -/
def Receiver.load (channels : Nat) (progSel : Bool) (r : Receiver) : Receiver :=
  if progSel then { r with dcOut := r.csr % 2 ^ (6 * channels) } else { r with cout := r.csr }

/-- What an event does to the chain: a rising edge of `latch` loads an output register, the bits it clocks enter the
shift register (20_memory R64); no event does both. In a block without a `prog_sel` pin the level of the chips'
program-select input is open, and it is taken as 0, grayscale: DESIGN CHOICE (log 28). -/
def Receiver.after (c : Config) (ps : Pins) (r : Receiver) (e : WireEvent) : Receiver :=
  let r := if isLatchEdge ps e then r.load c.numChannels ps.progSel else r
  { r with csr := shiftBits c.numChannels ps.progSel r.csr (eventBits ps e) }

/-- The chain after the events `es`, which find the pins at `ps`. -/
def Receiver.receive (c : Config) : Pins → Receiver → List WireEvent → Receiver
  | _, r, [] => r
  | ps, r, e :: es => Receiver.receive c (ps.after e) (r.after c ps e) es

/-- The duty output `n` of the chain is set to: `COUT[12n+11 : 12n]` (20_memory R64). -/
def Receiver.duty (r : Receiver) (n : Nat) : Nat := r.cout / 2 ^ (12 * n) % 2 ^ 12

/-- The dot-correction setting of output `n`. -/
def Receiver.dotCorrection (r : Receiver) (n : Nat) : Nat := r.dcOut / 2 ^ (6 * n) % 2 ^ 6

/-- What output `n` shows: nothing while `blank = 1` (20_memory R64). -/
def Receiver.shows (r : Receiver) (ps : Pins) (n : Nat) : Option Nat := if ps.blank then none else some (r.duty n)

end Sys2Proof.Machine
end

