-- ==== Sys2Proof/Machine/Operation.lean ====
section
/-! DEFINITION. The block at the operation level (spec 00_scope R14): host commands and whole ticks, each one atomic
transition, in any interleaving. `step` is the micro-step level; that the two agree is stated (42_refresh_engine
R157). -/

namespace Sys2Proof.Machine

/-- An atomic transition of the operation level (00_scope R14). -/
inductive Operation where
  | rst
  | tick
  | cmd (word : Word)
  deriving DecidableEq, Repr

/-- One operation. A tick starts only in IDLE (42_refresh_engine R135). -/
def operationStep (o : Operation) (s : State) : Host.Outcome State Fault Refusal :=
  let s := s.consume s.inputs
  match o with
  | .rst => .next (takeRst s)
  | .tick => if s.busy then .fault .tickWhileBusy else .next (tickOperation s)
  | .cmd w => runCommand w s

/-- A run of the operation level: it ends at the first fault or refusal (60_exceptions R192). -/
def runOperations : List Operation → State → Host.Outcome State Fault Refusal
  | [], s => .next s
  | o :: os, s =>
    match operationStep o s with
    | .next t => runOperations os t
    | .fault f => .fault f
    | .refused x => .refused x

/-- The micro-step level's events for one operation: the event, then enough quiet steps for a tick to end (42_refresh_engine R156). -/
def Operation.events (s : State) (o : Operation) : List Input :=
  match o with
  | .rst => [.rst]
  | .tick => .tick :: List.replicate (tickLength s) .quiet
  | .cmd w => [.cmd w]

end Sys2Proof.Machine
end

