-- ==== Sys2Proof/WellFormed.lean ====
section
/-! DEFINITION. When a command is one the constructed block has (spec 00_scope R10, 30_encoding R84) and its
operands are in range (40_codec R90). Every constructor of `Instr` is encodable: its operands have the field
widths of 30_encoding R78, so an encodable but out-of-range operand is a matter of these checks, not of the decoder
(30_encoding R79). -/

namespace Sys2Proof

/-- A command the constructed block has a meaning for: available, its operands in range. -/
def Instr.wellFormed (c : Config) (i : Instr) : Bool := i.available c && i.inRange c

end Sys2Proof
end

