-- ==== Sys2Proof/Safety.lean ====
section
/-! DEFINITION. What a safe run is: which events the premises on host and platform allow (spec 41_handoff R125,
70_reset_and_hazards R215 to R221), and the invariants of the block that hold between its micro-steps. -/

namespace Sys2Proof.Machine

/-- SETGS and SETALLGS, the commands that write the back page (40_codec R105). -/
def writesBackPage : Instr → Bool
  | .setgs _ _ _ => true
  | .setallgs _ => true
  | .init => false
  | .getgs _ _ => false
  | .setdc _ _ => false
  | .setalldc _ => false
  | .getdc _ => false
  | .commit => false
  | .pending => false
  | .gamma _ => false
  | .clockindc => false

/-- INIT and CLOCKINDC, the commands that must not meet a tick (70_reset_and_hazards R218). -/
def needsIdle : Instr → Bool
  | .init => true
  | .clockindc => true
  | .setgs _ _ _ => false
  | .setallgs _ => false
  | .getgs _ _ => false
  | .setdc _ _ => false
  | .setalldc _ => false
  | .getdc _ => false
  | .commit => false
  | .pending => false
  | .gamma _ => false

/-- The host may issue the command now: it exists, its operands are in range (R221), it does not write the back page
while a commit is pending (R215), and it does not meet a tick (R218). -/
def mayIssue (s : State) (i : Instr) : Bool :=
  i.wellFormed s.cfg && !(writesBackPage i && s.updateReq) && !(needsIdle i && s.busy)

/-- The event may happen now: a command word of a command the host may issue, a tick only in IDLE (R216). -/
def mayHappen (s : State) (e : Input) : Bool :=
  match e with
  | .rst => true
  | .quiet => true
  | .tick => !s.busy
  | .cmd w =>
    match decode w with
    | .ok i => mayIssue s i
    | .error _ => false

/-- The next event is one that may happen (no event: the engine goes on). -/
def State.nextMayHappen (s : State) : Bool := s.inputs.head?.all (mayHappen s)

/-- A run without fault or refusal from `s`, of `n` steps, ends at `t`. -/
def RunsTo (n : Nat) (s t : State) : Prop := Sys2Proof.core.run n s = .next t

/-- The registers that the configuration has stay in their ranges, the others at their reset values (10_state R24,
R25). -/
abbrev State.RegistersLegal (s : State) : Prop :=
  s.rowCursor < s.cfg.nRows ∧ (s.cfg.mux = true → s.latchPending = false)

/-- The sequencer's position (10_state R26, 42_refresh_engine R149 to R155): idle values in IDLE, `byte_idx` in
range, the row phases only when `mux`, the latch phases without `mux` only while a latch pulse is owed, the bit
phases only when bit-banged. -/
abbrev State.SequencerLegal (s : State) : Prop :=
  (s.phase = .idle → s.byteIdx = 0 ∧ s.bitCnt = 7) ∧
  s.byteIdx < s.cfg.gsLen ∧
  (s.phase = .rowOff ∨ s.phase = .rowOn → s.cfg.mux = true) ∧
  (s.phase = .latchHi ∨ s.phase = .latchLo → s.cfg.mux = false → s.latchPending = true) ∧
  (s.phase = .bitSetup ∨ s.phase = .clkHi ∨ s.phase = .clkLo → s.cfg.bitBanged = true)

/-- The phases inside the blanked interval, between BLANK_ON and BLANK_OFF (42_refresh_engine R139). -/
def Phase.blanked : Phase → Bool
  | .rowOff => true
  | .latchHi => true
  | .latchLo => true
  | .rowOn => true
  | .hold => true
  | .blankOff => true
  | .idle => false
  | .blankOn => false
  | .advance => false
  | .load => false
  | .bitSetup => false
  | .clkHi => false
  | .clkLo => false
  | .done => false

/-- The pins between micro-steps: `latch` is high only between LATCH_HI and LATCH_LO, `clk_out` only between CLK_HI
and CLK_LO, `prog_sel` never (it is high only inside CLOCKINDC), `blank` is high in the blanked phases, and a pin
the configuration leaves out, or a bit of `row_sel` above its `R`, is 0 (10_state R30, 43_transport R169). -/
abbrev State.PinsLegal (s : State) : Prop :=
  s.pins.latch = (s.phase == .latchLo) ∧
  s.pins.clkOut = (s.phase == .clkLo) ∧
  s.pins.progSel = false ∧
  (s.phase.blanked = true → s.pins.blank = true) ∧
  (s.cfg.bitBanged = false → s.pins.dataOut = false) ∧
  s.pins.rowSel.toNat < 2 ^ s.cfg.multiplexRows

/-- The block's invariant between micro-steps, for a valid configuration. -/
abbrev State.Inv (s : State) : Prop :=
  s.cfg.Valid ∧ s.RegistersLegal ∧ s.SequencerLegal ∧ s.PinsLegal

/-- Both byte spaces keep their canonical form (log 6). -/
abbrev State.MemoryCanonical (s : State) : Prop := Memory.wf s.gs ∧ Memory.wf s.dc

/-- The pins are what the wire trace says, replayed from the reset values (43_transport R170). -/
abbrev State.PinsFollowWire (s : State) : Prop := Pins.replay Pins.reset s.wire = s.pins

/-- The two facts of 43_transport R170: a latch edge with `prog_sel = 0` finds `blank = 1`, and `clk_out` rises only
while `latch = 0`. -/
abbrev State.WireLawful (s : State) : Prop :=
  (∀ edge ∈ latches s.wire, edge.progSel = false → edge.blank = true) ∧ (∀ latch ∈ clockEdges s.wire, latch = false)

/-- The previous row of step `row_cursor`, `(row_cursor - 1) mod R` (42_refresh_engine R141). -/
def State.previousRow (s : State) : Nat := (s.rowCursor + s.cfg.multiplexRows - 1) % s.cfg.multiplexRows

/-- `row_sel` follows the cursor when `mux` (42_refresh_engine R141): before the first tick after reset or INIT no row
is asserted; in the row switch no row; after it exactly the row of the tick's step; after the advance, exactly the
previous row of the cursor. -/
abbrev State.RowSelFollowsCursor (s : State) : Prop :=
  s.cfg.mux = true →
    match s.phase with
    | .idle | .blankOn | .rowOff => s.pins.rowSel = 0 ∨ s.pins.rowSel = 1#8 <<< s.previousRow
    | .latchHi | .latchLo | .rowOn => s.pins.rowSel = 0
    | .hold | .blankOff | .advance => s.pins.rowSel = 1#8 <<< s.rowCursor
    | .load | .bitSetup | .clkHi | .clkLo | .done => s.pins.rowSel = 1#8 <<< s.previousRow

end Sys2Proof.Machine
end

