-- ==== Sys2Proof/Certificates/Slice0/Obligations.lean ====
section
/-! DEFINITION. The statements for the provers. Each docstring names the rule of spec/ it formalises. Every
configuration is a variable of every statement; `Valid` is 60_exceptions R193. -/

open Sys2Proof Sys2Proof.Machine

/-! ### Encoding -/

/-- 30_encoding R78 to R80: no bit of an encoding is dropped, for any command and any operands. -/
def Obligations.DecodeOfEncode : Prop := ∀ i : Instr, decode (encode i) = .ok i

/-- 30_encoding R79, R84: a word that decodes is the encoding of its command, so a field the command does not use is
zero, and the word a fault records (60_exceptions R191) is the one presented. -/
def Obligations.EncodeOfDecode : Prop := ∀ (w : Word) (i : Instr), decode w = .ok i → encode i = w

/-- 30_encoding R80: a word selects a row of the opcode map exactly when it decodes to a command of that row. -/
def Obligations.DecodeFollowsOpcodeMap : Prop :=
  ∀ (w : Word), ∀ row ∈ opcodeMap,
    (w &&& row.mask = row.matchWord ↔ ∃ i, decode w = .ok i ∧ i.mnemonic = row.mnemonic)

/-- 30_encoding R84: a word no row matches is refused as reserved; a word of a command the configuration removes is
refused as unavailable, whatever its operands (that this comes before the operand check of 60_exceptions R191 is
DEDUCED: log 11). Neither is a no-op. -/
def Obligations.ReservedAndUnavailableRefused : Prop :=
  ∀ (s : State) (w : Word) (rest : List Input), s.inputs = .cmd w :: rest →
    ((∀ row ∈ opcodeMap, w &&& row.mask ≠ row.matchWord) → ∃ why, step s = .refused (.reservedWord w why)) ∧
    (∀ i, decode w = .ok i →
      (s.cfg.includeDotCorrection = false ∧ i.mnemonic ∈ ["SETDC", "SETALLDC", "GETDC", "CLOCKINDC"] ∨
        s.cfg.hardwireProgramPins = true ∧ i.mnemonic = "CLOCKINDC" ∨
        s.cfg.includeGammaCorrection = false ∧ i.mnemonic = "GAMMA") →
      step s = .refused (.unavailable w))

/-- 95_test_vectors 2.4: words written out from the encoding decode to the commands they stand for (a sanity
statement). -/
def Obligations.SpecWordsDecode : Prop :=
  decode 0x10000000 = .ok .init ∧ decode 0x24005123 = .ok (.setgs 2 5 0x123) ∧
  decode 0x30000ABC = .ok (.setallgs 0xABC) ∧ decode 0x40005000 = .ok (.getgs 0 5) ∧
  decode 0x5000F001 = .ok (.setdc 15 1) ∧ decode 0x6000003F = .ok (.setalldc 63) ∧
  decode 0x7000F000 = .ok (.getdc 15) ∧ decode 0x80000000 = .ok .commit ∧
  decode 0x90000000 = .ok .pending ∧ decode 0xA0000080 = .ok (.gamma 128) ∧
  decode 0xB0000000 = .ok .clockindc ∧ decode 0x2FFFFFFF = .error .zBit

/-- 10_state R31: when the next event is the word of a command, the step performs the command on the state with the
event consumed, and raises `cmd_done` when it completes (the list of events and the length of `cmd_done` are the
model's: logs 2 and 14). -/
def Obligations.StepRunsDecodedCommand : Prop :=
  ∀ (s : State) (w : Word) (rest : List Input) (i : Instr), s.inputs = .cmd w :: rest → decode w = .ok i →
    step s =
      match exec i { s with inputs := rest, cmdDone := false } with
      | .next t => .next { t with cmdDone := true }
      | .fault f => .fault f
      | .refused x => .refused x

/-! ### The packed formats -/

/-- 40_codec R101: encode then decode is the identity, for grayscale and dot correction. -/
def Obligations.CodecRoundTrip : Prop :=
  ∀ (cfg : Config) (draw : Nat → Byte) (m : Memory) (c v : Nat), c < cfg.numChannels →
    (∀ base, v ≤ cfg.maxGS → decodeGS cfg draw (encodeGS cfg draw m base c v) base c = v) ∧
    (v ≤ 63 → decodeDC cfg draw (encodeDC cfg draw m c v) c = v)

/-- 40_codec R102: encoding a channel changes no other channel, and no stream bit outside its field. -/
def Obligations.CodecNonInterference : Prop :=
  ∀ (cfg : Config) (draw : Nat → Byte) (m : Memory) (c v : Nat), c < cfg.numChannels →
    (∀ base c', c' < cfg.numChannels → c' ≠ c →
      decodeGS cfg draw (encodeGS cfg draw m base c v) base c' = decodeGS cfg draw m base c') ∧
    (∀ c', c' < cfg.numChannels → c' ≠ c →
      decodeDC cfg draw (encodeDC cfg draw m c v) c' = decodeDC cfg draw m c') ∧
    (∀ base k, ¬ (cfg.pwmBits * channelRev cfg c ≤ k ∧ k < cfg.pwmBits * channelRev cfg c + cfg.pwmBits) →
      streamBit draw (encodeGS cfg draw m base c v) base k = streamBit draw m base k) ∧
    (∀ k, ¬ (6 * channelRev cfg c ≤ k ∧ k < 6 * channelRev cfg c + 6) →
      streamBit draw (encodeDC cfg draw m c v) 0 k = streamBit draw m 0 k)

/-- 30_encoding R70: the byte rule at `B = 12`, both cases, and every other byte as it was. -/
def Obligations.GrayscaleByteRule : Prop :=
  ∀ (cfg : Config) (draw : Nat → Byte) (m : Memory) (base c v : Nat), cfg.pwmBits = 12 → c < cfg.numChannels →
    v < 4096 →
    let rev := cfg.numChannels - 1 - c
    let i := rev * 3 / 2
    let old := fun j => m.read draw (base + j)
    let new := fun j => (encodeGS cfg draw m base c v).read draw (base + j)
    cfg.gsLen = 24 * cfg.chipCount ∧
    (rev % 2 = 0 → new i = BitVec.ofNat 8 (v / 16) ∧
      new (i + 1) = (old (i + 1) &&& 0x0F) ||| (BitVec.ofNat 8 (v % 16) <<< 4)) ∧
    (rev % 2 = 1 → new i = (old i &&& 0xF0) ||| BitVec.ofNat 8 (v / 256) ∧
      new (i + 1) = BitVec.ofNat 8 (v % 256)) ∧
    (∀ a, a ≠ base + i → a ≠ base + (i + 1) →
      (encodeGS cfg draw m base c v).read draw a = m.read draw a)

/-- 40_codec R92: what decodeGS reads at `B = 12`, `buf[i][7:0]` and the top nibble of `buf[i+1]`, or the low nibble
of `buf[i]` and `buf[i+1]`. -/
def Obligations.GrayscaleDecodeRule : Prop :=
  ∀ (cfg : Config) (draw : Nat → Byte) (m : Memory) (base c : Nat), cfg.pwmBits = 12 → c < cfg.numChannels →
    let rev := cfg.numChannels - 1 - c
    let i := rev * 3 / 2
    let buf := fun j => (m.read draw (base + j)).toNat
    (rev % 2 = 0 → decodeGS cfg draw m base c = buf i * 16 + buf (i + 1) / 16) ∧
    (rev % 2 = 1 → decodeGS cfg draw m base c = buf i % 16 * 256 + buf (i + 1))

/-- 30_encoding R73: the byte rule of dot correction, its four cases, and every other byte as it was. -/
def Obligations.DotCorrectionByteRule : Prop :=
  ∀ (cfg : Config) (draw : Nat → Byte) (m : Memory) (c v : Nat), c < cfg.numChannels → v < 64 →
    let rev := cfg.numChannels - 1 - c
    let i := rev * 3 / 4
    let old := fun j => m.read draw j
    let new := fun j => (encodeDC cfg draw m c v).read draw j
    cfg.dcLen = 12 * cfg.chipCount ∧
    (rev % 4 = 0 → new i = (old i &&& 0x03) ||| (BitVec.ofNat 8 v <<< 2) ∧ ∀ j, j ≠ i → new j = old j) ∧
    (rev % 4 = 1 → new i = (old i &&& 0xFC) ||| BitVec.ofNat 8 (v / 16) ∧
      new (i + 1) = (old (i + 1) &&& 0x0F) ||| (BitVec.ofNat 8 (v % 16) <<< 4) ∧
      ∀ j, j ≠ i → j ≠ i + 1 → new j = old j) ∧
    (rev % 4 = 2 → new i = (old i &&& 0xF0) ||| BitVec.ofNat 8 (v / 4) ∧
      new (i + 1) = (old (i + 1) &&& 0x3F) ||| (BitVec.ofNat 8 (v % 4) <<< 6) ∧
      ∀ j, j ≠ i → j ≠ i + 1 → new j = old j) ∧
    (rev % 4 = 3 → new i = (old i &&& 0xC0) ||| BitVec.ofNat 8 v ∧ ∀ j, j ≠ i → new j = old j)

/-- 40_codec R97: what decodeDC reads, its four cases. -/
def Obligations.DotCorrectionDecodeRule : Prop :=
  ∀ (cfg : Config) (draw : Nat → Byte) (m : Memory) (c : Nat), c < cfg.numChannels →
    let rev := cfg.numChannels - 1 - c
    let i := rev * 3 / 4
    let buf := fun j => (m.read draw j).toNat
    (rev % 4 = 0 → decodeDC cfg draw m c = buf i / 4) ∧
    (rev % 4 = 1 → decodeDC cfg draw m c = buf i % 4 * 16 + buf (i + 1) / 16) ∧
    (rev % 4 = 2 → decodeDC cfg draw m c = buf i % 16 * 4 + buf (i + 1) / 64) ∧
    (rev % 4 = 3 → decodeDC cfg draw m c = buf i % 64)

/-- 40_codec R103: after setting every channel of a buffer to `v`, every channel decodes to `v`; the buffer does not
depend on what it held; and its bytes are the rule's repeating patterns. -/
def Obligations.BulkSetPattern : Prop :=
  ∀ (cfg : Config) (draw : Nat → Byte) (m : Memory) (base v : Nat), cfg.Valid →
    let gs := fillGS cfg draw base v cfg.numChannels m
    let dc := fillDC cfg draw v cfg.numChannels m
    (v ≤ cfg.maxGS →
      (∀ c < cfg.numChannels, decodeGS cfg draw gs base c = v) ∧
      (∀ m' : Memory, ∀ j < cfg.gsLen,
        (fillGS cfg draw base v cfg.numChannels m').read draw (base + j) = gs.read draw (base + j)) ∧
      (cfg.pwmBits = 12 → ∀ k < 8 * cfg.chipCount,
        gs.read draw (base + 3 * k) = BitVec.ofNat 8 (v / 16) ∧
        gs.read draw (base + (3 * k + 1)) = BitVec.ofNat 8 (v % 16 * 16 + v / 256) ∧
        gs.read draw (base + (3 * k + 2)) = BitVec.ofNat 8 (v % 256)) ∧
      (∀ j, j + cfg.pwmBits < cfg.gsLen →
        gs.read draw (base + (j + cfg.pwmBits)) = gs.read draw (base + j))) ∧
    (v ≤ 63 →
      (∀ c < cfg.numChannels, decodeDC cfg draw dc c = v) ∧
      (∀ m' : Memory, ∀ j < cfg.dcLen,
        (fillDC cfg draw v cfg.numChannels m').read draw j = dc.read draw j) ∧
      (∀ k < 4 * cfg.chipCount,
        dc.read draw (3 * k) = BitVec.ofNat 8 (v * 4 + v / 16) ∧
        dc.read draw (3 * k + 1) = BitVec.ofNat 8 (v % 16 * 16 + v / 4) ∧
        dc.read draw (3 * k + 2) = BitVec.ofNat 8 (v % 4 * 64 + v)))

/-- 20_memory R56, 30_encoding R71, 40_codec R106: channel `c`'s value is the `B` stream bits from
`B * (numChannels - 1 - c)`, the first the most significant; for dot correction the 6 from `6 * (numChannels - 1 - c)`. -/
def Obligations.ChannelIsItsStreamBits : Prop :=
  ∀ (s : State) (c : Nat), c < s.cfg.numChannels →
    (∀ p r, ∀ t < s.cfg.pwmBits,
      (s.gsValue p r c).testBit (s.cfg.pwmBits - 1 - t) =
        byteBit (s.gsByte p r ((s.cfg.pwmBits * (s.cfg.numChannels - 1 - c) + t) / 8))
          (7 - (s.cfg.pwmBits * (s.cfg.numChannels - 1 - c) + t) % 8)) ∧
    (∀ t < 6, (s.dcValue c).testBit (6 - 1 - t) =
      byteBit (s.dcByte ((6 * (s.cfg.numChannels - 1 - c) + t) / 8)) (7 - (6 * (s.cfg.numChannels - 1 - c) + t) % 8))

/-! ### The codec commands: where each completes, its result, its frame, where it faults -/

/-- 40_codec R93, SETGS. In range and with no commit pending it completes: the channel of the row of the back page
holds the value, every other channel of the row what it held, no byte outside the field's bytes changes, no other
state changes. Out of range it faults; else with a commit pending it faults. -/
def Obligations.SetgsSetsOneChannel : Prop :=
  ∀ (s : State) (row : BitVec 3) (chan val : BitVec 12),
    (chan.toNat < s.cfg.numChannels ∧ row.toNat < s.cfg.nRows ∧ val.toNat ≤ s.cfg.maxGS →
      (s.updateReq = false →
        ∃ t, exec (.setgs row chan val) s = .next t ∧
          t.gsValue (!s.front) row.toNat chan.toNat = val.toNat ∧
          (∀ c < s.cfg.numChannels, c ≠ chan.toNat →
            t.gsValue (!s.front) row.toNat c = s.gsValue (!s.front) row.toNat c) ∧
          (∀ key, (∀ k < s.cfg.pwmBits,
              key ≠ gsKey (!s.front) row.toNat ((fieldOffset s.cfg s.cfg.pwmBits chan.toNat + k) / 8)) →
            t.gs.read t.gsDraw key = s.gs.read s.gsDraw key) ∧
          t = { s with gs := t.gs }) ∧
      (s.updateReq = true →
        exec (.setgs row chan val) s = .fault (.backWriteWhilePending (encode (.setgs row chan val))))) ∧
    (¬ (chan.toNat < s.cfg.numChannels ∧ row.toNat < s.cfg.nRows ∧ val.toNat ≤ s.cfg.maxGS) →
      exec (.setgs row chan val) s = .fault (.operandOutOfRange (encode (.setgs row chan val))))

/-- 40_codec R94, SETALLGS. In range and with no commit pending it completes: every channel of every row of the back
page holds the value, no byte outside that page changes, no other state changes. Else it faults, the operand check
first. -/
def Obligations.SetallgsSetsBackPage : Prop :=
  ∀ (s : State) (val : BitVec 12), s.cfg.Valid →
    (val.toNat ≤ s.cfg.maxGS →
      (s.updateReq = false →
        ∃ t, exec (.setallgs val) s = .next t ∧
          (∀ r < s.cfg.nRows, ∀ c < s.cfg.numChannels, t.gsValue (!s.front) r c = val.toNat) ∧
          (∀ key, (∀ r < s.cfg.nRows, ∀ j < s.cfg.gsLen, key ≠ gsKey (!s.front) r j) →
            t.gs.read t.gsDraw key = s.gs.read s.gsDraw key) ∧
          t = { s with gs := t.gs }) ∧
      (s.updateReq = true →
        exec (.setallgs val) s = .fault (.backWriteWhilePending (encode (.setallgs val))))) ∧
    (¬ val.toNat ≤ s.cfg.maxGS →
      exec (.setallgs val) s = .fault (.operandOutOfRange (encode (.setallgs val))))

/-- 40_codec R95, GETGS. In range it completes, commit pending or not (R105): `resp` is the channel's value in the
back page, zero-extended; nothing else changes. Out of range it faults. -/
def Obligations.GetgsReadsBackPage : Prop :=
  ∀ (s : State) (row : BitVec 3) (chan : BitVec 12),
    (chan.toNat < s.cfg.numChannels ∧ row.toNat < s.cfg.nRows →
      ∃ t, exec (.getgs row chan) s = .next t ∧
        (s.cfg.Valid → t.resp.toNat = s.gsValue (!s.front) row.toNat chan.toNat) ∧ t = { s with resp := t.resp }) ∧
    (¬ (chan.toNat < s.cfg.numChannels ∧ row.toNat < s.cfg.nRows) →
      exec (.getgs row chan) s = .fault (.operandOutOfRange (encode (.getgs row chan))))

/-- 40_codec R98, SETDC, in a block with dot correction: the channel holds the value, every other what it held, no
byte outside the field's bytes changes, no other state changes; commit pending or not. Out of range it faults. -/
def Obligations.SetdcSetsOneChannel : Prop :=
  ∀ (s : State) (chan val : BitVec 12), s.cfg.includeDotCorrection = true →
    (chan.toNat < s.cfg.numChannels ∧ val.toNat ≤ 63 →
      ∃ t, exec (.setdc chan val) s = .next t ∧
        t.dcValue chan.toNat = val.toNat ∧
        (∀ c < s.cfg.numChannels, c ≠ chan.toNat → t.dcValue c = s.dcValue c) ∧
        (∀ key, (∀ k < 6, key ≠ (fieldOffset s.cfg 6 chan.toNat + k) / 8) →
          t.dc.read t.dcDraw key = s.dc.read s.dcDraw key) ∧
        t = { s with dc := t.dc }) ∧
    (¬ (chan.toNat < s.cfg.numChannels ∧ val.toNat ≤ 63) →
      exec (.setdc chan val) s = .fault (.operandOutOfRange (encode (.setdc chan val))))

/-- 40_codec R99, SETALLDC, in a block with dot correction: every channel holds the value, no byte outside the buffer
changes, no other state changes. Out of range it faults. -/
def Obligations.SetalldcSetsEveryChannel : Prop :=
  ∀ (s : State) (val : BitVec 12), s.cfg.includeDotCorrection = true →
    (val.toNat ≤ 63 →
      ∃ t, exec (.setalldc val) s = .next t ∧
        (∀ c < s.cfg.numChannels, t.dcValue c = val.toNat) ∧
        (∀ key, ¬ key < s.cfg.dcLen → t.dc.read t.dcDraw key = s.dc.read s.dcDraw key) ∧
        t = { s with dc := t.dc }) ∧
    (¬ val.toNat ≤ 63 →
      exec (.setalldc val) s = .fault (.operandOutOfRange (encode (.setalldc val))))

/-- 40_codec R100, GETDC, in a block with dot correction: `resp` is the channel's value, zero-extended; nothing else
changes. Out of range it faults. -/
def Obligations.GetdcReadsChannel : Prop :=
  ∀ (s : State) (chan : BitVec 12), s.cfg.includeDotCorrection = true →
    (chan.toNat < s.cfg.numChannels →
      ∃ t, exec (.getdc chan) s = .next t ∧
        t.resp.toNat = s.dcValue chan.toNat ∧ t = { s with resp := t.resp }) ∧
    (¬ chan.toNat < s.cfg.numChannels →
      exec (.getdc chan) s = .fault (.operandOutOfRange (encode (.getdc chan))))

/-! ### Handoff, gamma, dot-correction transmission -/

/-- 41_handoff R121, COMMIT: it completes in every state; `update_req` is 1 and nothing else changes; with the flag
already 1 nothing changes at all. -/
def Obligations.CommitSetsRequest : Prop :=
  ∀ s : State, ∃ t, exec .commit s = .next t ∧ t.updateReq = true ∧ t = { s with updateReq := t.updateReq } ∧
    (s.updateReq = true → t = s)

/-- 41_handoff R122, PENDING: it completes in every state; `resp` is 0x0001 or 0x0000 as `update_req` is 1 or 0;
nothing else changes. -/
def Obligations.PendingReportsRequest : Prop :=
  ∀ s : State, ∃ t, exec .pending s = .next t ∧
    (s.updateReq = true → t.resp = 0x0001) ∧ (s.updateReq = false → t.resp = 0x0000) ∧ t = { s with resp := t.resp }

/-- 41_handoff R120, INIT, with no tick in progress: it completes; the registers and pins it writes are at their reset
values, its events are one per pin the block has, in the rule's order; `GS`, `DC`, `resp` and every other field stay,
a pin or register the block does not have among them. -/
def Obligations.InitRestoresRegisters : Prop :=
  ∀ s : State, s.phase = .idle →
    ∃ t, exec .init s = .next t ∧
      t.front = false ∧ t.updateReq = false ∧
      (s.cfg.mux = true → t.rowCursor = 0 ∧ t.latchPending = s.latchPending ∧ t.pins.rowSel = 0) ∧
      (s.cfg.mux = false → t.latchPending = false ∧ t.rowCursor = s.rowCursor ∧ t.pins.rowSel = s.pins.rowSel) ∧
      t.phase = .idle ∧ t.byteIdx = 0 ∧ t.bitCnt = 7 ∧ t.sr = 0 ∧
      t.pins.blank = true ∧ t.pins.latch = false ∧
      t.pins.clkOut = (if s.cfg.transportKind = .bitbang then false else s.pins.clkOut) ∧
      t.pins.dataOut = (if s.cfg.transportKind = .bitbang then false else s.pins.dataOut) ∧
      t.pins.progSel =
        (if s.cfg.includeDotCorrection = true ∧ s.cfg.hardwireProgramPins = false then false else s.pins.progSel) ∧
      t.wire = s.wire ++ [.pin .blank true, .pin .latch false] ++
        (if s.cfg.transportKind = .bitbang then [.pin .clkOut false, .pin .dataOut false] else []) ++
        (if s.cfg.includeDotCorrection = true ∧ s.cfg.hardwireProgramPins = false then [.pin .progSel false] else []) ++
        (if s.cfg.mux = true then [.rowSel 0] else []) ∧
      t = { s with
        front := t.front, updateReq := t.updateReq, rowCursor := t.rowCursor, latchPending := t.latchPending,
        phase := t.phase, byteIdx := t.byteIdx, bitCnt := t.bitCnt, sr := t.sr, pins := t.pins, wire := t.wire }

/-- 44_gamma R183, GAMMA, in a block with gamma correction: it completes for every index and in every state; `resp` is
`round((idx/255)^2.5 * maxGS)` by the integer statement of R180; nothing else changes. -/
def Obligations.GammaLooksUp : Prop :=
  ∀ (s : State) (idx : BitVec 8), s.cfg.Valid → s.cfg.includeGammaCorrection = true →
    ∃ t, exec (.gamma idx) s = .next t ∧
      (idx.toNat = 0 → t.resp.toNat = 0) ∧
      (0 < idx.toNat → 0 < t.resp.toNat →
        (2 * t.resp.toNat - 1) ^ 2 * 255 ^ 5 < 4 * (2 ^ s.cfg.pwmBits - 1) ^ 2 * idx.toNat ^ 5) ∧
      (0 < idx.toNat → 4 * (2 ^ s.cfg.pwmBits - 1) ^ 2 * idx.toNat ^ 5 < (2 * t.resp.toNat + 1) ^ 2 * 255 ^ 5) ∧
      t = { s with resp := t.resp }

/-- 44_gamma R181 and the checksums and first non-zero indices of R184: each table has 256 entries, starts at 0, ends
at `maxGS`, never decreases, and sums as printed. -/
def Obligations.GammaTableProperties : Prop :=
  (∀ B, 8 ≤ B → B ≤ 12 →
    (gammaTable B).length = 256 ∧ (gammaTable B).getD 0 1 = 0 ∧ (gammaTable B).getD 255 0 = 2 ^ B - 1 ∧
    (gammaTable B).Pairwise (· ≤ ·)) ∧
  (gammaTable 12).sum = 300400 ∧ (gammaTable 11).sum = 150154 ∧ (gammaTable 10).sum = 75040 ∧
  (gammaTable 9).sum = 37481 ∧ (gammaTable 8).sum = 18701 ∧
  (∀ i < 7, (gammaTable 12).getD i 1 = 0) ∧ (gammaTable 12).dedup.length = 243 ∧
  (∀ i < 22, (gammaTable 8).getD i 1 = 0) ∧ (gammaTable 8).dedup.length = 173

/-- 43_transport R172, CLOCKINDC, in a block with dot correction and a program-select pin, with no tick in progress: it
completes; the wire shows `prog_sel` raised, the bytes of `DC` in index order, the latch pulse, `prog_sel` lowered;
beside the wire only the shifter's registers and the pins it drives change. -/
def Obligations.ClockindcSendsDotCorrection : Prop :=
  ∀ s : State, s.cfg.includeDotCorrection = true → s.cfg.hardwireProgramPins = false → s.phase = .idle →
    ∃ t, exec .clockindc s = .next t ∧
      t.wire = s.wire ++ [.pin .progSel true] ++ s.dcBytes.flatMap (transmitEvents s.cfg) ++
        [.pin .latch true, .pin .latch false, .pin .progSel false] ∧
      (s.cfg.bitBanged = true → t.wire.length = s.wire.length + (4 + 24 * s.cfg.dcLen)) ∧
      t.pins.progSel = false ∧ t.pins.latch = false ∧ t.pins.blank = s.pins.blank ∧ t.pins.rowSel = s.pins.rowSel ∧
      t = { s with sr := t.sr, bitCnt := t.bitCnt, pins := t.pins, wire := t.wire }

/-- 30_encoding R85, 44_gamma R185: a gamma entry is a valid grayscale operand, and SETGAMMA completes wherever SETGS
would and leaves the channel at the corrected value. -/
def Obligations.SetGammaSetsCorrectedValue : Prop :=
  ∀ (s : State) (row : BitVec 3) (chan : BitVec 12) (idx : BitVec 8), s.cfg.Valid →
    gammaEntry s.cfg idx.toNat ≤ s.cfg.maxGS ∧
    (s.cfg.includeGammaCorrection = true → chan.toNat < s.cfg.numChannels → row.toNat < s.cfg.nRows →
      s.updateReq = false →
      ∃ t, setGamma row chan idx s = .next t ∧
        t.gsValue (!s.front) row.toNat chan.toNat = gammaEntry s.cfg idx.toNat ∧
        t.resp.toNat = gammaEntry s.cfg idx.toNat ∧ t = { s with gs := t.gs, resp := t.resp })

/-! ### Faults, refusals and premises -/

/-- 60_exceptions R190, R191: a fault of a command is one of the two contract violations, each only from its commands
and only when its condition holds, with the command's word on record; or the broken premise of 70_reset_and_hazards
R218 (log 10). -/
def Obligations.FaultsAreContractViolations : Prop :=
  ∀ (i : Instr) (s : State) (f : Fault), exec i s = .fault f →
    (f = .operandOutOfRange (encode i) ∧ i.inRange s.cfg = false ∧
        i.mnemonic ∈ ["SETGS", "SETALLGS", "GETGS", "SETDC", "SETALLDC", "GETDC"]) ∨
      (f = .backWriteWhilePending (encode i) ∧ i.inRange s.cfg = true ∧ s.updateReq = true ∧
        i.mnemonic ∈ ["SETGS", "SETALLGS"]) ∨
      (f = .initWhileBusy ∧ i = .init ∧ s.phase ≠ .idle) ∨
      (f = .clockInDcWhileBusy ∧ i = .clockindc ∧ s.phase ≠ .idle)

/-- 70_reset_and_hazards R216, R218 (the model's choice of a named stop for a broken premise: log 10): a tick event,
INIT or CLOCKINDC while a tick is in progress stops. -/
def Obligations.BrokenPremisesStop : Prop :=
  ∀ s : State, s.phase ≠ .idle →
    exec .init s = .fault .initWhileBusy ∧
    (s.cfg.includeDotCorrection = true → s.cfg.hardwireProgramPins = false →
      exec .clockindc s = .fault .clockInDcWhileBusy) ∧
    (∀ rest, s.inputs = .tick :: rest → step s = .fault .tickWhileBusy)

/-- 41_handoff R125, 70_reset_and_hazards R215 to R221: a step goes on exactly when the next event keeps the host's
and the platform's obligations; so a run in which they are kept never stops (that a broken premise stops is the
model's choice: log 10). -/
def Obligations.StepGoesOnExactlyWhenEventMayHappen : Prop :=
  ∀ s : State, (∃ t, step s = .next t) ↔ s.nextMayHappen = true

/-! ### The engine -/

/-- 42_refresh_engine R156, R157: from IDLE, a tick event and then exactly the micro-steps R156 counts are the whole
tick of the operation level (R137, R138), and end in IDLE; no smaller count, from 1 on, has left the tick, so the count
is that of R156 (the tick event is a step of its own: log 4; the micro-steps of the peripheral transports are the
model's: log 12; that `cmd_done` is low afterwards is its choice: log 14). -/
def Obligations.MicroStepsRefineTick : Prop :=
  ∀ s : State, s.cfg.Valid → s.SequencerLegal → s.phase = .idle → s.inputs = [] →
    RunsTo (1 + tickLength s) { s with inputs := [.tick] } (tickOperation { s with cmdDone := false }) ∧
    (tickOperation s).phase = .idle ∧
    ∀ k, 1 ≤ k → k ≤ tickLength s → ∃ u, RunsTo k { s with inputs := [.tick] } u ∧ u.phase ≠ .idle

/-- 42_refresh_engine R137: one whole tick when not `mux`. The pins end as the events appended leave them: `blank` low,
`row_sel` and `prog_sel` as they were, `latch` low if it was pulsed and else as it was. -/
def Obligations.PlainTickEffect : Prop :=
  ∀ s : State, s.cfg.mux = false →
    let t := tickOperation s
    let events : List WireEvent := [.pin .blank true] ++
      (if s.latchPending = true then [.pin .latch true, .pin .latch false] else []) ++ [.pin .blank false] ++
      (s.rowBytes t.front 0).flatMap (transmitEvents s.cfg)
    t.front = (if s.updateReq = true then !s.front else s.front) ∧
    t.updateReq = false ∧ t.latchPending = true ∧
    t.wire = s.wire ++ events ∧ t.pins = s.pins.replay events ∧
    (s.cfg.bitBanged = true → events.length = (if s.latchPending = true then 4 else 2) + 24 * s.cfg.gsLen) ∧
    t.pins.blank = false ∧ t.pins.rowSel = s.pins.rowSel ∧ t.pins.progSel = s.pins.progSel ∧
    t.pins.latch = (if s.latchPending = true then false else s.pins.latch) ∧
    t = { s with
      front := t.front, updateReq := t.updateReq, latchPending := t.latchPending, sr := t.sr, bitCnt := t.bitCnt,
      pins := t.pins, wire := t.wire }

/-- 42_refresh_engine R138: one whole tick when `mux`. The pins end as the events appended leave them: the row of the
step asserted, `blank` and `latch` low, `prog_sel` as it was. -/
def Obligations.MuxTickEffect : Prop :=
  ∀ s : State, s.cfg.mux = true → s.rowCursor < s.cfg.multiplexRows →
    let t := tickOperation s
    let off := s.pins.rowSel &&& ~~~(1#8 <<< s.previousRow)
    let events : List WireEvent :=
      [.pin .blank true, .rowSel off, .pin .latch true, .pin .latch false, .rowSel (off ||| (1#8 <<< s.rowCursor)),
        .pin .blank false] ++
      (s.rowBytes t.front t.rowCursor).flatMap (transmitEvents s.cfg)
    t.rowCursor = (if s.rowCursor + 1 = s.cfg.multiplexRows then 0 else s.rowCursor + 1) ∧
    t.front = (if t.rowCursor = 0 ∧ s.updateReq = true then !s.front else s.front) ∧
    t.updateReq = (if t.rowCursor = 0 then false else s.updateReq) ∧
    t.wire = s.wire ++ events ∧ t.pins = s.pins.replay events ∧
    (s.cfg.bitBanged = true → events.length = 6 + 24 * s.cfg.gsLen) ∧
    t.pins.rowSel = (off ||| (1#8 <<< s.rowCursor)) ∧ t.pins.blank = false ∧ t.pins.latch = false ∧
    t.pins.progSel = s.pins.progSel ∧
    t = { s with
      rowCursor := t.rowCursor, front := t.front, updateReq := t.updateReq, sr := t.sr, bitCnt := t.bitCnt,
      pins := t.pins, wire := t.wire }

/-- 43_transport R171: the bytes the events of one tick clock out are those of the buffer transmitted, in index order,
for every transport. -/
def Obligations.TickClocksOutTheBuffer : Prop :=
  ∀ s : State, s.cfg.Valid → s.Inv → s.phase = .idle →
    ∃ events, (tickOperation s).wire = s.wire ++ events ∧
      groupBytes (bitsFrom s.pins events) = s.rowBytes (tickOperation s).front (tickOperation s).sendRow

/-- 43_transport R167: ShiftByte appends, for each bit from the most significant, the data, the rising and the falling
edge, 24 events whatever the byte; the bits the receiver samples are the byte's, most significant first; `bit_cnt` is
left at 7, the clock low, the data pin at the last bit (R169). -/
def Obligations.ShiftByteSendsMsbFirst : Prop :=
  ∀ (b : Byte) (s : State),
    let t := shiftByte b s
    let events := [7, 6, 5, 4, 3, 2, 1, 0].flatMap fun k =>
      [.pin .dataOut (b.getLsbD k), .pin .clkOut true, .pin .clkOut false]
    t.wire = s.wire ++ events ∧ events.length = 24 ∧
    (s.pins.clkOut = false → bitsFrom s.pins events = [b.getLsbD 7, b.getLsbD 6, b.getLsbD 5, b.getLsbD 4,
      b.getLsbD 3, b.getLsbD 2, b.getLsbD 1, b.getLsbD 0]) ∧
    t.pins = { s.pins with clkOut := false, dataOut := b.getLsbD 0 } ∧
    t.sr = b ∧ t.bitCnt = 7 ∧ t = { s with sr := t.sr, bitCnt := t.bitCnt, pins := t.pins, wire := t.wire }

/-- 42_refresh_engine R140, R147: a tick toggles the latch exactly once when `mux`, and when not `mux` exactly when a
pulse was owed at its start; always inside the blanked interval. -/
def Obligations.TickLatchesExactlyWhenOwed : Prop :=
  ∀ s : State, s.Inv → s.phase = .idle →
    ∃ events, (tickOperation s).wire = s.wire ++ events ∧
      (latchesFrom s.pins 0 events).length = (if s.cfg.mux = true ∨ s.latchPending = true then 1 else 0) ∧
      ∀ edge ∈ latchesFrom s.pins 0 events, edge.blank = true ∧ edge.bitsBefore = 0

/-- 42_refresh_engine R158: the row-select table, and its printed instance for `R = 3`. -/
def Obligations.RowSelectTable : Prop :=
  (∀ R s, 1 ≤ R → R ≤ 8 → s < R →
    rowTab R (2 * s) = 1#8 <<< (if s = 0 then R - 1 else s - 1) ∧ rowTab R (2 * s + 1) = 1#8 <<< s) ∧
  (List.range 6).map (rowTab 3) = [0b100, 0b001, 0b001, 0b010, 0b010, 0b100]

/-- 42_refresh_engine R141: after a tick when `mux`, exactly the row of its step is asserted, given that at most the
previous row was. -/
def Obligations.ExactlyOneRowAsserted : Prop :=
  ∀ s : State, s.cfg.Valid → s.cfg.mux = true → s.rowCursor < s.cfg.multiplexRows →
    (s.pins.rowSel = 0 ∨ s.pins.rowSel = 1#8 <<< s.previousRow) →
    ∀ k < 8, (tickOperation s).pins.rowSel.getLsbD k = decide (k = s.rowCursor)

/-! ### Rules about the whole machine -/

/-- 41_handoff R123, R124: `front` changes only in a page flip at a frame boundary with a request pending (any tick
when not `mux`; the tick whose advance wraps the cursor to 0 when `mux`), which clears the flag in the same step; or
by INIT or `rst`, which set it to 0. -/
def Obligations.FrontChangesOnlyAtFrameBoundary : Prop :=
  ∀ s t : State, step s = .next t → t.front ≠ s.front →
    (s.phase = .advance ∧ s.updateReq = true ∧ t.updateReq = false ∧ t.front = !s.front ∧
      (s.cfg.mux = true → t.rowCursor = 0)) ∨
    (∃ rest, s.inputs = .rst :: rest ∧ t.front = false) ∨
    (∃ rest, s.inputs = .cmd (encode .init) :: rest ∧ t.front = false)

/-- 41_handoff R126, 10_state R23: `update_req` goes to 1 only by COMMIT, and to 0 only by a page flip, INIT or `rst`. -/
def Obligations.UpdateRequestLifecycle : Prop :=
  ∀ s t : State, step s = .next t →
    (s.updateReq = false → t.updateReq = true → ∃ rest, s.inputs = .cmd (encode .commit) :: rest) ∧
    (s.updateReq = true → t.updateReq = false →
      (s.phase = .advance ∧ t.front = !s.front) ∨ (∃ rest, s.inputs = .rst :: rest) ∨
        ∃ rest, s.inputs = .cmd (encode .init) :: rest)

/-- 10_state R29: `resp` is written only by GETGS, GETDC, PENDING and GAMMA, and cleared by `rst`; every other step
leaves it unchanged. -/
def Obligations.ResponseWrittenOnlyByReaders : Prop :=
  ∀ s t : State, step s = .next t → t.resp ≠ s.resp →
    (∃ rest, s.inputs = .rst :: rest ∧ t.resp = 0) ∨
    ∃ w rest i, s.inputs = .cmd w :: rest ∧ decode w = .ok i ∧
      i.mnemonic ∈ ["GETGS", "GETDC", "PENDING", "GAMMA"]

/-- 60_exceptions R199, 20_memory R53, R54: the engine writes no byte of `GS` or `DC`, never writes `resp`, and never
sets `update_req`, at either level. -/
def Obligations.EngineWritesNoMemory : Prop :=
  ∀ s : State,
    ((microStep s).gs = s.gs ∧ (microStep s).dc = s.dc ∧ (microStep s).resp = s.resp ∧
      ((microStep s).updateReq = true → s.updateReq = true)) ∧
    ((tickOperation s).gs = s.gs ∧ (tickOperation s).dc = s.dc ∧ (tickOperation s).resp = s.resp ∧
      ((tickOperation s).updateReq = true → s.updateReq = true))

/-- 20_memory R53: no host command writes a byte of the front page. -/
def Obligations.HostNeverWritesFrontPage : Prop :=
  ∀ (i : Instr) (s t : State), s.cfg.Valid → exec i s = .next t →
    ∀ r < 8, ∀ j < 8192, t.gsByte s.front r j = s.gsByte s.front r j

/-- 40_codec, 41_handoff, 44_gamma: no command but INIT and CLOCKINDC writes a pin, so none appends to the wire; and
DC reaches the wire by CLOCKINDC alone (70_reset_and_hazards R219). -/
def Obligations.OnlyInitAndClockindcTouchTheWire : Prop :=
  ∀ (i : Instr) (s t : State), exec i s = .next t → i ≠ .init → i ≠ .clockindc →
    t.wire = s.wire ∧ t.pins = s.pins ∧ t.phase = s.phase ∧ t.sr = s.sr

/-- 00_scope R5: nothing changes the configuration. -/
def Obligations.ConfigurationIsConstant : Prop :=
  ∀ (n : Nat) (s t : State), RunsTo n s t → t.cfg = s.cfg

/-- 10_state R39: after `rst`, and after INIT, the registers and pins hold their reset values; `rst` also clears
`resp` and empties the trace, INIT leaves `resp`, `GS` and `DC`. INIT is taken between two ticks of a block whose
invariant holds, so that the fields of a register or pin the block does not have stand at 0 too. -/
def Obligations.ResetValues : Prop :=
  ∀ (s : State) (rest : List Input),
    (s.inputs = .rst :: rest →
      ∃ t, step s = .next t ∧ t.front = false ∧ t.updateReq = false ∧ t.rowCursor = 0 ∧ t.latchPending = false ∧
        t.phase = .idle ∧ t.byteIdx = 0 ∧ t.bitCnt = 7 ∧ t.sr = 0 ∧
        t.pins = { clkOut := false, dataOut := false, latch := false, blank := true, progSel := false, rowSel := 0 } ∧
        t.resp = 0 ∧ t.wire = [] ∧ t.cfg = s.cfg) ∧
    (s.inputs = .cmd (encode .init) :: rest → s.Inv → s.phase = .idle →
      ∃ t, step s = .next t ∧ t.front = false ∧ t.updateReq = false ∧ t.rowCursor = 0 ∧ t.latchPending = false ∧
        t.phase = .idle ∧ t.byteIdx = 0 ∧ t.bitCnt = 7 ∧ t.sr = 0 ∧
        t.pins = { clkOut := false, dataOut := false, latch := false, blank := true, progSel := false, rowSel := 0 } ∧
        t.resp = s.resp ∧ t.cfg = s.cfg ∧ t.gs = s.gs ∧ t.dc = s.dc)

/-- 20_memory R67, 70_reset_and_hazards R220: a tick that flips exchanges the roles of the two pages and copies
nothing: the back page afterwards is the page that was on display, the front page the one that was not. -/
def Obligations.BackPageAfterFlipIsStale : Prop :=
  ∀ s : State, (tickOperation s).front ≠ s.front →
    ∀ r j, (tickOperation s).gsByte (tickOperation s).back r j = s.gsByte s.front r j ∧
      (tickOperation s).gsByte (tickOperation s).front r j = s.gsByte (!s.front) r j

/-! ### Invariants -/

/-- The invariants hold right after reset, in a block of any valid configuration and at the model's own `State.reset`
(log 1). -/
def Obligations.InvariantsHoldAtReset : Prop :=
  State.reset.Inv ∧
  ∀ c : Config, c.Valid → ∃ s, State.construct c = some s ∧ s.Inv ∧ s.MemoryCanonical ∧ s.memoryInSpace = true ∧
    s.PinsFollowWire ∧ s.WireLawful ∧ s.RowSelFollowsCursor

/-- 10_state R24 to R30, 42_refresh_engine R149 to R155, 43_transport R169: the block's invariant is kept by every
step (the fields of absent parts stand at their reset values: log 13). -/
def Obligations.InvariantKept : Prop := ∀ s t : State, s.Inv → step s = .next t → t.Inv

/-- Log 6: both byte spaces keep their canonical form. -/
def Obligations.MemoryCanonicalKept : Prop :=
  ∀ s t : State, s.MemoryCanonical → step s = .next t → t.MemoryCanonical

/-- 20_memory R51: no byte outside the ranges of the spaces is ever listed (the keys are the model's: log 7). -/
def Obligations.IndicesStayInRange : Prop :=
  ∀ s t : State, s.cfg.Valid → s.memoryInSpace = true → step s = .next t → t.memoryInSpace = true

/-- 10_state R33, 43_transport R170: the pins are what the wire trace says. -/
def Obligations.PinsFollowWireKept : Prop :=
  ∀ s t : State, s.PinsFollowWire → step s = .next t → t.PinsFollowWire

/-- 43_transport R170, its two facts, of every trace the block produces. -/
def Obligations.WireLawfulKept : Prop :=
  ∀ s t : State, s.Inv → s.PinsFollowWire → s.WireLawful → step s = .next t → t.WireLawful

/-- 42_refresh_engine R141: `row_sel` follows the cursor, so at most one row is ever asserted. -/
def Obligations.RowSelFollowsCursorKept : Prop :=
  ∀ s t : State, s.Inv → s.RowSelFollowsCursor → step s = .next t → t.RowSelFollowsCursor

/-! ### Headlines -/

/-- 42_refresh_engine R157: a host command (INIT and CLOCKINDC apart) lands on either side of a micro-step with the
same result: at every phase but ADVANCE, and at ADVANCE too with no commit pending, a COMMIT apart. So only the order
of a COMMIT and the boundary test, and after a COMMIT that of a read and the flip, can be seen. -/
def Obligations.HostCommandsCommuteWithMicroSteps : Prop :=
  ∀ (i : Instr) (s t : State), s.Inv → (s.phase = .advance → s.updateReq = false ∧ i ≠ .commit) →
    i ≠ .init → i ≠ .clockindc → exec i s = .next t →
    exec i (microStep s) = .next (microStep t)

/-- 00_scope R14: every run of the operation level from IDLE is a run of `step`, under some events of the outside world,
to the same state (its `cmd_done` is the model's choice at both levels: log 14). -/
def Obligations.OperationRunsAreStepRuns : Prop :=
  ∀ (ops : List Operation) (s t : State), s.Inv → s.phase = .idle → s.inputs = [] →
    runOperations ops s = .next t → ∃ n events, RunsTo n { s with inputs := events } t

/-- 42_refresh_engine R157: every run of `step` from IDLE to IDLE, in which nothing stopped, ends where some run of the
operation level ends, wire trace, `resp` and memories with it; whatever commands, ticks and resets landed where (the
list of events and `cmd_done` apart, which the operation level does not follow: logs 2 and 14). -/
def Obligations.EveryRunIsAnOperationRun : Prop :=
  ∀ (n : Nat) (s t : State), s.Inv → s.phase = .idle → RunsTo n s t → t.phase = .idle →
    ∃ ops u, runOperations ops s = .next u ∧ t = { u with inputs := t.inputs, cmdDone := t.cmdDone }

/-- 41_handoff R127, 70_reset_and_hazards R217: WAITCOMMIT, polling in any phase, with any ticks and micro-steps between
two polls (log 17). With no commit pending it returns at once. With one pending it returns, `update_req` clear, once one
tick, or `R` ticks when `mux`, have arrived and run to their end; while no tick arrives it goes on polling. -/
def Obligations.WaitCommitReturns : Prop :=
  ∀ (s : State) (gaps : List (List Input)), s.Inv →
    (s.updateReq = false → ∃ t, waitCommit gaps s = .returned t ∧ t.resp = 0 ∧ t.updateReq = false) ∧
    (∀ u, (∀ e ∈ gaps.flatten, e = .tick ∨ e = .quiet) → s.presentAll gaps.flatten = .next u → u.phase = .idle →
      s.cfg.nRows ≤ gaps.flatten.count .tick →
      ∃ t, waitCommit gaps s = .returned t ∧ t.resp = 0 ∧ t.updateReq = false) ∧
    ((∀ e ∈ gaps.flatten, e = .quiet) → s.phase = .idle → s.updateReq = true →
      ∃ t, waitCommit gaps s = .polling t ∧ t.resp = 1 ∧ t.updateReq = true)

/-- 20_memory R64, 30_encoding R71 (the receiver is presumed: logs 19 and 27). At `B = 12`, once the bytes of a buffer
have been shifted in with `prog_sel = 0`, channel `c`'s value stands at `CSR[12c+11 : 12c]`, whatever the chips held
before. After CLOCKINDC, with 6 in place of 12, its dot-correction value stands in the shift register and in the
dot-correction register, and `COUT` is as before; the latch of the next tick, if it pulses one, takes those bits as
grayscale (43_transport R172, 70_reset_and_hazards R218; under a peripheral transport what a latch takes rests on the
flush before it, presumed: log 23). -/
def Obligations.ReceiverHoldsTransmittedBuffer : Prop :=
  ∀ (s : State) (chain : Receiver), s.cfg.Valid →
    (∀ (p : Bool) (r : Nat) (ps : Pins), s.cfg.pwmBits = 12 → ps.clkOut = false → ps.progSel = false →
      ∀ c < s.cfg.numChannels,
        (Receiver.receive s.cfg ps chain ((s.rowBytes p r).flatMap (transmitEvents s.cfg))).csr / 2 ^ (12 * c) % 2 ^ 12 =
          s.gsValue p r c) ∧
    (∀ t, s.Inv → s.phase = .idle → exec .clockindc s = .next t →
      ∃ events tickEvents, t.wire = s.wire ++ events ∧ (tickOperation t).wire = t.wire ++ tickEvents ∧
        let sent := Receiver.receive s.cfg s.pins chain events
        let ticked := Receiver.receive s.cfg t.pins sent tickEvents
        sent.cout = chain.cout ∧
        ∀ c < s.cfg.numChannels,
          sent.csr / 2 ^ (6 * c) % 2 ^ 6 = s.dcValue c ∧ sent.dotCorrection c = s.dcValue c ∧
          ticked.dotCorrection c = s.dcValue c ∧
          (s.cfg.mux = true ∨ s.latchPending = true → ticked.cout / 2 ^ (6 * c) % 2 ^ 6 = s.dcValue c))

/-- 70_reset_and_hazards R214, not `mux`, at `B = 12`: a frame committed before a tick is transmitted by it and on
display after the next, every output at the value the host set, whatever the chips held before (the receiver is
presumed: log 19; under a peripheral transport so is the flush before the next latch: log 23; without a
`prog_sel` pin that the chips take grayscale is the model's choice: log 28). -/
def Obligations.CommittedFrameIsDisplayed : Prop :=
  ∀ (s : State) (chain : Receiver), s.Inv → s.phase = .idle → s.cfg.mux = false → s.cfg.pwmBits = 12 →
    s.updateReq = true →
    let t := tickOperation (tickOperation s)
    ∃ events, t.wire = s.wire ++ events ∧ t.pins.blank = false ∧
      ∀ c < s.cfg.numChannels,
        (Receiver.receive s.cfg s.pins chain events).shows t.pins c = some (s.gsValue (!s.front) 0 c)
end

