-- ==== Sys2Proof/Laws/State.lean ====
section
/-! SUPPORT. What each update of the state does to each field, one equation a field, so that later proofs rewrite with
these and do not unfold the update. -/

namespace Sys2Proof.Machine

/-! A wire event: the pin and the trace change, nothing else. -/

@[simp] theorem emit_cfg (e : WireEvent) (s : State) : (emit e s).cfg = s.cfg := (rfl)
@[simp] theorem emit_gs (e : WireEvent) (s : State) : (emit e s).gs = s.gs := (rfl)
@[simp] theorem emit_dc (e : WireEvent) (s : State) : (emit e s).dc = s.dc := (rfl)
@[simp] theorem emit_front (e : WireEvent) (s : State) : (emit e s).front = s.front := (rfl)
@[simp] theorem emit_updateReq (e : WireEvent) (s : State) : (emit e s).updateReq = s.updateReq := (rfl)
@[simp] theorem emit_rowCursor (e : WireEvent) (s : State) : (emit e s).rowCursor = s.rowCursor := (rfl)
@[simp] theorem emit_latchPending (e : WireEvent) (s : State) : (emit e s).latchPending = s.latchPending := (rfl)
@[simp] theorem emit_phase (e : WireEvent) (s : State) : (emit e s).phase = s.phase := (rfl)
@[simp] theorem emit_byteIdx (e : WireEvent) (s : State) : (emit e s).byteIdx = s.byteIdx := (rfl)
@[simp] theorem emit_bitCnt (e : WireEvent) (s : State) : (emit e s).bitCnt = s.bitCnt := (rfl)
@[simp] theorem emit_sr (e : WireEvent) (s : State) : (emit e s).sr = s.sr := (rfl)
@[simp] theorem emit_resp (e : WireEvent) (s : State) : (emit e s).resp = s.resp := (rfl)
@[simp] theorem emit_pins (e : WireEvent) (s : State) : (emit e s).pins = s.pins.after e := (rfl)
@[simp] theorem emit_cmdDone (e : WireEvent) (s : State) : (emit e s).cmdDone = s.cmdDone := (rfl)
@[simp] theorem emit_wire (e : WireEvent) (s : State) : (emit e s).wire = s.wire ++ [e] := (rfl)
@[simp] theorem emit_inputs (e : WireEvent) (s : State) : (emit e s).inputs = s.inputs := (rfl)
@[simp] theorem emit_epoch (e : WireEvent) (s : State) : (emit e s).epoch = s.epoch := (rfl)

/-! A write of a one-bit pin. -/

@[simp] theorem writePin_cfg (p : Pin) (v : Bool) (s : State) : (writePin p v s).cfg = s.cfg := (rfl)
@[simp] theorem writePin_gs (p : Pin) (v : Bool) (s : State) : (writePin p v s).gs = s.gs := (rfl)
@[simp] theorem writePin_dc (p : Pin) (v : Bool) (s : State) : (writePin p v s).dc = s.dc := (rfl)
@[simp] theorem writePin_front (p : Pin) (v : Bool) (s : State) : (writePin p v s).front = s.front := (rfl)
@[simp] theorem writePin_updateReq (p : Pin) (v : Bool) (s : State) : (writePin p v s).updateReq = s.updateReq := (rfl)
@[simp] theorem writePin_rowCursor (p : Pin) (v : Bool) (s : State) : (writePin p v s).rowCursor = s.rowCursor := (rfl)
@[simp] theorem writePin_latchPending (p : Pin) (v : Bool) (s : State) : (writePin p v s).latchPending = s.latchPending := (rfl)
@[simp] theorem writePin_phase (p : Pin) (v : Bool) (s : State) : (writePin p v s).phase = s.phase := (rfl)
@[simp] theorem writePin_byteIdx (p : Pin) (v : Bool) (s : State) : (writePin p v s).byteIdx = s.byteIdx := (rfl)
@[simp] theorem writePin_bitCnt (p : Pin) (v : Bool) (s : State) : (writePin p v s).bitCnt = s.bitCnt := (rfl)
@[simp] theorem writePin_sr (p : Pin) (v : Bool) (s : State) : (writePin p v s).sr = s.sr := (rfl)
@[simp] theorem writePin_resp (p : Pin) (v : Bool) (s : State) : (writePin p v s).resp = s.resp := (rfl)
@[simp] theorem writePin_pins (p : Pin) (v : Bool) (s : State) : (writePin p v s).pins = s.pins.set p v := (rfl)
@[simp] theorem writePin_cmdDone (p : Pin) (v : Bool) (s : State) : (writePin p v s).cmdDone = s.cmdDone := (rfl)
@[simp] theorem writePin_wire (p : Pin) (v : Bool) (s : State) : (writePin p v s).wire = s.wire ++ [.pin p v] := (rfl)
@[simp] theorem writePin_inputs (p : Pin) (v : Bool) (s : State) : (writePin p v s).inputs = s.inputs := (rfl)
@[simp] theorem writePin_epoch (p : Pin) (v : Bool) (s : State) : (writePin p v s).epoch = s.epoch := (rfl)

/-! A write of `row_sel`. -/

@[simp] theorem writeRowSel_cfg (v : BitVec 8) (s : State) : (writeRowSel v s).cfg = s.cfg := (rfl)
@[simp] theorem writeRowSel_gs (v : BitVec 8) (s : State) : (writeRowSel v s).gs = s.gs := (rfl)
@[simp] theorem writeRowSel_dc (v : BitVec 8) (s : State) : (writeRowSel v s).dc = s.dc := (rfl)
@[simp] theorem writeRowSel_front (v : BitVec 8) (s : State) : (writeRowSel v s).front = s.front := (rfl)
@[simp] theorem writeRowSel_updateReq (v : BitVec 8) (s : State) : (writeRowSel v s).updateReq = s.updateReq := (rfl)
@[simp] theorem writeRowSel_rowCursor (v : BitVec 8) (s : State) : (writeRowSel v s).rowCursor = s.rowCursor := (rfl)
@[simp] theorem writeRowSel_latchPending (v : BitVec 8) (s : State) : (writeRowSel v s).latchPending = s.latchPending := (rfl)
@[simp] theorem writeRowSel_phase (v : BitVec 8) (s : State) : (writeRowSel v s).phase = s.phase := (rfl)
@[simp] theorem writeRowSel_byteIdx (v : BitVec 8) (s : State) : (writeRowSel v s).byteIdx = s.byteIdx := (rfl)
@[simp] theorem writeRowSel_bitCnt (v : BitVec 8) (s : State) : (writeRowSel v s).bitCnt = s.bitCnt := (rfl)
@[simp] theorem writeRowSel_sr (v : BitVec 8) (s : State) : (writeRowSel v s).sr = s.sr := (rfl)
@[simp] theorem writeRowSel_resp (v : BitVec 8) (s : State) : (writeRowSel v s).resp = s.resp := (rfl)
@[simp] theorem writeRowSel_pins (v : BitVec 8) (s : State) : (writeRowSel v s).pins = { s.pins with rowSel := v } := (rfl)
@[simp] theorem writeRowSel_cmdDone (v : BitVec 8) (s : State) : (writeRowSel v s).cmdDone = s.cmdDone := (rfl)
@[simp] theorem writeRowSel_wire (v : BitVec 8) (s : State) : (writeRowSel v s).wire = s.wire ++ [.rowSel v] := (rfl)
@[simp] theorem writeRowSel_inputs (v : BitVec 8) (s : State) : (writeRowSel v s).inputs = s.inputs := (rfl)
@[simp] theorem writeRowSel_epoch (v : BitVec 8) (s : State) : (writeRowSel v s).epoch = s.epoch := (rfl)

/-! The response register. -/

@[simp] theorem respond_cfg (n : Nat) (s : State) : (respond n s).cfg = s.cfg := (rfl)
@[simp] theorem respond_gs (n : Nat) (s : State) : (respond n s).gs = s.gs := (rfl)
@[simp] theorem respond_dc (n : Nat) (s : State) : (respond n s).dc = s.dc := (rfl)
@[simp] theorem respond_front (n : Nat) (s : State) : (respond n s).front = s.front := (rfl)
@[simp] theorem respond_updateReq (n : Nat) (s : State) : (respond n s).updateReq = s.updateReq := (rfl)
@[simp] theorem respond_rowCursor (n : Nat) (s : State) : (respond n s).rowCursor = s.rowCursor := (rfl)
@[simp] theorem respond_latchPending (n : Nat) (s : State) : (respond n s).latchPending = s.latchPending := (rfl)
@[simp] theorem respond_phase (n : Nat) (s : State) : (respond n s).phase = s.phase := (rfl)
@[simp] theorem respond_byteIdx (n : Nat) (s : State) : (respond n s).byteIdx = s.byteIdx := (rfl)
@[simp] theorem respond_bitCnt (n : Nat) (s : State) : (respond n s).bitCnt = s.bitCnt := (rfl)
@[simp] theorem respond_sr (n : Nat) (s : State) : (respond n s).sr = s.sr := (rfl)
@[simp] theorem respond_resp (n : Nat) (s : State) : (respond n s).resp = zext16 n := (rfl)
@[simp] theorem respond_pins (n : Nat) (s : State) : (respond n s).pins = s.pins := (rfl)
@[simp] theorem respond_cmdDone (n : Nat) (s : State) : (respond n s).cmdDone = s.cmdDone := (rfl)
@[simp] theorem respond_wire (n : Nat) (s : State) : (respond n s).wire = s.wire := (rfl)
@[simp] theorem respond_inputs (n : Nat) (s : State) : (respond n s).inputs = s.inputs := (rfl)
@[simp] theorem respond_epoch (n : Nat) (s : State) : (respond n s).epoch = s.epoch := (rfl)

/-! COMMIT's flag. -/

@[simp] theorem setUpdateReq_cfg (s : State) : (setUpdateReq s).cfg = s.cfg := (rfl)
@[simp] theorem setUpdateReq_gs (s : State) : (setUpdateReq s).gs = s.gs := (rfl)
@[simp] theorem setUpdateReq_dc (s : State) : (setUpdateReq s).dc = s.dc := (rfl)
@[simp] theorem setUpdateReq_front (s : State) : (setUpdateReq s).front = s.front := (rfl)
@[simp] theorem setUpdateReq_updateReq (s : State) : (setUpdateReq s).updateReq = true := (rfl)
@[simp] theorem setUpdateReq_rowCursor (s : State) : (setUpdateReq s).rowCursor = s.rowCursor := (rfl)
@[simp] theorem setUpdateReq_latchPending (s : State) : (setUpdateReq s).latchPending = s.latchPending := (rfl)
@[simp] theorem setUpdateReq_phase (s : State) : (setUpdateReq s).phase = s.phase := (rfl)
@[simp] theorem setUpdateReq_byteIdx (s : State) : (setUpdateReq s).byteIdx = s.byteIdx := (rfl)
@[simp] theorem setUpdateReq_bitCnt (s : State) : (setUpdateReq s).bitCnt = s.bitCnt := (rfl)
@[simp] theorem setUpdateReq_sr (s : State) : (setUpdateReq s).sr = s.sr := (rfl)
@[simp] theorem setUpdateReq_resp (s : State) : (setUpdateReq s).resp = s.resp := (rfl)
@[simp] theorem setUpdateReq_pins (s : State) : (setUpdateReq s).pins = s.pins := (rfl)
@[simp] theorem setUpdateReq_cmdDone (s : State) : (setUpdateReq s).cmdDone = s.cmdDone := (rfl)
@[simp] theorem setUpdateReq_wire (s : State) : (setUpdateReq s).wire = s.wire := (rfl)
@[simp] theorem setUpdateReq_inputs (s : State) : (setUpdateReq s).inputs = s.inputs := (rfl)
@[simp] theorem setUpdateReq_epoch (s : State) : (setUpdateReq s).epoch = s.epoch := (rfl)

/-! The page flip. -/

@[simp] theorem pageFlip_cfg (s : State) : (pageFlip s).cfg = s.cfg := (rfl)
@[simp] theorem pageFlip_gs (s : State) : (pageFlip s).gs = s.gs := (rfl)
@[simp] theorem pageFlip_dc (s : State) : (pageFlip s).dc = s.dc := (rfl)
@[simp] theorem pageFlip_front (s : State) : (pageFlip s).front = !s.front := (rfl)
@[simp] theorem pageFlip_updateReq (s : State) : (pageFlip s).updateReq = false := (rfl)
@[simp] theorem pageFlip_rowCursor (s : State) : (pageFlip s).rowCursor = s.rowCursor := (rfl)
@[simp] theorem pageFlip_latchPending (s : State) : (pageFlip s).latchPending = s.latchPending := (rfl)
@[simp] theorem pageFlip_phase (s : State) : (pageFlip s).phase = s.phase := (rfl)
@[simp] theorem pageFlip_byteIdx (s : State) : (pageFlip s).byteIdx = s.byteIdx := (rfl)
@[simp] theorem pageFlip_bitCnt (s : State) : (pageFlip s).bitCnt = s.bitCnt := (rfl)
@[simp] theorem pageFlip_sr (s : State) : (pageFlip s).sr = s.sr := (rfl)
@[simp] theorem pageFlip_resp (s : State) : (pageFlip s).resp = s.resp := (rfl)
@[simp] theorem pageFlip_pins (s : State) : (pageFlip s).pins = s.pins := (rfl)
@[simp] theorem pageFlip_cmdDone (s : State) : (pageFlip s).cmdDone = s.cmdDone := (rfl)
@[simp] theorem pageFlip_wire (s : State) : (pageFlip s).wire = s.wire := (rfl)
@[simp] theorem pageFlip_inputs (s : State) : (pageFlip s).inputs = s.inputs := (rfl)
@[simp] theorem pageFlip_epoch (s : State) : (pageFlip s).epoch = s.epoch := (rfl)

/-! A latch pulse becomes owed. -/

@[simp] theorem setLatchPending_cfg (s : State) : (setLatchPending s).cfg = s.cfg := (rfl)
@[simp] theorem setLatchPending_gs (s : State) : (setLatchPending s).gs = s.gs := (rfl)
@[simp] theorem setLatchPending_dc (s : State) : (setLatchPending s).dc = s.dc := (rfl)
@[simp] theorem setLatchPending_front (s : State) : (setLatchPending s).front = s.front := (rfl)
@[simp] theorem setLatchPending_updateReq (s : State) : (setLatchPending s).updateReq = s.updateReq := (rfl)
@[simp] theorem setLatchPending_rowCursor (s : State) : (setLatchPending s).rowCursor = s.rowCursor := (rfl)
@[simp] theorem setLatchPending_latchPending (s : State) : (setLatchPending s).latchPending = true := (rfl)
@[simp] theorem setLatchPending_phase (s : State) : (setLatchPending s).phase = s.phase := (rfl)
@[simp] theorem setLatchPending_byteIdx (s : State) : (setLatchPending s).byteIdx = s.byteIdx := (rfl)
@[simp] theorem setLatchPending_bitCnt (s : State) : (setLatchPending s).bitCnt = s.bitCnt := (rfl)
@[simp] theorem setLatchPending_sr (s : State) : (setLatchPending s).sr = s.sr := (rfl)
@[simp] theorem setLatchPending_resp (s : State) : (setLatchPending s).resp = s.resp := (rfl)
@[simp] theorem setLatchPending_pins (s : State) : (setLatchPending s).pins = s.pins := (rfl)
@[simp] theorem setLatchPending_cmdDone (s : State) : (setLatchPending s).cmdDone = s.cmdDone := (rfl)
@[simp] theorem setLatchPending_wire (s : State) : (setLatchPending s).wire = s.wire := (rfl)
@[simp] theorem setLatchPending_inputs (s : State) : (setLatchPending s).inputs = s.inputs := (rfl)
@[simp] theorem setLatchPending_epoch (s : State) : (setLatchPending s).epoch = s.epoch := (rfl)

/-! The owed latch pulse is given. -/

@[simp] theorem clearLatchPending_cfg (s : State) : (clearLatchPending s).cfg = s.cfg := (rfl)
@[simp] theorem clearLatchPending_gs (s : State) : (clearLatchPending s).gs = s.gs := (rfl)
@[simp] theorem clearLatchPending_dc (s : State) : (clearLatchPending s).dc = s.dc := (rfl)
@[simp] theorem clearLatchPending_front (s : State) : (clearLatchPending s).front = s.front := (rfl)
@[simp] theorem clearLatchPending_updateReq (s : State) : (clearLatchPending s).updateReq = s.updateReq := (rfl)
@[simp] theorem clearLatchPending_rowCursor (s : State) : (clearLatchPending s).rowCursor = s.rowCursor := (rfl)
@[simp] theorem clearLatchPending_latchPending (s : State) : (clearLatchPending s).latchPending = false := (rfl)
@[simp] theorem clearLatchPending_phase (s : State) : (clearLatchPending s).phase = s.phase := (rfl)
@[simp] theorem clearLatchPending_byteIdx (s : State) : (clearLatchPending s).byteIdx = s.byteIdx := (rfl)
@[simp] theorem clearLatchPending_bitCnt (s : State) : (clearLatchPending s).bitCnt = s.bitCnt := (rfl)
@[simp] theorem clearLatchPending_sr (s : State) : (clearLatchPending s).sr = s.sr := (rfl)
@[simp] theorem clearLatchPending_resp (s : State) : (clearLatchPending s).resp = s.resp := (rfl)
@[simp] theorem clearLatchPending_pins (s : State) : (clearLatchPending s).pins = s.pins := (rfl)
@[simp] theorem clearLatchPending_cmdDone (s : State) : (clearLatchPending s).cmdDone = s.cmdDone := (rfl)
@[simp] theorem clearLatchPending_wire (s : State) : (clearLatchPending s).wire = s.wire := (rfl)
@[simp] theorem clearLatchPending_inputs (s : State) : (clearLatchPending s).inputs = s.inputs := (rfl)
@[simp] theorem clearLatchPending_epoch (s : State) : (clearLatchPending s).epoch = s.epoch := (rfl)

/-! The return to IDLE. -/

@[simp] theorem returnToIdle_cfg (s : State) : (returnToIdle s).cfg = s.cfg := (rfl)
@[simp] theorem returnToIdle_gs (s : State) : (returnToIdle s).gs = s.gs := (rfl)
@[simp] theorem returnToIdle_dc (s : State) : (returnToIdle s).dc = s.dc := (rfl)
@[simp] theorem returnToIdle_front (s : State) : (returnToIdle s).front = s.front := (rfl)
@[simp] theorem returnToIdle_updateReq (s : State) : (returnToIdle s).updateReq = s.updateReq := (rfl)
@[simp] theorem returnToIdle_rowCursor (s : State) : (returnToIdle s).rowCursor = s.rowCursor := (rfl)
@[simp] theorem returnToIdle_latchPending (s : State) : (returnToIdle s).latchPending = s.latchPending := (rfl)
@[simp] theorem returnToIdle_phase (s : State) : (returnToIdle s).phase = .idle := (rfl)
@[simp] theorem returnToIdle_byteIdx (s : State) : (returnToIdle s).byteIdx = 0 := (rfl)
@[simp] theorem returnToIdle_bitCnt (s : State) : (returnToIdle s).bitCnt = 7 := (rfl)
@[simp] theorem returnToIdle_sr (s : State) : (returnToIdle s).sr = s.sr := (rfl)
@[simp] theorem returnToIdle_resp (s : State) : (returnToIdle s).resp = s.resp := (rfl)
@[simp] theorem returnToIdle_pins (s : State) : (returnToIdle s).pins = s.pins := (rfl)
@[simp] theorem returnToIdle_cmdDone (s : State) : (returnToIdle s).cmdDone = s.cmdDone := (rfl)
@[simp] theorem returnToIdle_wire (s : State) : (returnToIdle s).wire = s.wire := (rfl)
@[simp] theorem returnToIdle_inputs (s : State) : (returnToIdle s).inputs = s.inputs := (rfl)
@[simp] theorem returnToIdle_epoch (s : State) : (returnToIdle s).epoch = s.epoch := (rfl)

/-! The advance of the row cursor. -/

@[simp] theorem advanceCursor_cfg (s : State) : (advanceCursor s).cfg = s.cfg := (rfl)
@[simp] theorem advanceCursor_gs (s : State) : (advanceCursor s).gs = s.gs := (rfl)
@[simp] theorem advanceCursor_dc (s : State) : (advanceCursor s).dc = s.dc := (rfl)
@[simp] theorem advanceCursor_front (s : State) : (advanceCursor s).front = s.front := (rfl)
@[simp] theorem advanceCursor_updateReq (s : State) : (advanceCursor s).updateReq = s.updateReq := (rfl)
@[simp] theorem advanceCursor_rowCursor (s : State) : (advanceCursor s).rowCursor = if s.cfg.mux then (s.rowCursor + 1) % s.cfg.multiplexRows else s.rowCursor := (rfl)
@[simp] theorem advanceCursor_latchPending (s : State) : (advanceCursor s).latchPending = s.latchPending := (rfl)
@[simp] theorem advanceCursor_phase (s : State) : (advanceCursor s).phase = s.phase := (rfl)
@[simp] theorem advanceCursor_byteIdx (s : State) : (advanceCursor s).byteIdx = s.byteIdx := (rfl)
@[simp] theorem advanceCursor_bitCnt (s : State) : (advanceCursor s).bitCnt = s.bitCnt := (rfl)
@[simp] theorem advanceCursor_sr (s : State) : (advanceCursor s).sr = s.sr := (rfl)
@[simp] theorem advanceCursor_resp (s : State) : (advanceCursor s).resp = s.resp := (rfl)
@[simp] theorem advanceCursor_pins (s : State) : (advanceCursor s).pins = s.pins := (rfl)
@[simp] theorem advanceCursor_cmdDone (s : State) : (advanceCursor s).cmdDone = s.cmdDone := (rfl)
@[simp] theorem advanceCursor_wire (s : State) : (advanceCursor s).wire = s.wire := (rfl)
@[simp] theorem advanceCursor_inputs (s : State) : (advanceCursor s).inputs = s.inputs := (rfl)
@[simp] theorem advanceCursor_epoch (s : State) : (advanceCursor s).epoch = s.epoch := (rfl)

/-! The registers INIT writes. -/

@[simp] theorem initRegisters_cfg (s : State) : (initRegisters s).cfg = s.cfg := (rfl)
@[simp] theorem initRegisters_gs (s : State) : (initRegisters s).gs = s.gs := (rfl)
@[simp] theorem initRegisters_dc (s : State) : (initRegisters s).dc = s.dc := (rfl)
@[simp] theorem initRegisters_front (s : State) : (initRegisters s).front = false := (rfl)
@[simp] theorem initRegisters_updateReq (s : State) : (initRegisters s).updateReq = false := (rfl)
@[simp] theorem initRegisters_rowCursor (s : State) : (initRegisters s).rowCursor = if s.cfg.mux then 0 else s.rowCursor := (rfl)
@[simp] theorem initRegisters_latchPending (s : State) : (initRegisters s).latchPending = if s.cfg.mux then s.latchPending else false := (rfl)
@[simp] theorem initRegisters_phase (s : State) : (initRegisters s).phase = .idle := (rfl)
@[simp] theorem initRegisters_byteIdx (s : State) : (initRegisters s).byteIdx = 0 := (rfl)
@[simp] theorem initRegisters_bitCnt (s : State) : (initRegisters s).bitCnt = 7 := (rfl)
@[simp] theorem initRegisters_sr (s : State) : (initRegisters s).sr = 0 := (rfl)
@[simp] theorem initRegisters_resp (s : State) : (initRegisters s).resp = s.resp := (rfl)
@[simp] theorem initRegisters_pins (s : State) : (initRegisters s).pins = s.pins := (rfl)
@[simp] theorem initRegisters_cmdDone (s : State) : (initRegisters s).cmdDone = s.cmdDone := (rfl)
@[simp] theorem initRegisters_wire (s : State) : (initRegisters s).wire = s.wire := (rfl)
@[simp] theorem initRegisters_inputs (s : State) : (initRegisters s).inputs = s.inputs := (rfl)
@[simp] theorem initRegisters_epoch (s : State) : (initRegisters s).epoch = s.epoch := (rfl)

/-! The event at the head of `inputs` is consumed. -/

@[simp] theorem State.consume_cfg (s : State) (rest : List Input) : (s.consume rest).cfg = s.cfg := (rfl)
@[simp] theorem State.consume_gs (s : State) (rest : List Input) : (s.consume rest).gs = s.gs := (rfl)
@[simp] theorem State.consume_dc (s : State) (rest : List Input) : (s.consume rest).dc = s.dc := (rfl)
@[simp] theorem State.consume_front (s : State) (rest : List Input) : (s.consume rest).front = s.front := (rfl)
@[simp] theorem State.consume_updateReq (s : State) (rest : List Input) : (s.consume rest).updateReq = s.updateReq := (rfl)
@[simp] theorem State.consume_rowCursor (s : State) (rest : List Input) : (s.consume rest).rowCursor = s.rowCursor := (rfl)
@[simp] theorem State.consume_latchPending (s : State) (rest : List Input) : (s.consume rest).latchPending = s.latchPending := (rfl)
@[simp] theorem State.consume_phase (s : State) (rest : List Input) : (s.consume rest).phase = s.phase := (rfl)
@[simp] theorem State.consume_byteIdx (s : State) (rest : List Input) : (s.consume rest).byteIdx = s.byteIdx := (rfl)
@[simp] theorem State.consume_bitCnt (s : State) (rest : List Input) : (s.consume rest).bitCnt = s.bitCnt := (rfl)
@[simp] theorem State.consume_sr (s : State) (rest : List Input) : (s.consume rest).sr = s.sr := (rfl)
@[simp] theorem State.consume_resp (s : State) (rest : List Input) : (s.consume rest).resp = s.resp := (rfl)
@[simp] theorem State.consume_pins (s : State) (rest : List Input) : (s.consume rest).pins = s.pins := (rfl)
@[simp] theorem State.consume_cmdDone (s : State) (rest : List Input) : (s.consume rest).cmdDone = false := (rfl)
@[simp] theorem State.consume_wire (s : State) (rest : List Input) : (s.consume rest).wire = s.wire := (rfl)
@[simp] theorem State.consume_inputs (s : State) (rest : List Input) : (s.consume rest).inputs = rest := (rfl)
@[simp] theorem State.consume_epoch (s : State) (rest : List Input) : (s.consume rest).epoch = s.epoch := (rfl)

/-! The sequencer's next micro-step. -/

@[simp] theorem goto_cfg (p : Phase) (s : State) : (goto p s).cfg = s.cfg := (rfl)
@[simp] theorem goto_gs (p : Phase) (s : State) : (goto p s).gs = s.gs := (rfl)
@[simp] theorem goto_dc (p : Phase) (s : State) : (goto p s).dc = s.dc := (rfl)
@[simp] theorem goto_front (p : Phase) (s : State) : (goto p s).front = s.front := (rfl)
@[simp] theorem goto_updateReq (p : Phase) (s : State) : (goto p s).updateReq = s.updateReq := (rfl)
@[simp] theorem goto_rowCursor (p : Phase) (s : State) : (goto p s).rowCursor = s.rowCursor := (rfl)
@[simp] theorem goto_latchPending (p : Phase) (s : State) : (goto p s).latchPending = s.latchPending := (rfl)
@[simp] theorem goto_phase (p : Phase) (s : State) : (goto p s).phase = p := (rfl)
@[simp] theorem goto_byteIdx (p : Phase) (s : State) : (goto p s).byteIdx = s.byteIdx := (rfl)
@[simp] theorem goto_bitCnt (p : Phase) (s : State) : (goto p s).bitCnt = s.bitCnt := (rfl)
@[simp] theorem goto_sr (p : Phase) (s : State) : (goto p s).sr = s.sr := (rfl)
@[simp] theorem goto_resp (p : Phase) (s : State) : (goto p s).resp = s.resp := (rfl)
@[simp] theorem goto_pins (p : Phase) (s : State) : (goto p s).pins = s.pins := (rfl)
@[simp] theorem goto_cmdDone (p : Phase) (s : State) : (goto p s).cmdDone = s.cmdDone := (rfl)
@[simp] theorem goto_wire (p : Phase) (s : State) : (goto p s).wire = s.wire := (rfl)
@[simp] theorem goto_inputs (p : Phase) (s : State) : (goto p s).inputs = s.inputs := (rfl)
@[simp] theorem goto_epoch (p : Phase) (s : State) : (goto p s).epoch = s.epoch := (rfl)

/-! The byte index. -/

@[simp] theorem setByteIdx_cfg (n : Nat) (s : State) : (setByteIdx n s).cfg = s.cfg := (rfl)
@[simp] theorem setByteIdx_gs (n : Nat) (s : State) : (setByteIdx n s).gs = s.gs := (rfl)
@[simp] theorem setByteIdx_dc (n : Nat) (s : State) : (setByteIdx n s).dc = s.dc := (rfl)
@[simp] theorem setByteIdx_front (n : Nat) (s : State) : (setByteIdx n s).front = s.front := (rfl)
@[simp] theorem setByteIdx_updateReq (n : Nat) (s : State) : (setByteIdx n s).updateReq = s.updateReq := (rfl)
@[simp] theorem setByteIdx_rowCursor (n : Nat) (s : State) : (setByteIdx n s).rowCursor = s.rowCursor := (rfl)
@[simp] theorem setByteIdx_latchPending (n : Nat) (s : State) : (setByteIdx n s).latchPending = s.latchPending := (rfl)
@[simp] theorem setByteIdx_phase (n : Nat) (s : State) : (setByteIdx n s).phase = s.phase := (rfl)
@[simp] theorem setByteIdx_byteIdx (n : Nat) (s : State) : (setByteIdx n s).byteIdx = n := (rfl)
@[simp] theorem setByteIdx_bitCnt (n : Nat) (s : State) : (setByteIdx n s).bitCnt = s.bitCnt := (rfl)
@[simp] theorem setByteIdx_sr (n : Nat) (s : State) : (setByteIdx n s).sr = s.sr := (rfl)
@[simp] theorem setByteIdx_resp (n : Nat) (s : State) : (setByteIdx n s).resp = s.resp := (rfl)
@[simp] theorem setByteIdx_pins (n : Nat) (s : State) : (setByteIdx n s).pins = s.pins := (rfl)
@[simp] theorem setByteIdx_cmdDone (n : Nat) (s : State) : (setByteIdx n s).cmdDone = s.cmdDone := (rfl)
@[simp] theorem setByteIdx_wire (n : Nat) (s : State) : (setByteIdx n s).wire = s.wire := (rfl)
@[simp] theorem setByteIdx_inputs (n : Nat) (s : State) : (setByteIdx n s).inputs = s.inputs := (rfl)
@[simp] theorem setByteIdx_epoch (n : Nat) (s : State) : (setByteIdx n s).epoch = s.epoch := (rfl)

/-! The bit count. -/

@[simp] theorem setBitCnt_cfg (n : Fin 8) (s : State) : (setBitCnt n s).cfg = s.cfg := (rfl)
@[simp] theorem setBitCnt_gs (n : Fin 8) (s : State) : (setBitCnt n s).gs = s.gs := (rfl)
@[simp] theorem setBitCnt_dc (n : Fin 8) (s : State) : (setBitCnt n s).dc = s.dc := (rfl)
@[simp] theorem setBitCnt_front (n : Fin 8) (s : State) : (setBitCnt n s).front = s.front := (rfl)
@[simp] theorem setBitCnt_updateReq (n : Fin 8) (s : State) : (setBitCnt n s).updateReq = s.updateReq := (rfl)
@[simp] theorem setBitCnt_rowCursor (n : Fin 8) (s : State) : (setBitCnt n s).rowCursor = s.rowCursor := (rfl)
@[simp] theorem setBitCnt_latchPending (n : Fin 8) (s : State) : (setBitCnt n s).latchPending = s.latchPending := (rfl)
@[simp] theorem setBitCnt_phase (n : Fin 8) (s : State) : (setBitCnt n s).phase = s.phase := (rfl)
@[simp] theorem setBitCnt_byteIdx (n : Fin 8) (s : State) : (setBitCnt n s).byteIdx = s.byteIdx := (rfl)
@[simp] theorem setBitCnt_bitCnt (n : Fin 8) (s : State) : (setBitCnt n s).bitCnt = n := (rfl)
@[simp] theorem setBitCnt_sr (n : Fin 8) (s : State) : (setBitCnt n s).sr = s.sr := (rfl)
@[simp] theorem setBitCnt_resp (n : Fin 8) (s : State) : (setBitCnt n s).resp = s.resp := (rfl)
@[simp] theorem setBitCnt_pins (n : Fin 8) (s : State) : (setBitCnt n s).pins = s.pins := (rfl)
@[simp] theorem setBitCnt_cmdDone (n : Fin 8) (s : State) : (setBitCnt n s).cmdDone = s.cmdDone := (rfl)
@[simp] theorem setBitCnt_wire (n : Fin 8) (s : State) : (setBitCnt n s).wire = s.wire := (rfl)
@[simp] theorem setBitCnt_inputs (n : Fin 8) (s : State) : (setBitCnt n s).inputs = s.inputs := (rfl)
@[simp] theorem setBitCnt_epoch (n : Fin 8) (s : State) : (setBitCnt n s).epoch = s.epoch := (rfl)

/-! The shift register. -/

@[simp] theorem setSr_cfg (b : Byte) (s : State) : (setSr b s).cfg = s.cfg := (rfl)
@[simp] theorem setSr_gs (b : Byte) (s : State) : (setSr b s).gs = s.gs := (rfl)
@[simp] theorem setSr_dc (b : Byte) (s : State) : (setSr b s).dc = s.dc := (rfl)
@[simp] theorem setSr_front (b : Byte) (s : State) : (setSr b s).front = s.front := (rfl)
@[simp] theorem setSr_updateReq (b : Byte) (s : State) : (setSr b s).updateReq = s.updateReq := (rfl)
@[simp] theorem setSr_rowCursor (b : Byte) (s : State) : (setSr b s).rowCursor = s.rowCursor := (rfl)
@[simp] theorem setSr_latchPending (b : Byte) (s : State) : (setSr b s).latchPending = s.latchPending := (rfl)
@[simp] theorem setSr_phase (b : Byte) (s : State) : (setSr b s).phase = s.phase := (rfl)
@[simp] theorem setSr_byteIdx (b : Byte) (s : State) : (setSr b s).byteIdx = s.byteIdx := (rfl)
@[simp] theorem setSr_bitCnt (b : Byte) (s : State) : (setSr b s).bitCnt = s.bitCnt := (rfl)
@[simp] theorem setSr_sr (b : Byte) (s : State) : (setSr b s).sr = b := (rfl)
@[simp] theorem setSr_resp (b : Byte) (s : State) : (setSr b s).resp = s.resp := (rfl)
@[simp] theorem setSr_pins (b : Byte) (s : State) : (setSr b s).pins = s.pins := (rfl)
@[simp] theorem setSr_cmdDone (b : Byte) (s : State) : (setSr b s).cmdDone = s.cmdDone := (rfl)
@[simp] theorem setSr_wire (b : Byte) (s : State) : (setSr b s).wire = s.wire := (rfl)
@[simp] theorem setSr_inputs (b : Byte) (s : State) : (setSr b s).inputs = s.inputs := (rfl)
@[simp] theorem setSr_epoch (b : Byte) (s : State) : (setSr b s).epoch = s.epoch := (rfl)

end Sys2Proof.Machine
end

