-- ==== Sys2Proof/Laws/Transport.lean ====
section
/-! SUPPORT. What the pin writes and the transport do, each said once: their wire events, and nothing else but the
shifter's registers and the pins. -/

namespace Sys2Proof.Machine

/-- `s` after wire events `es`: the pins replayed, the trace extended, nothing else changed. -/
theorem emitAll_eq (es : List WireEvent) (s : State) :
    emitAll es s = { s with pins := s.pins.replay es, wire := s.wire ++ es } := by
  induction es generalizing s with
  | nil => simp [emitAll, Pins.replay]
  | cons e es ih =>
    rw [emitAll, ih]
    simp [emit, Pins.replay]

theorem emitAll_append (es fs : List WireEvent) (s : State) : emitAll (es ++ fs) s = emitAll fs (emitAll es s) := by
  induction es generalizing s with
  | nil => rfl
  | cons e es ih => exact ih (emit e s)

theorem emitAll_setBitCnt (es : List WireEvent) (c : Fin 8) (s : State) :
    emitAll es (setBitCnt c s) = setBitCnt c (emitAll es s) := by
  induction es generalizing s with
  | nil => rfl
  | cons e es ih => exact ih (emit e s)

theorem Pins.replay_append (ps : Pins) (es fs : List WireEvent) :
    ps.replay (es ++ fs) = (ps.replay es).replay fs := by
  simp [Pins.replay]

@[simp] theorem emitAll_cfg (es : List WireEvent) (s : State) : (emitAll es s).cfg = s.cfg := by rw [emitAll_eq]
@[simp] theorem emitAll_gs (es : List WireEvent) (s : State) : (emitAll es s).gs = s.gs := by rw [emitAll_eq]
@[simp] theorem emitAll_dc (es : List WireEvent) (s : State) : (emitAll es s).dc = s.dc := by rw [emitAll_eq]
@[simp] theorem emitAll_front (es : List WireEvent) (s : State) : (emitAll es s).front = s.front := by rw [emitAll_eq]
@[simp] theorem emitAll_sr (es : List WireEvent) (s : State) : (emitAll es s).sr = s.sr := by rw [emitAll_eq]
@[simp] theorem emitAll_epoch (es : List WireEvent) (s : State) : (emitAll es s).epoch = s.epoch := by rw [emitAll_eq]
@[simp] theorem emitAll_wire (es : List WireEvent) (s : State) : (emitAll es s).wire = s.wire ++ es := by
  rw [emitAll_eq]
@[simp] theorem emitAll_pins (es : List WireEvent) (s : State) : (emitAll es s).pins = s.pins.replay es := by
  rw [emitAll_eq]

/-- ShiftByte: its 24 events, `sr` the byte, `bit_cnt` 7, nothing else (43_transport R165, R167). -/
theorem shiftByte_eq (b : Byte) (s : State) :
    shiftByte b s = setBitCnt 7 (emitAll (shiftEvents b) (setSr b s)) := rfl

/-- `transmit` (43_transport R165, R166): its events, the shifter's registers when bit-banged, nothing else. -/
theorem transmit_eq (b : Byte) (s : State) :
    transmit b s =
      emitAll (transmitEvents s.cfg b) (if s.cfg.bitBanged then setBitCnt 7 (setSr b s) else s) := by
  unfold transmit transmitEvents
  split
  · rw [shiftByte_eq, emitAll_setBitCnt]
  · rfl

/-- What a state keeps through transmissions: everything but `sr`, `bit_cnt`, the pins and the wire. -/
theorem transmit_frame (b : Byte) (s : State) :
    transmit b s = { s with
      sr := (transmit b s).sr, bitCnt := (transmit b s).bitCnt, pins := (transmit b s).pins,
      wire := (transmit b s).wire } := by
  rw [transmit_eq, emitAll_eq]
  split <;> rfl

@[simp] theorem transmit_cfg (b : Byte) (s : State) : (transmit b s).cfg = s.cfg := by rw [transmit_frame]
@[simp] theorem transmit_front (b : Byte) (s : State) : (transmit b s).front = s.front := by rw [transmit_frame]
@[simp] theorem transmit_wire (b : Byte) (s : State) :
    (transmit b s).wire = s.wire ++ transmitEvents s.cfg b := by rw [transmit_eq]; split <;> simp
@[simp] theorem transmit_pins (b : Byte) (s : State) :
    (transmit b s).pins = s.pins.replay (transmitEvents s.cfg b) := by rw [transmit_eq]; split <;> simp
@[simp] theorem transmit_gsByte (b : Byte) (s : State) (p : Bool) (r j : Nat) :
    (transmit b s).gsByte p r j = s.gsByte p r j := by rw [transmit_frame]; rfl
@[simp] theorem transmit_dcByte (b : Byte) (s : State) (j : Nat) : (transmit b s).dcByte j = s.dcByte j := by
  rw [transmit_frame]; rfl

/-- A list of bytes, one `transmit` after the other. -/
def transmitAll (bs : List Byte) (s : State) : State := bs.foldl (fun t b => transmit b t) s

theorem sendGsFrom_eq (r n j : Nat) (s : State) :
    sendGsFrom r n j s = transmitAll ((List.range' j n).map (s.gsByte s.front r)) s := by
  induction n generalizing j s with
  | zero => rfl
  | succ n ih =>
    rw [sendGsFrom, ih]
    simp only [List.range'_succ, List.map_cons, transmitAll, List.foldl_cons, transmit_front]
    congr 2
    funext k
    simp

/-- The transmission of a row: its bytes in index order (42_refresh_engine R144). -/
theorem sendGs_eq (r : Nat) (s : State) : sendGs r s = transmitAll (s.rowBytes s.front r) s := by
  rw [sendGs, sendGsFrom_eq, State.rowBytes, List.range_eq_range']

theorem sendDcFrom_eq (n j : Nat) (s : State) :
    sendDcFrom n j s = transmitAll ((List.range' j n).map s.dcByte) s := by
  induction n generalizing j s with
  | zero => rfl
  | succ n ih =>
    rw [sendDcFrom, ih]
    simp only [List.range'_succ, List.map_cons, transmitAll, List.foldl_cons]
    congr 2
    funext k
    simp

/-- The transmission of the dot-correction buffer (43_transport R172). -/
theorem sendDc_eq (s : State) : sendDc s = transmitAll s.dcBytes s := by
  rw [sendDc, sendDcFrom_eq, State.dcBytes, List.range_eq_range']

theorem transmitAll_touches (bs : List Byte) (s : State) :
    ∃ sr bitCnt pins wire,
      transmitAll bs s = { s with sr := sr, bitCnt := bitCnt, pins := pins, wire := wire } := by
  induction bs generalizing s with
  | nil => exact ⟨s.sr, s.bitCnt, s.pins, s.wire, rfl⟩
  | cons b bs ih =>
    obtain ⟨sr, bc, ps, w, h⟩ := ih (transmit b s)
    refine ⟨sr, bc, ps, w, ?_⟩
    rw [show transmitAll (b :: bs) s = transmitAll bs (transmit b s) from rfl, h, transmit_frame b s]

/-- What a state keeps through the transmission of any bytes. -/
theorem transmitAll_frame (bs : List Byte) (s : State) :
    transmitAll bs s = { s with
      sr := (transmitAll bs s).sr, bitCnt := (transmitAll bs s).bitCnt, pins := (transmitAll bs s).pins,
      wire := (transmitAll bs s).wire } := by
  obtain ⟨sr, bc, ps, w, h⟩ := transmitAll_touches bs s
  rw [h]

@[simp] theorem transmitAll_cfg (bs : List Byte) (s : State) : (transmitAll bs s).cfg = s.cfg := by
  rw [transmitAll_frame]

@[simp] theorem transmitAll_wire (bs : List Byte) (s : State) :
    (transmitAll bs s).wire = s.wire ++ bs.flatMap (transmitEvents s.cfg) := by
  induction bs generalizing s with
  | nil => simp [transmitAll]
  | cons b bs ih =>
    have h := ih (transmit b s)
    simpa [transmitAll] using h

@[simp] theorem transmitAll_pins (bs : List Byte) (s : State) :
    (transmitAll bs s).pins = s.pins.replay (bs.flatMap (transmitEvents s.cfg)) := by
  induction bs generalizing s with
  | nil => rfl
  | cons b bs ih =>
    have h := ih (transmit b s)
    simpa [transmitAll, Pins.replay] using h

/-- The pins after one byte: the clock low, the data pin the byte's last bit, when bit-banged (43_transport R169). -/
theorem replay_shiftEvents (ps : Pins) (b : Byte) :
    ps.replay (shiftEvents b) = { ps with clkOut := false, dataOut := byteBit b 0 } := rfl

theorem replay_transmitEvents (c : Config) (ps : Pins) (b : Byte) :
    ps.replay (transmitEvents c b) =
      if c.bitBanged then { ps with clkOut := false, dataOut := byteBit b 0 } else ps := by
  unfold transmitEvents
  split <;> rfl

/-- A transmission leaves the pins other than the clock and the data pin as they were (43_transport R165). -/
theorem replay_bytes (c : Config) (bs : List Byte) (ps : Pins) :
    let t := ps.replay (bs.flatMap (transmitEvents c))
    t.blank = ps.blank ∧ t.latch = ps.latch ∧ t.rowSel = ps.rowSel ∧ t.progSel = ps.progSel := by
  induction bs generalizing ps with
  | nil => exact ⟨rfl, rfl, rfl, rfl⟩
  | cons b bs ih =>
    rw [List.flatMap_cons, Pins.replay_append, replay_transmitEvents]
    obtain ⟨h1, h2, h3, h4⟩ := ih (if c.bitBanged then { ps with clkOut := false, dataOut := byteBit b 0 } else ps)
    refine ⟨h1.trans ?_, h2.trans ?_, h3.trans ?_, h4.trans ?_⟩ <;> split <;> rfl

/-- 24 events a byte when bit-banged (43_transport R167). -/
theorem length_bytes (c : Config) (bs : List Byte) (h : c.bitBanged = true) :
    (bs.flatMap (transmitEvents c)).length = 24 * bs.length := by
  induction bs with
  | nil => rfl
  | cons b bs ih =>
    have e : (transmitEvents c b).length = 24 := by rw [transmitEvents, if_pos h]; rfl
    rw [List.flatMap_cons, List.length_append, ih, e, List.length_cons]
    omega

/-! Transmissions commute with the sequencer's position. -/

theorem emitAll_goto (es : List WireEvent) (p : Phase) (s : State) : emitAll es (goto p s) = goto p (emitAll es s) := by
  induction es generalizing s with
  | nil => rfl
  | cons e es ih => exact ih (emit e s)

theorem emitAll_setByteIdx (es : List WireEvent) (n : Nat) (s : State) :
    emitAll es (setByteIdx n s) = setByteIdx n (emitAll es s) := by
  induction es generalizing s with
  | nil => rfl
  | cons e es ih => exact ih (emit e s)

theorem transmit_goto (b : Byte) (p : Phase) (s : State) : transmit b (goto p s) = goto p (transmit b s) := by
  rw [transmit_eq, transmit_eq, ← emitAll_goto, goto_cfg]
  split <;> rfl

theorem transmit_setByteIdx (b : Byte) (n : Nat) (s : State) :
    transmit b (setByteIdx n s) = setByteIdx n (transmit b s) := by
  rw [transmit_eq, transmit_eq, ← emitAll_setByteIdx, setByteIdx_cfg]
  split <;> rfl

theorem transmitAll_cons (b : Byte) (bs : List Byte) (s : State) :
    transmitAll (b :: bs) s = transmitAll bs (transmit b s) := rfl

theorem transmitAll_goto (bs : List Byte) (p : Phase) (s : State) :
    transmitAll bs (goto p s) = goto p (transmitAll bs s) := by
  induction bs generalizing s with
  | nil => rfl
  | cons b bs ih => rw [transmitAll_cons, transmit_goto, ih, transmitAll_cons]

theorem transmitAll_setByteIdx (bs : List Byte) (n : Nat) (s : State) :
    transmitAll bs (setByteIdx n s) = setByteIdx n (transmitAll bs s) := by
  induction bs generalizing s with
  | nil => rfl
  | cons b bs ih => rw [transmitAll_cons, transmit_setByteIdx, ih, transmitAll_cons]

/-- `bit_cnt` before a bit-banged byte does not matter. -/
theorem transmit_setBitCnt (b : Byte) (c : Fin 8) (s : State) (h : s.cfg.bitBanged = true) :
    transmit b (setBitCnt c s) = transmit b s := by
  rw [transmit_eq, transmit_eq, setBitCnt_cfg, if_pos h, if_pos h]
  rfl

@[simp] theorem transmit_phase (b : Byte) (s : State) : (transmit b s).phase = s.phase := by rw [transmit_frame]
@[simp] theorem transmit_byteIdx (b : Byte) (s : State) : (transmit b s).byteIdx = s.byteIdx := by rw [transmit_frame]
@[simp] theorem transmit_rowCursor (b : Byte) (s : State) : (transmit b s).rowCursor = s.rowCursor := by
  rw [transmit_frame]

/-- A bit-banged byte leaves `bit_cnt` at 7 (43_transport R167). -/
theorem transmit_bitCnt (b : Byte) (s : State) :
    (transmit b s).bitCnt = if s.cfg.bitBanged then 7 else s.bitCnt := by
  rw [transmit_eq, emitAll_eq]
  split <;> rfl

theorem transmitAll_bitCnt (bs : List Byte) (s : State) (h : s.bitCnt = 7) : (transmitAll bs s).bitCnt = 7 := by
  induction bs generalizing s with
  | nil => exact h
  | cons b bs ih => rw [transmitAll_cons]; apply ih; rw [transmit_bitCnt]; split <;> trivial

@[simp] theorem transmitAll_phase (bs : List Byte) (s : State) : (transmitAll bs s).phase = s.phase := by
  rw [transmitAll_frame]
@[simp] theorem transmitAll_byteIdx (bs : List Byte) (s : State) : (transmitAll bs s).byteIdx = s.byteIdx := by
  rw [transmitAll_frame]

end Sys2Proof.Machine
end

