-- ==== Sys2Proof/Laws/Engine.lean ====
section
/-! SUPPORT. The sequencer's micro-steps gathered: what the steps of one bit and of one byte amount to. -/

namespace Sys2Proof.Machine

theorem microSteps_add (m n : Nat) (s : State) : microSteps (m + n) s = microSteps n (microSteps m s) := by
  induction m generalizing s with
  | zero => rw [Nat.zero_add]; rfl
  | succ m ih => rw [Nat.succ_add]; exact ih (microStep s)

/-! The register updates of the sequencer commute with the wire and with each other, each by definition. -/

theorem clockBit_goto (k : Nat) (p : Phase) (s : State) : clockBit k (goto p s) = goto p (clockBit k s) := rfl
theorem clockBit_setBitCnt (k : Nat) (c : Fin 8) (s : State) :
    clockBit k (setBitCnt c s) = setBitCnt c (clockBit k s) := rfl
theorem goto_goto (p q : Phase) (s : State) : goto p (goto q s) = goto p s := rfl
theorem setBitCnt_setBitCnt (c d : Fin 8) (s : State) : setBitCnt c (setBitCnt d s) = setBitCnt c s := rfl

theorem clockBits_goto (n : Nat) (p : Phase) (s : State) : clockBits n (goto p s) = goto p (clockBits n s) := by
  induction n generalizing s with
  | zero => rfl
  | succ n ih => rw [clockBits, clockBit_goto, ih]; rfl

theorem clockBits_setBitCnt (n : Nat) (c : Fin 8) (s : State) :
    clockBits n (setBitCnt c s) = setBitCnt c (clockBits n s) := by
  induction n generalizing s with
  | zero => rfl
  | succ n ih => rw [clockBits, clockBit_setBitCnt, ih]; rfl

theorem nextByte_goto (p : Phase) (s : State) : nextByte (goto p s) = nextByte s := rfl

/-- The three micro-steps of one bit (42_refresh_engine R150) are one `clockBit`, then the next bit or the next byte. -/
theorem microSteps_bit (s : State) (h : s.phase = .bitSetup) :
    microSteps 3 s =
      if 0 < s.bitCnt.val then goto .bitSetup (setBitCnt (s.bitCnt - 1) (clockBit s.bitCnt.val s))
      else nextByte (clockBit s.bitCnt.val s) := by
  have h1 : microStep s = goto .clkHi (writePin .dataOut (byteBit s.sr s.bitCnt.val) s) := by
    rw [microStep, h]; rfl
  have h2 : microStep (microStep s) =
      goto .clkLo (writePin .clkOut true (writePin .dataOut (byteBit s.sr s.bitCnt.val) s)) := by
    rw [h1]; rfl
  have h3 : microSteps 3 s = phaseClkLo (microStep (microStep s)) := by
    rw [show microSteps 3 s = microStep (microStep (microStep s)) from rfl, h2]; rfl
  rw [h3, h2, phaseClkLo]
  simp only [goto_bitCnt, writePin_bitCnt]
  split
  · rfl
  · rfl

/-- The micro-steps of the bits `k`, .., 0 of a byte. -/
theorem microSteps_bits (k : Nat) (hk : k < 8) (s : State) (h : s.phase = .bitSetup) (hc : s.bitCnt = ⟨k, hk⟩) :
    microSteps (3 * (k + 1)) s = nextByte (setBitCnt 0 (clockBits (k + 1) s)) := by
  induction k generalizing s with
  | zero =>
    rw [show 3 * (0 + 1) = 3 from rfl, microSteps_bit s h, hc, if_neg (by simp)]
    have e : setBitCnt 0 s = s := by
      rw [show (0 : Fin 8) = s.bitCnt from hc.symm]; rfl
    change nextByte (clockBit 0 s) = nextByte (clockBit 0 (setBitCnt 0 s))
    rw [e]
  | succ k ih =>
    rw [show 3 * (k + 1 + 1) = 3 + 3 * (k + 1) by omega, microSteps_add, microSteps_bit s h, hc,
      if_pos (Nat.succ_pos k)]
    have e : (⟨k + 1, hk⟩ : Fin 8) - 1 = ⟨k, by omega⟩ := by
      apply Fin.ext
      simp only [Fin.sub_def]
      omega
    rw [e, ih (by omega) _ rfl rfl, clockBits_goto, clockBits_setBitCnt]
    rfl

/-- The micro-steps of one byte of a transmission under a configuration (42_refresh_engine R156, log 12). -/
def byteSteps (c : Config) : Nat := if c.bitBanged then 25 else 1

/-- The micro-steps of one byte are one `transmit` of the byte LOAD reads, and the next byte (42_refresh_engine R155). -/
theorem microSteps_byte (s : State) (h : s.phase = .load) :
    microSteps (byteSteps s.cfg) s =
      nextByte (if s.cfg.bitBanged then setBitCnt 0 (transmit s.loadByte s) else transmit s.loadByte s) := by
  unfold byteSteps
  cases hb : s.cfg.bitBanged
  · simp only [Bool.false_eq_true, if_false]
    rw [show microSteps 1 s = microStep s from rfl, microStep, h]
    simp only [phaseLoad, transmit, hb, Bool.false_eq_true, if_false]
  · simp only [if_true]
    have h1 : microStep s = goto .bitSetup (setBitCnt 7 (setSr s.loadByte s)) := by
      rw [microStep, h]
      simp only [phaseLoad, hb, if_true]
    rw [show microSteps 25 s = microSteps (3 * (7 + 1)) (microStep s) from rfl, h1,
      microSteps_bits 7 (by omega) _ rfl rfl, clockBits_goto, clockBits_setBitCnt]
    simp only [transmit, hb, if_true, shiftByte]
    rfl

/-- What the micro-steps of a byte leave `bit_cnt` at: 0 when bit-banged (42_refresh_engine R150, CLK_LO). -/
def endByte (s : State) : State := if s.cfg.bitBanged then setBitCnt 0 s else s

@[simp] theorem endByte_cfg (s : State) : (endByte s).cfg = s.cfg := by unfold endByte; split <;> rfl
@[simp] theorem endByte_front (s : State) : (endByte s).front = s.front := by unfold endByte; split <;> rfl
@[simp] theorem endByte_byteIdx (s : State) : (endByte s).byteIdx = s.byteIdx := by unfold endByte; split <;> rfl
@[simp] theorem endByte_rowCursor (s : State) : (endByte s).rowCursor = s.rowCursor := by unfold endByte; split <;> rfl
@[simp] theorem endByte_gsByte (s : State) (p : Bool) (r j : Nat) : (endByte s).gsByte p r j = s.gsByte p r j := by
  unfold endByte; split <;> rfl

theorem transmit_endByte (b : Byte) (s : State) : transmit b (endByte s) = transmit b s := by
  unfold endByte
  split
  · exact transmit_setBitCnt b 0 s ‹_›
  · rfl

theorem transmitAll_endByte (b : Byte) (bs : List Byte) (s : State) :
    transmitAll (b :: bs) (endByte s) = transmitAll (b :: bs) s := by
  rw [transmitAll_cons, transmitAll_cons, transmit_endByte]

/-- The bytes of a transmission from byte `j` on. -/
def bytesFrom (s : State) (j n : Nat) : List Byte := (List.range' j n).map (s.gsByte s.front s.sendRow)

/-- One byte of a transmission, as one update. -/
theorem microSteps_loadByte (s : State) (h : s.phase = .load) :
    microSteps (byteSteps s.cfg) s = nextByte (endByte (transmit s.loadByte s)) := by
  rw [microSteps_byte s h, endByte, transmit_cfg]

/-- The micro-steps of the bytes that are left, from a LOAD to DONE (42_refresh_engine R155). -/
theorem microSteps_buffer (n : Nat) (s : State) (h : s.phase = .load) (hl : s.byteIdx + (n + 1) = s.cfg.gsLen) :
    microSteps ((n + 1) * byteSteps s.cfg) s =
      goto .done (setByteIdx (s.byteIdx + n) (endByte (transmitAll (bytesFrom s s.byteIdx (n + 1)) s))) := by
  induction n generalizing s with
  | zero =>
    rw [Nat.zero_add, Nat.one_mul, microSteps_loadByte s h, nextByte, if_neg (by simp; omega)]
    have e : bytesFrom s s.byteIdx 1 = [s.loadByte] := rfl
    rw [e, transmitAll_cons]
    have : setByteIdx (s.byteIdx + 0) (endByte (transmitAll [] (transmit s.loadByte s))) = endByte (transmit s.loadByte s) := by
      have : s.byteIdx + 0 = (endByte (transmit s.loadByte s)).byteIdx := by simp
      rw [this]; rfl
    rw [this]
  | succ n ih =>
    rw [show (n + 1 + 1) * byteSteps s.cfg = byteSteps s.cfg + (n + 1) * byteSteps s.cfg by ring, microSteps_add,
      microSteps_loadByte s h, nextByte, if_pos (by simp; omega)]
    set u := endByte (transmit s.loadByte s) with hu
    have hb : (endByte (transmit s.loadByte s)).byteIdx = s.byteIdx := by simp
    have hc : u.cfg = s.cfg := by simp [hu]
    have ih' := ih (goto .load (setByteIdx (u.byteIdx + 1) u)) rfl (by simp [hu]; omega)
    rw [goto_cfg, setByteIdx_cfg, hc] at ih'
    rw [ih']
    have hbs : bytesFrom (goto .load (setByteIdx (u.byteIdx + 1) u)) (s.byteIdx + 1) (n + 1) = bytesFrom s (s.byteIdx + 1) (n + 1) := by
      unfold bytesFrom
      apply List.map_congr_left
      intro j _
      change u.gsByte u.front u.sendRow j = _
      have : u.sendRow = s.sendRow := by simp [hu, State.sendRow]
      rw [this]
      simp [hu]
    have hi : (goto .load (setByteIdx (u.byteIdx + 1) u)).byteIdx = s.byteIdx + 1 := by simp [hu]
    rw [hi, hbs, transmitAll_goto, transmitAll_setByteIdx]
    have hcons : bytesFrom s s.byteIdx (n + 1 + 1) = s.loadByte :: bytesFrom s (s.byteIdx + 1) (n + 1) := rfl
    have hcons' : bytesFrom s (s.byteIdx + 1) (n + 1) = s.gsByte s.front s.sendRow (s.byteIdx+1) :: bytesFrom s (s.byteIdx + 1 + 1) n := rfl
    rw [hcons, transmitAll_cons, hu, hcons', transmitAll_endByte, show s.byteIdx + 1 + n = s.byteIdx + (n + 1) by omega]
    generalize transmitAll _ _ = x
    unfold endByte
    simp only [goto_cfg, setByteIdx_cfg]
    split <;> rfl
/-- Every micro-step leaves the configuration, the outside world's events, `cmd_done` and the draw of the memories. -/
theorem microStep_outside (s : State) :
    (microStep s).cfg = s.cfg ∧ (microStep s).inputs = s.inputs ∧ (microStep s).cmdDone = s.cmdDone ∧
      (microStep s).epoch = s.epoch := by
  unfold microStep
  cases s.phase <;> refine ⟨?_, ?_, ?_, ?_⟩ <;>
    simp only [phaseBlankOn, phaseRowOff, phaseLatchHi, phaseLatchLo, phaseRowOn, phaseHold, phaseBlankOff,
      phaseAdvance, phaseLoad, phaseBitSetup, phaseClkHi, phaseClkLo, phaseDone, nextByte, boundaryTest,
      returnToIdle, deassertRow, assertRow] <;>
    (repeat' split) <;> rfl

/-- A run of one step more: the step, then the rest. -/
theorem runsTo_step {n : Nat} {s u t : State} (h : step s = .next u) : RunsTo (n + 1) s t ↔ RunsTo n u t := by
  have e : Sys2Proof.core.run (n + 1) s = Sys2Proof.core.run n u := by
    have h' : Sys2Proof.core.step s = .next u := h
    rw [Host.Core.run.eq_2 Sys2Proof.core s n, h']
  unfold RunsTo
  rw [e]

/-- With nothing presented and `cmd_done` low, steps are micro-steps. -/
theorem runsTo_microSteps (n : Nat) (s : State) (hi : s.inputs = []) (hc : s.cmdDone = false) :
    RunsTo n s (microSteps n s) := by
  induction n generalizing s with
  | zero => rfl
  | succ n ih =>
    have h : step s = .next (microStep s) := by
      have e : s.consume [] = s := by unfold State.consume; rw [← hi, ← hc]
      rw [step, hi]
      simp only [e]
    obtain ⟨_, h2, h3, _⟩ := microStep_outside s
    exact (runsTo_step h).2 (ih (microStep s) (h2.trans hi) (h3.trans hc))

theorem boundaryTest_goto (p : Phase) (s : State) : boundaryTest (goto p s) = goto p (boundaryTest s) := by
  unfold boundaryTest State.atBoundary
  simp only [goto_cfg, goto_rowCursor, goto_updateReq]
  split <;> rfl

theorem advanceCursor_goto (p : Phase) (s : State) : advanceCursor (goto p s) = goto p (advanceCursor s) := rfl

theorem phaseAdvance_goto (p : Phase) (s : State) :
    phaseAdvance (goto p s) = goto .load (setByteIdx 0 (boundaryTest (advanceCursor s))) := by
  rw [phaseAdvance, advanceCursor_goto, boundaryTest_goto]
  rfl

theorem advanceCursor_plain (s : State) (hm : s.cfg.mux = false) : advanceCursor s = s := by
  unfold advanceCursor
  rw [hm]
  rfl

/-! Each phase of the pulse and of the end of a tick, from any state put in that phase (42_refresh_engine R150). -/

theorem microStep_blankOn_mux (s : State) (h : s.cfg.mux = true) :
    microStep (goto .blankOn s) = goto .rowOff (writePin .blank true s) := by
  change phaseBlankOn (goto .blankOn s) = _
  simp only [phaseBlankOn, goto_cfg, h]
  rfl
theorem microStep_blankOn_owed (s : State) (h : s.cfg.mux = false) (hl : s.latchPending = true) :
    microStep (goto .blankOn s) = goto .latchHi (writePin .blank true s) := by
  change phaseBlankOn (goto .blankOn s) = _
  simp only [phaseBlankOn, goto_cfg, goto_latchPending, h, hl]
  rfl
theorem microStep_blankOn_plain (s : State) (h : s.cfg.mux = false) (hl : s.latchPending = false) :
    microStep (goto .blankOn s) = goto .hold (writePin .blank true s) := by
  change phaseBlankOn (goto .blankOn s) = _
  simp only [phaseBlankOn, goto_cfg, goto_latchPending, h, hl]
  rfl
theorem microStep_rowOff (s : State) : microStep (goto .rowOff s) = goto .latchHi (deassertRow s) := rfl
theorem microStep_latchHi (s : State) : microStep (goto .latchHi s) = goto .latchLo (writePin .latch true s) := rfl
theorem microStep_latchLo_mux (s : State) (h : s.cfg.mux = true) :
    microStep (goto .latchLo s) = goto .rowOn (writePin .latch false s) := by
  change phaseLatchLo (goto .latchLo s) = _
  simp only [phaseLatchLo, goto_cfg, h]
  rfl
theorem microStep_latchLo_plain (s : State) (h : s.cfg.mux = false) :
    microStep (goto .latchLo s) = goto .hold (clearLatchPending (writePin .latch false s)) := by
  change phaseLatchLo (goto .latchLo s) = _
  simp only [phaseLatchLo, goto_cfg, h]
  rfl
theorem microStep_rowOn (s : State) : microStep (goto .rowOn s) = goto .hold (assertRow s) := rfl
theorem microStep_hold (s : State) : microStep (goto .hold s) = goto .blankOff s := rfl
theorem microStep_blankOff (s : State) : microStep (goto .blankOff s) = goto .advance (writePin .blank false s) := rfl
theorem microStep_advance (s : State) :
    microStep (goto .advance s) = goto .load (setByteIdx 0 (boundaryTest (advanceCursor s))) :=
  phaseAdvance_goto .advance s
theorem microStep_done (s : State) :
    microStep (goto .done s) = goto .idle (setBitCnt 7 (setByteIdx 0 (if s.cfg.mux then s else setLatchPending s))) := by
  change phaseDone (goto .done s) = _
  simp only [phaseDone, returnToIdle, goto_cfg]
  split <;> rfl

theorem microSteps_succ (n : Nat) (s : State) : microSteps (n + 1) s = microSteps n (microStep s) := rfl

/-- In IDLE the engine changes nothing, however often it steps (42_refresh_engine R151). -/
theorem microSteps_idle (n : Nat) (s : State) (h : s.phase = .idle) : microSteps n s = s := by
  induction n with
  | zero => rfl
  | succ n ih => rw [microSteps_succ, microStep, h]; exact ih

/-- A run of micro-steps that is not in IDLE has not been there before. -/
theorem microSteps_not_idle_of_le {m n : Nat} (s : State) (hmn : m ≤ n) (h : (microSteps n s).phase ≠ .idle) :
    (microSteps m s).phase ≠ .idle := by
  intro hi
  apply h
  obtain ⟨k, rfl⟩ := Nat.exists_eq_add_of_le hmn
  rw [microSteps_add, microSteps_idle k _ hi]; exact hi

/-- The micro-steps of a tick up to its first byte, not `mux`. -/
theorem microSteps_pulsePlain (s : State) (hm : s.cfg.mux = false) :
    microSteps (if s.latchPending then 6 else 4) (goto .blankOn s) =
      goto .load (setByteIdx 0 (boundaryTest (pulsePlain s))) := by
  cases hl : s.latchPending
  · simp only [Bool.false_eq_true, if_false, microSteps_succ]
    rw [microStep_blankOn_plain s hm hl, microStep_hold, microStep_blankOff, microStep_advance,
      advanceCursor_plain _ (by exact hm), pulsePlain, hl]
    rfl
  · simp only [if_true, microSteps_succ]
    rw [microStep_blankOn_owed s hm hl, microStep_latchHi, microStep_latchLo_plain _ (by exact hm), microStep_hold,
      microStep_blankOff, microStep_advance, advanceCursor_plain _ (by exact hm), pulsePlain, hl]
    rfl

/-- The micro-steps of a tick up to its first byte, `mux`. -/
theorem microSteps_pulseMux (s : State) (hm : s.cfg.mux = true) :
    microSteps 8 (goto .blankOn s) = goto .load (setByteIdx 0 (boundaryTest (advanceCursor (pulseMux s)))) := by
  simp only [microSteps_succ]
  rw [microStep_blankOn_mux s hm, microStep_rowOff, microStep_latchHi, microStep_latchLo_mux _ (by exact hm),
    microStep_rowOn, microStep_hold, microStep_blankOff, microStep_advance]
  rfl

/-! What the parts of a tick leave alone. -/

@[simp] theorem boundaryTest_cfg (s : State) : (boundaryTest s).cfg = s.cfg := by
  unfold boundaryTest
  split <;> rfl
@[simp] theorem boundaryTest_phase (s : State) : (boundaryTest s).phase = s.phase := by
  unfold boundaryTest
  split <;> rfl
@[simp] theorem boundaryTest_byteIdx (s : State) : (boundaryTest s).byteIdx = s.byteIdx := by
  unfold boundaryTest
  split <;> rfl
@[simp] theorem boundaryTest_bitCnt (s : State) : (boundaryTest s).bitCnt = s.bitCnt := by
  unfold boundaryTest
  split <;> rfl
@[simp] theorem pulsePlain_cfg (s : State) : (pulsePlain s).cfg = s.cfg := by unfold pulsePlain; split <;> simp [toggleLatch]
@[simp] theorem pulsePlain_phase (s : State) : (pulsePlain s).phase = s.phase := by unfold pulsePlain; split <;> simp [toggleLatch]
@[simp] theorem pulsePlain_byteIdx (s : State) : (pulsePlain s).byteIdx = s.byteIdx := by unfold pulsePlain; split <;> simp [toggleLatch]
@[simp] theorem pulsePlain_bitCnt (s : State) : (pulsePlain s).bitCnt = s.bitCnt := by unfold pulsePlain; split <;> simp [toggleLatch]
@[simp] theorem pulseMux_cfg (s : State) : (pulseMux s).cfg = s.cfg := by simp [pulseMux, deassertRow, assertRow, toggleLatch]
@[simp] theorem pulseMux_phase (s : State) : (pulseMux s).phase = s.phase := by simp [pulseMux, deassertRow, assertRow, toggleLatch]
@[simp] theorem pulseMux_byteIdx (s : State) : (pulseMux s).byteIdx = s.byteIdx := by simp [pulseMux, deassertRow, assertRow, toggleLatch]
@[simp] theorem pulseMux_bitCnt (s : State) : (pulseMux s).bitCnt = s.bitCnt := by simp [pulseMux, deassertRow, assertRow, toggleLatch]

/-- Updates that write what is there already. -/
theorem goto_setBitCnt_setByteIdx_self (s : State) (p : Phase) (n : Nat) (c : Fin 8) (h1 : s.phase = p) (h2 : s.byteIdx = n)
    (h3 : s.bitCnt = c) : goto p (setBitCnt c (setByteIdx n s)) = s := by
  subst h1 h2 h3
  rfl

/-- From the first LOAD of a transmission to IDLE: the buffer sent, the return from the tick (42_refresh_engine R156,
60_exceptions R198). -/
theorem microSteps_transmission (u : State) (hb : u.byteIdx = 0) (hg : 1 ≤ u.cfg.gsLen) :
   microSteps (u.cfg.gsLen * byteSteps u.cfg + 1) (goto .load (setByteIdx 0 u)) =
    goto .idle (setBitCnt 7 (setByteIdx 0 (if u.cfg.mux then sendGs u.sendRow u else setLatchPending (sendGs u.sendRow u)))) := by
  obtain ⟨n, hn⟩ : ∃ n, u.cfg.gsLen = n + 1 := ⟨u.cfg.gsLen - 1, by omega⟩
  have e0 : setByteIdx 0 u = u := by rw [← hb]; rfl
  rw [e0]
  have := microSteps_buffer n (goto .load u) rfl (by rw [goto_byteIdx, goto_cfg, hb, hn, Nat.zero_add])
  rw [goto_cfg, goto_byteIdx, hb] at this
  rw [microSteps_add, hn, this]
  have hbs : bytesFrom (goto .load u) 0 (n + 1) = u.rowBytes u.front u.sendRow := by
    unfold bytesFrom State.rowBytes
    rw [hn, List.range_eq_range']; rfl
  rw [hbs, transmitAll_goto, sendGs_eq]
  rw [microSteps_succ, microStep_done]
  generalize hx : transmitAll _ _ = x
  have hc : x.cfg = u.cfg := by rw [← hx]; simp
  have : (setByteIdx (0+n) (endByte (goto .load x))).cfg.mux = u.cfg.mux := by rw [setByteIdx_cfg, endByte_cfg, goto_cfg, hc]
  rw [this]
  unfold endByte
  split <;> split <;> rfl

/-! One whole tick as one update: its events on the wire, then the buffer sent, over the handoff of the tick. -/

/-- The boundary test, each register's new value (42_refresh_engine R143). -/
theorem boundaryTest_eq (s : State) :
    boundaryTest s = { s with
      front := if s.atBoundary && s.updateReq then !s.front else s.front
      updateReq := !s.atBoundary && s.updateReq } := by
  unfold boundaryTest
  split
  · simp_all [pageFlip]
  · have e : (!s.atBoundary && s.updateReq) = s.updateReq := by
      revert ‹¬_›; cases s.atBoundary <;> cases s.updateReq <;> decide
    rw [e]

/-- The pulse when not `mux`: its events, and no pulse owed any more (42_refresh_engine R137). -/
theorem pulsePlain_eq (s : State) :
    pulsePlain s = emitAll ([.pin .blank true] ++
      (if s.latchPending = true then [.pin .latch true, .pin .latch false] else []) ++ [.pin .blank false])
      { s with latchPending := false } := by
  cases hl : s.latchPending
  · have e : { s with latchPending := false } = s := by rw [← hl]
    rw [e, pulsePlain, hl]; rfl
  · rw [pulsePlain, hl]; rfl

/-- The pulse when `mux`: its events (42_refresh_engine R138). -/
theorem pulseMux_eq (s : State) :
    let off := s.pins.rowSel &&& ~~~rowTab s.cfg.multiplexRows (2 * s.rowCursor)
    pulseMux s = emitAll
      [.pin .blank true, .rowSel off, .pin .latch true, .pin .latch false,
        .rowSel (off ||| rowTab s.cfg.multiplexRows (2 * s.rowCursor + 1)), .pin .blank false] s := rfl

/-- The tick when not `mux` (42_refresh_engine R137). -/
theorem tickOperation_plain (s : State) (hm : s.cfg.mux = false) :
    let u := boundaryTest { s with latchPending := false }
    tickOperation s = setLatchPending (transmitAll (s.rowBytes u.front 0) (emitAll ([.pin .blank true] ++
      (if s.latchPending = true then [.pin .latch true, .pin .latch false] else []) ++ [.pin .blank false]) u)) := by
  intro u
  have e : boundaryTest (pulsePlain s) = emitAll ([.pin .blank true] ++
      (if s.latchPending = true then [.pin .latch true, .pin .latch false] else []) ++ [.pin .blank false]) u := by
    rw [pulsePlain_eq, emitAll_eq, emitAll_eq]; simp only [u, boundaryTest_eq]; rfl
  rw [tickOperation, hm, if_neg (by simp), sendGs_eq, e, emitAll_front]
  congr 2
  rw [emitAll_eq]
  simp only [u, boundaryTest_eq]; rfl

/-- The tick when `mux` (42_refresh_engine R138). -/
theorem tickOperation_mux (s : State) (hm : s.cfg.mux = true) :
    let off := s.pins.rowSel &&& ~~~rowTab s.cfg.multiplexRows (2 * s.rowCursor)
    let u := boundaryTest (advanceCursor s)
    tickOperation s = transmitAll (s.rowBytes u.front u.rowCursor) (emitAll
      [.pin .blank true, .rowSel off, .pin .latch true, .pin .latch false,
        .rowSel (off ||| rowTab s.cfg.multiplexRows (2 * s.rowCursor + 1)), .pin .blank false] u) := by
  intro off u
  have e : boundaryTest (advanceCursor (pulseMux s)) = emitAll
      [.pin .blank true, .rowSel off, .pin .latch true, .pin .latch false,
        .rowSel (off ||| rowTab s.cfg.multiplexRows (2 * s.rowCursor + 1)), .pin .blank false] u := by
    rw [pulseMux_eq, emitAll_eq, emitAll_eq]; simp only [u, boundaryTest_eq]; rfl
  rw [tickOperation, if_pos hm, sendGs_eq, e, emitAll_front]
  congr 1
  rw [emitAll_eq]
  simp only [u, boundaryTest_eq]; rfl

end Sys2Proof.Machine
end

