-- ==== Sys2Proof/Laws/Memory.lean ====
section
/-! SUPPORT. The laws of the byte spaces: read after write, canonical form, and what PutBits and GetBits do to the
stream bits of a buffer. -/

namespace Sys2Proof.Machine

theorem Memory.find_write (m : Memory) (a b : Nat) (v : Byte) :
    (m.write a v).find b = if b = a then some v else m.find b := by
  induction m with
  | nil => simp [Memory.write, Memory.find]
  | cons cell rest ih =>
    obtain ⟨c, w⟩ := cell
    rw [Memory.write]
    by_cases h1 : a < c
    · rw [if_pos h1]
      by_cases hb : b = a <;> simp [Memory.find, hb]
    · rw [if_neg h1]
      by_cases h2 : a = c
      · rw [if_pos h2]
        by_cases hb : b = a <;> simp [Memory.find, hb, ← h2]
      · rw [if_neg h2]
        by_cases hc : b = c
        · have : ¬ c = a := fun h => h2 h.symm
          simp [Memory.find, hc, this]
        · simp [Memory.find, hc, ih]

theorem Memory.read_write (draw : Nat → Byte) (m : Memory) (a b : Nat) (v : Byte) :
    (m.write a v).read draw b = if b = a then v else m.read draw b := by
  unfold Memory.read
  rw [Memory.find_write]
  split_ifs <;> simp

theorem Memory.mem_write {m : Memory} {a : Nat} {v : Byte} {cell : Host.Cell} (h : cell ∈ m.write a v) :
    cell = (a, v) ∨ cell ∈ m := by
  induction m with
  | nil => simpa [Memory.write] using h
  | cons head rest ih =>
    obtain ⟨b, w⟩ := head
    simp only [Memory.write] at h
    split_ifs at h with h1 h2
    · simpa using h
    · rcases List.mem_cons.1 h with h | h
      · exact .inl h
      · exact .inr (List.mem_cons_of_mem _ h)
    · rcases List.mem_cons.1 h with h | h
      · exact .inr (h ▸ List.mem_cons_self)
      · rcases ih h with h | h
        · exact .inl h
        · exact .inr (List.mem_cons_of_mem _ h)

/-- The keys of a write are the old keys and the key written. -/
theorem Memory.key_of_write {m : Memory} {a k : Nat} {v : Byte} (h : k ∈ (m.write a v).map Prod.fst) :
    k = a ∨ k ∈ m.map Prod.fst := by
  obtain ⟨cell, hc, rfl⟩ := List.mem_map.1 h
  rcases Memory.mem_write hc with h | h
  · exact .inl (by rw [h])
  · exact .inr (List.mem_map_of_mem h)

/-- A write keeps the canonical form. -/
theorem Memory.write_wf {m : Memory} (a : Nat) (v : Byte) (h : m.wf) : (m.write a v).wf := by
  induction m with
  | nil => simp [Memory.write, Memory.wf]
  | cons head rest ih =>
    obtain ⟨b, w⟩ := head
    simp only [Memory.wf, List.map_cons, List.pairwise_cons] at h ih ⊢
    obtain ⟨hb, hr⟩ := h
    simp only [Memory.write]
    split_ifs with h1 h2
    · simp only [List.map_cons, List.pairwise_cons, List.mem_cons]
      refine ⟨?_, hb, hr⟩
      rintro k (rfl | hk)
      · exact h1
      · exact lt_trans h1 (hb k hk)
    · subst h2
      simpa using ⟨fun k => by simpa using hb k, hr⟩
    · simp only [List.map_cons, List.pairwise_cons]
      refine ⟨fun k hk => ?_, ih hr⟩
      rcases Memory.key_of_write hk with rfl | hk
      · omega
      · exact hb k hk

/-! ### One stream bit -/

theorem byteBit_merge (old : Byte) (n : Nat) (hn : n < 8) (bit : Bool) (k : Nat) (hk : k < 8) :
    byteBit ((old &&& ~~~(1#8 <<< n)) ||| (if bit then 1#8 <<< n else 0)) k
      = if k = n then bit else byteBit old k := by
  unfold byteBit
  by_cases h : k = n
  · subst h
    cases bit <;> simp [hk]
  · have h1 : (1#8 <<< n).getLsbD k = false := by
      rw [BitVec.getLsbD_shiftLeft, BitVec.getLsbD_one]
      simp only [hk, decide_true, Bool.true_and, Bool.and_eq_false_imp]
      intro hkn
      simp at hkn ⊢
      omega
    have h2 : (~~~(1#8 <<< n)).getLsbD k = true := by
      rw [BitVec.getLsbD_not, h1]
      simp [hk]
    rw [BitVec.getLsbD_or, BitVec.getLsbD_and, h2, if_neg h]
    cases bit
    · simp
    · rw [if_pos rfl, h1]
      simp

/-- The read of any byte after PutBits' turn on stream bit `k`. -/
theorem read_putBit (draw : Nat → Byte) (m : Memory) (base k : Nat) (bit : Bool) (a : Nat) :
    (putBit draw m base k bit).read draw a =
      if a = base + k / 8 then
        (m.read draw a &&& ~~~(1#8 <<< (7 - k % 8))) ||| (if bit then 1#8 <<< (7 - k % 8) else 0)
      else m.read draw a := by
  unfold putBit
  rw [Memory.read_write]
  by_cases h : a = base + k / 8 <;> simp only [h, if_true, if_false]

/-- PutBits' turn changes exactly one stream bit of its buffer (20_memory R58). -/
theorem streamBit_putBit (draw : Nat → Byte) (m : Memory) (base k : Nat) (bit : Bool) (j : Nat) :
    streamBit draw (putBit draw m base k bit) base j = if j = k then bit else streamBit draw m base j := by
  unfold streamBit
  rw [read_putBit]
  by_cases hb : base + j / 8 = base + k / 8
  · rw [if_pos hb, byteBit_merge _ _ (by omega) _ _ (by omega)]
    by_cases hj : j = k
    · simp [hj]
    · have : ¬ 7 - j % 8 = 7 - k % 8 := by omega
      simp [hj, this]
  · have : ¬ j = k := fun h => hb (by rw [h])
    rw [if_neg hb, if_neg this]

/-! ### PutBits -/

theorem streamBit_putBitsLoop (draw : Nat → Byte) (m : Memory) (base off W v n j : Nat) :
    streamBit draw (putBitsLoop draw m base off W v n) base j =
      if off ≤ j ∧ j < off + n then v.testBit (W - 1 - (j - off)) else streamBit draw m base j := by
  induction n with
  | zero => rw [if_neg (by omega)]; rfl
  | succ n ih =>
    rw [putBitsLoop, streamBit_putBit, ih]
    by_cases hj : j = off + n
    · subst hj
      rw [if_pos rfl, if_pos (by omega), Nat.add_sub_cancel_left]
    · rw [if_neg hj]
      by_cases h : off ≤ j ∧ j < off + n
      · rw [if_pos h, if_pos (by omega)]
      · rw [if_neg h, if_neg (by omega)]

/-- PutBits writes the field's stream bits, the value's most significant bit first, and no other (20_memory R58). -/
theorem streamBit_putBits (draw : Nat → Byte) (m : Memory) (base off W v j : Nat) :
    streamBit draw (putBits draw m base off W v) base j =
      if off ≤ j ∧ j < off + W then v.testBit (W - 1 - (j - off)) else streamBit draw m base j :=
  streamBit_putBitsLoop draw m base off W v W j

/-- PutBits leaves every byte outside the field's bytes as it was. -/
theorem read_putBits_outside (draw : Nat → Byte) (m : Memory) (base off W v a : Nat)
    (h : ∀ t < W, a ≠ base + (off + t) / 8) : (putBits draw m base off W v).read draw a = m.read draw a := by
  suffices ∀ n ≤ W, (putBitsLoop draw m base off W v n).read draw a = m.read draw a from this W le_rfl
  intro n hn
  induction n with
  | zero => rfl
  | succ n ih => rw [putBitsLoop, read_putBit, if_neg (h n (by omega)), ih (by omega)]

theorem putBitsLoop_wf {m : Memory} (draw : Nat → Byte) (base off W v n : Nat) (h : m.wf) :
    (putBitsLoop draw m base off W v n).wf := by
  induction n with
  | zero => exact h
  | succ n ih => exact Memory.write_wf _ _ ih

/-- PutBits keeps the canonical form. -/
theorem putBits_wf {m : Memory} (draw : Nat → Byte) (base off W v : Nat) (h : m.wf) :
    (putBits draw m base off W v).wf := putBitsLoop_wf draw base off W v W h

/-- The keys PutBits lists: the old ones and those of the field's bytes. -/
theorem key_of_putBits {m : Memory} {draw : Nat → Byte} {base off W v k : Nat}
    (h : k ∈ (putBits draw m base off W v).map Prod.fst) :
    (∃ t < W, k = base + (off + t) / 8) ∨ k ∈ m.map Prod.fst := by
  suffices ∀ n ≤ W, k ∈ (putBitsLoop draw m base off W v n).map Prod.fst →
      (∃ t < W, k = base + (off + t) / 8) ∨ k ∈ m.map Prod.fst from this W le_rfl h
  intro n hn
  induction n with
  | zero => exact .inr
  | succ n ih =>
    intro h
    rcases Memory.key_of_write h with h | h
    · exact .inl ⟨n, by omega, h⟩
    · exact ih (by omega) h

/-! ### GetBits -/

/-- GetBits depends on the field's stream bits alone (20_memory R57). -/
theorem getBits_congr {draw draw' : Nat → Byte} {m m' : Memory} {base base' off W : Nat}
    (h : ∀ t < W, streamBit draw m base (off + t) = streamBit draw' m' base' (off + t)) :
    getBits draw m base off W = getBits draw' m' base' off W := by
  induction W with
  | zero => rfl
  | succ W ih => rw [getBits, getBits, ih (fun t ht => h t (by omega)), h W (by omega)]

theorem getBits_lt (draw : Nat → Byte) (m : Memory) (base off W : Nat) :
    getBits draw m base off W < 2 ^ W := by
  induction W with
  | zero => simp [getBits]
  | succ W ih =>
    rw [getBits, pow_succ]
    have := Bool.toNat_le (streamBit draw m base (off + W))
    omega

/-- GetBits of a field whose stream bits spell the top `n` of the `W` bits of `v`. -/
theorem getBits_eq_div (draw : Nat → Byte) (m : Memory) (base off W v : Nat) (hv : v < 2 ^ W) (n : Nat) (hn : n ≤ W)
    (h : ∀ t < n, streamBit draw m base (off + t) = v.testBit (W - 1 - t)) :
    getBits draw m base off n = v / 2 ^ (W - n) := by
  induction n with
  | zero => simp [getBits, Nat.div_eq_of_lt hv]
  | succ n ih =>
    rw [getBits, ih (by omega) (fun t ht => h t (by omega)), h n (by omega)]
    have e : W - n = (W - (n + 1)) + 1 := by omega
    rw [e, pow_succ, ← Nat.div_div_eq_div_mul, Nat.testBit_eq_decide_div_mod_eq,
      show W - 1 - n = W - (n + 1) by omega]
    have := Nat.mod_two_eq_zero_or_one (v / 2 ^ (W - (n + 1)))
    rcases this with h0 | h0 <;> simp [h0] <;> omega

/-- GetBits of a field whose stream bits spell `v` is `v`. -/
theorem getBits_eq (draw : Nat → Byte) (m : Memory) (base off W v : Nat) (hv : v < 2 ^ W)
    (h : ∀ t < W, streamBit draw m base (off + t) = v.testBit (W - 1 - t)) :
    getBits draw m base off W = v := by
  simpa using getBits_eq_div draw m base off W v hv W le_rfl h

/-! ### Fields and bytes -/

theorem getBits_putBits (draw : Nat → Byte) (m : Memory) (base off W v : Nat) (h : v < 2 ^ W) :
    getBits draw (putBits draw m base off W v) base off W = v := by
  apply getBits_eq _ _ _ _ _ _ h
  intro t ht
  rw [streamBit_putBits, if_pos (by omega)]
  congr 1
  omega

theorem getBits_putBits_disjoint (draw : Nat → Byte) (m : Memory) (base off off' W v : Nat)
    (h : off' + W ≤ off ∨ off + W ≤ off') :
    getBits draw (putBits draw m base off W v) base off' W = getBits draw m base off' W := by
  apply getBits_congr
  intro t ht
  rw [streamBit_putBits, if_neg (by omega)]

/-- Bit `W-1-t` of a field is its `t`-th stream bit (20_memory R57). -/
theorem getBits_testBit (draw : Nat → Byte) (m : Memory) (base off W t : Nat) (h : t < W) :
    (getBits draw m base off W).testBit (W - 1 - t) = streamBit draw m base (off + t) := by
  induction W generalizing t with
  | zero => omega
  | succ W ih =>
    rw [getBits]
    by_cases hw : t = W
    · subst hw
      rw [show t + 1 - 1 - t = 0 by omega]
      cases streamBit draw m base (off + t) <;> simp [Nat.testBit_zero]
    · rw [show W + 1 - 1 - t = (W - 1 - t) + 1 by omega, Nat.testBit_succ, ← ih t (by omega)]
      congr 1
      cases streamBit draw m base (off + W) <;> simp
      omega

/-- A bit of a byte, as a stream bit (20_memory R56). -/
theorem getLsbD_read (draw : Nat → Byte) (m : Memory) (base j k : Nat) (hk : k < 8) :
    (m.read draw (base + j)).getLsbD k = streamBit draw m base (8 * j + (7 - k)) := by
  unfold streamBit byteBit
  rw [show (8 * j + (7 - k)) / 8 = j by omega, show 7 - (8 * j + (7 - k)) % 8 = k by omega]

/-- What byte `j` of a buffer becomes by PutBits, given by its bits. -/
theorem read_putBits (draw : Nat → Byte) (m : Memory) (base off W v j : Nat) (b : Byte)
    (h : ∀ k < 8,
      (if off ≤ 8 * j + (7 - k) ∧ 8 * j + (7 - k) < off + W then v.testBit (W - 1 - (8 * j + (7 - k) - off))
        else (m.read draw (base + j)).getLsbD k) = b.getLsbD k) :
    (putBits draw m base off W v).read draw (base + j) = b := by
  apply BitVec.eq_of_getLsbD_eq
  intro k hk
  rw [getLsbD_read _ _ _ _ _ hk, streamBit_putBits, ← getLsbD_read _ _ _ _ _ hk]
  exact h k hk

/-- The fields of two channels do not meet (30_encoding R75). -/
theorem fieldOffset_disjoint (cfg : Config) (w c c' : Nat) (h : c < cfg.numChannels) (h' : c' < cfg.numChannels)
    (hn : c' ≠ c) :
    fieldOffset cfg w c' + w ≤ fieldOffset cfg w c ∨ fieldOffset cfg w c + w ≤ fieldOffset cfg w c' := by
  unfold fieldOffset channelRev
  rcases Nat.lt_or_gt_of_ne hn with h1 | h1
  · right
    calc w * (cfg.numChannels - 1 - c) + w = w * (cfg.numChannels - 1 - c + 1) := by ring
      _ ≤ _ := Nat.mul_le_mul_left _ (by omega)
  · left
    calc w * (cfg.numChannels - 1 - c') + w = w * (cfg.numChannels - 1 - c' + 1) := by ring
      _ ≤ _ := Nat.mul_le_mul_left _ (by omega)

theorem le_maxGS (cfg : Config) (v : Nat) : v ≤ cfg.maxGS ↔ v < 2 ^ cfg.pwmBits := by
  unfold Config.maxGS
  have := Nat.two_pow_pos cfg.pwmBits
  omega

/-! ### Keys of the pages -/

theorem gsKey_inj {p q : Bool} {r r' j j' : Nat} (hr : r < 8) (hr' : r' < 8) (hj : j < 8192) (hj' : j' < 8192)
    (h : gsKey p r j = gsKey q r' j') : p = q ∧ r = r' ∧ j = j' := by
  unfold gsKey gsBase at h
  cases p <;> cases q <;> simp at h <;> simp <;> omega

end Sys2Proof.Machine
end

