-- ==== Sys2Proof/Laws/Exec.lean ====
section
/-! SUPPORT. When each command answers a next state and which, and the cases of a step: proofs cite these instead of
unfolding `exec` and `step`. -/

namespace Sys2Proof.Machine

theorem checked_next {i : Instr} {s t : State} {act : State → Host.Outcome State Fault Refusal} :
    checked i s act = .next t ↔ i.available s.cfg = true ∧ i.inRange s.cfg = true ∧ act s = .next t := by
  unfold checked
  split_ifs <;> simp_all

theorem whenNotPending_next {i : Instr} {s t : State} {act : State → Host.Outcome State Fault Refusal} :
    whenNotPending i s act = .next t ↔ s.updateReq = false ∧ act s = .next t := by
  unfold whenNotPending
  split_ifs <;> simp_all

theorem exec_init_next {s t : State} :
    exec .init s = .next t ↔ s.busy = false ∧ emitAll (initEvents s.cfg) (initRegisters s) = t := by
  simp only [exec, execInit]
  split_ifs with h <;> simp_all

theorem exec_setgs_next {row : BitVec 3} {chan val : BitVec 12} {s t : State} :
    exec (.setgs row chan val) s = .next t ↔
      (Instr.setgs row chan val).inRange s.cfg = true ∧ s.updateReq = false ∧
        { s with gs := encodeGS s.cfg s.gsDraw s.gs (gsBase s.back row.toNat) chan.toNat val.toNat } = t := by
  simp [exec, execSetgs, checked_next, whenNotPending_next, Instr.available]

theorem exec_setallgs_next {val : BitVec 12} {s t : State} :
    exec (.setallgs val) s = .next t ↔
      (Instr.setallgs val).inRange s.cfg = true ∧ s.updateReq = false ∧
        { s with gs := fillRows s.cfg s.gsDraw s.back val.toNat s.cfg.nRows s.gs } = t := by
  simp [exec, execSetallgs, checked_next, whenNotPending_next, Instr.available]

theorem exec_getgs_next {row : BitVec 3} {chan : BitVec 12} {s t : State} :
    exec (.getgs row chan) s = .next t ↔
      (Instr.getgs row chan).inRange s.cfg = true ∧ respond (s.gsValue s.back row.toNat chan.toNat) s = t := by
  simp [exec, execGetgs, checked_next, Instr.available]

theorem exec_setdc_next {chan val : BitVec 12} {s t : State} :
    exec (.setdc chan val) s = .next t ↔
      s.cfg.includeDotCorrection = true ∧ (Instr.setdc chan val).inRange s.cfg = true ∧
        { s with dc := encodeDC s.cfg s.dcDraw s.dc chan.toNat val.toNat } = t := by
  simp [exec, execSetdc, checked_next, Instr.available]

theorem exec_setalldc_next {val : BitVec 12} {s t : State} :
    exec (.setalldc val) s = .next t ↔
      s.cfg.includeDotCorrection = true ∧ (Instr.setalldc val).inRange s.cfg = true ∧
        { s with dc := fillDC s.cfg s.dcDraw val.toNat s.cfg.numChannels s.dc } = t := by
  simp [exec, execSetalldc, checked_next, Instr.available]

theorem exec_getdc_next {chan : BitVec 12} {s t : State} :
    exec (.getdc chan) s = .next t ↔
      s.cfg.includeDotCorrection = true ∧ (Instr.getdc chan).inRange s.cfg = true ∧
        respond (s.dcValue chan.toNat) s = t := by
  simp [exec, execGetdc, checked_next, Instr.available]

theorem exec_commit_next {s t : State} : exec .commit s = .next t ↔ setUpdateReq s = t := by
  simp [exec, execCommit]

theorem exec_pending_next {s t : State} : exec .pending s = .next t ↔ respond s.updateReq.toNat s = t := by
  simp [exec, execPending]

theorem exec_gamma_next {idx : BitVec 8} {s t : State} :
    exec (.gamma idx) s = .next t ↔
      s.cfg.includeGammaCorrection = true ∧ respond (gammaEntry s.cfg idx.toNat) s = t := by
  simp [exec, execGamma, checked_next, Instr.available, Instr.inRange]

/-- CLOCKINDC's wire events (43_transport R172). -/
theorem clockindc_effect (s : State) :
    writePin .progSel false (toggleLatch (sendDc (writePin .progSel true s))) =
      emitAll [.pin .latch true, .pin .latch false, .pin .progSel false]
        (transmitAll s.dcBytes (emitAll [.pin .progSel true] s)) := by
  rw [sendDc_eq]
  rfl

theorem exec_clockindc_next {s t : State} :
    exec .clockindc s = .next t ↔
      s.cfg.hasProgSel = true ∧ s.busy = false ∧
        emitAll [.pin .latch true, .pin .latch false, .pin .progSel false]
          (transmitAll s.dcBytes (emitAll [.pin .progSel true] s)) = t := by
  simp only [exec, execClockindc, checked_next, Instr.available, Instr.inRange, clockindc_effect]
  split_ifs with h <;> simp_all

/-- What a command that answers a next state can have done: one of these shapes, whichever command it is. -/
theorem exec_next_cases {i : Instr} {s t : State} (h : exec i s = .next t) :
    (∃ gs, t = { s with gs := gs }) ∨ (∃ dc, t = { s with dc := dc }) ∨ (∃ n, t = respond n s) ∨
      t = setUpdateReq s ∨
      (i = .init ∧ s.busy = false ∧ t = emitAll (initEvents s.cfg) (initRegisters s)) ∨
      (i = .clockindc ∧ s.busy = false ∧ t = emitAll [.pin .latch true, .pin .latch false, .pin .progSel false]
          (transmitAll s.dcBytes (emitAll [.pin .progSel true] s))) := by
  cases i with
  | init => obtain ⟨h1, h2⟩ := exec_init_next.1 h; exact .inr (.inr (.inr (.inr (.inl ⟨rfl, h1, h2.symm⟩))))
  | setgs row chan val => exact .inl ⟨_, (exec_setgs_next.1 h).2.2.symm⟩
  | setallgs val => exact .inl ⟨_, (exec_setallgs_next.1 h).2.2.symm⟩
  | getgs row chan => exact .inr (.inr (.inl ⟨_, (exec_getgs_next.1 h).2.symm⟩))
  | setdc chan val => exact .inr (.inl ⟨_, (exec_setdc_next.1 h).2.2.symm⟩)
  | setalldc val => exact .inr (.inl ⟨_, (exec_setalldc_next.1 h).2.2.symm⟩)
  | getdc chan => exact .inr (.inr (.inl ⟨_, (exec_getdc_next.1 h).2.2.symm⟩))
  | commit => exact .inr (.inr (.inr (.inl (exec_commit_next.1 h).symm)))
  | pending => exact .inr (.inr (.inl ⟨_, (exec_pending_next.1 h).symm⟩))
  | gamma idx => exact .inr (.inr (.inl ⟨_, (exec_gamma_next.1 h).2.symm⟩))
  | clockindc => obtain ⟨h0, h1, h2⟩ := exec_clockindc_next.1 h; exact .inr (.inr (.inr (.inr (.inr ⟨rfl, h1, h2.symm⟩))))

theorem completeCommand_next {r : Host.Outcome State Fault Refusal} {t : State} :
    completeCommand r = .next t ↔ ∃ u, r = .next u ∧ t = { u with cmdDone := true } := by
  cases r <;> simp [completeCommand, eq_comm]

theorem runCommand_next {w : Word} {s t : State} :
    runCommand w s = .next t ↔
      ∃ i u, decode w = .ok i ∧ exec i s = .next u ∧ t = { u with cmdDone := true } := by
  unfold runCommand
  cases h : decode w with
  | error why => simp
  | ok i => simp [completeCommand_next]

theorem takeTick_next {s t : State} :
    takeTick s = .next t ↔ s.phase = .idle ∧ t = goto .blankOn s := by
  unfold takeTick State.busy
  by_cases h : s.phase = .idle
  · simpa [h] using eq_comm
  · simp [h]

/-- What a step that answers a next state can have done: a micro-step, an `rst`, a tick taken, or a command. -/
theorem step_next_cases {s t : State} (h : step s = .next t) :
    (∃ rest, t = microStep (s.consume rest)) ∨
      (∃ rest, s.inputs = .rst :: rest ∧ t = takeRst (s.consume rest)) ∨
      (∃ rest, s.inputs = .tick :: rest ∧ s.phase = .idle ∧ t = goto .blankOn (s.consume rest)) ∨
      (∃ w rest i u, s.inputs = .cmd w :: rest ∧ decode w = .ok i ∧ exec i (s.consume rest) = .next u ∧
        t = { u with cmdDone := true }) := by
  unfold step at h
  split at h
  · exact .inl ⟨[], by simpa using h.symm⟩
  · exact .inl ⟨_, by simpa using h.symm⟩
  · exact .inr (.inl ⟨_, ‹_›, by simpa using h.symm⟩)
  · obtain ⟨h1, h2⟩ := takeTick_next.1 h
    exact .inr (.inr (.inl ⟨_, ‹_›, h1, h2⟩))
  · obtain ⟨i, u, h1, h2, h3⟩ := runCommand_next.1 h
    exact .inr (.inr (.inr ⟨_, _, i, u, ‹_›, h1, h2, h3⟩))

/-- A poll of WAITCOMMIT: it goes on in every phase, and writes `resp` and `cmd_done` alone. -/
theorem present_pending (s : State) :
    s.present (.cmd (encode .pending)) =
      .next { respond s.updateReq.toNat s with cmdDone := true } := rfl

/-- Events in two parts. -/
theorem presentAll_append (es fs : List Input) {s t : State} (h : s.presentAll es = .next t) :
    s.presentAll (es ++ fs) = t.presentAll fs := by
  induction es generalizing s with
  | nil =>
    obtain rfl : s = t := by simpa [State.presentAll] using h
    rfl
  | cons e es ih =>
    rw [State.presentAll] at h
    rw [List.cons_append, State.presentAll]
    cases hp : s.present e with
    | next u =>
      rw [hp] at h
      exact ih h
    | fault f => simp [hp] at h
    | refused x => simp [hp] at h

end Sys2Proof.Machine
end

