-- ==== Sys2Proof/Laws/Observe.lean ====
section
/-! SUPPORT. Reading a trace in two parts, and what the events of a byte show (spec 43_transport R170, 20_memory R64). -/

namespace Sys2Proof.Machine

theorem Pins.replay_cons (ps : Pins) (e : WireEvent) (es : List WireEvent) :
    ps.replay (e :: es) = (ps.after e).replay es := rfl

theorem bitsFrom_append (ps : Pins) (es fs : List WireEvent) :
    bitsFrom ps (es ++ fs) = bitsFrom ps es ++ bitsFrom (ps.replay es) fs := by
  induction es generalizing ps with
  | nil => rfl
  | cons e es ih => rw [List.cons_append, bitsFrom, bitsFrom, ih, List.append_assoc, Pins.replay_cons]

theorem latchesFrom_append (ps : Pins) (n : Nat) (es fs : List WireEvent) :
    latchesFrom ps n (es ++ fs) =
      latchesFrom ps n es ++ latchesFrom (ps.replay es) (n + (bitsFrom ps es).length) fs := by
  induction es generalizing ps n with
  | nil => rfl
  | cons e es ih =>
    rw [List.cons_append, latchesFrom, latchesFrom, ih, List.append_assoc, Pins.replay_cons, bitsFrom,
      List.length_append, Nat.add_assoc]

theorem clockEdgesFrom_append (ps : Pins) (es fs : List WireEvent) :
    clockEdgesFrom ps (es ++ fs) = clockEdgesFrom ps es ++ clockEdgesFrom (ps.replay es) fs := by
  induction es generalizing ps with
  | nil => rfl
  | cons e es ih => rw [List.cons_append, clockEdgesFrom, clockEdgesFrom, ih, List.append_assoc, Pins.replay_cons]

theorem receive_append (c : Config) (ps : Pins) (r : Receiver) (es fs : List WireEvent) :
    Receiver.receive c ps r (es ++ fs) = Receiver.receive c (ps.replay es) (Receiver.receive c ps r es) fs := by
  induction es generalizing ps r with
  | nil => rfl
  | cons e es ih => rw [List.cons_append, Receiver.receive, ih, Receiver.receive, Pins.replay_cons]

/-- The bits of one byte, under every transport, the clock low before it (43_transport R165). -/
theorem bitsFrom_transmitEvents (c : Config) (ps : Pins) (b : Byte) (h : ps.clkOut = false) :
    bitsFrom ps (transmitEvents c b) = byteBits b := by
  obtain ⟨clk, dat, lat, bl, pr, rs⟩ := ps
  have h : clk = false := h
  subst h
  unfold transmitEvents
  split
  · rfl
  · rfl

/-- The bytes of a transmission, under every transport (43_transport R171). -/
theorem bitsFrom_bytes (c : Config) (bs : List Byte) (ps : Pins) (h : ps.clkOut = false) :
    bitsFrom ps (bs.flatMap (transmitEvents c)) = bs.flatMap byteBits := by
  induction bs generalizing ps with
  | nil => rfl
  | cons b bs ih =>
    rw [List.flatMap_cons, bitsFrom_append, bitsFrom_transmitEvents c ps b h, List.flatMap_cons]
    congr 1
    apply ih
    rw [replay_transmitEvents]
    split
    · rfl
    · exact h

theorem byteOfBits_byteBits (b : Byte) :
    byteOfBits (byteBit b 7) (byteBit b 6) (byteBit b 5) (byteBit b 4) (byteBit b 3) (byteBit b 2) (byteBit b 1)
      (byteBit b 0) = b := by
  revert b
  decide +kernel

theorem groupBytes_byteBits (bs : List Byte) : groupBytes (bs.flatMap byteBits) = bs := by
  induction bs with
  | nil => rfl
  | cons b bs ih =>
    rw [List.flatMap_cons]
    change byteOfBits (byteBit b 7) (byteBit b 6) (byteBit b 5) (byteBit b 4) (byteBit b 3) (byteBit b 2)
      (byteBit b 1) (byteBit b 0) :: groupBytes (bs.flatMap byteBits) = _
    rw [byteOfBits_byteBits, ih]

/-- A byte's events raise no latch edge and are clocked with `latch` as it stands. -/
theorem latchesFrom_transmitEvents (c : Config) (ps : Pins) (n : Nat) (b : Byte) :
    latchesFrom ps n (transmitEvents c b) = [] := by
  unfold transmitEvents
  split
  · rfl
  · rfl

theorem latchesFrom_bytes (c : Config) (bs : List Byte) (ps : Pins) (n : Nat) :
    latchesFrom ps n (bs.flatMap (transmitEvents c)) = [] := by
  induction bs generalizing ps n with
  | nil => rfl
  | cons b bs ih => rw [List.flatMap_cons, latchesFrom_append, latchesFrom_transmitEvents, ih]; rfl

theorem clockEdgesFrom_bytes (c : Config) (bs : List Byte) (ps : Pins) (h : ps.latch = false) :
    ∀ latch ∈ clockEdgesFrom ps (bs.flatMap (transmitEvents c)), latch = false := by
  induction bs generalizing ps with
  | nil => simp [clockEdgesFrom]
  | cons b bs ih =>
    rw [List.flatMap_cons, clockEdgesFrom_append]
    intro latch hl
    rcases List.mem_append.1 hl with hl | hl
    · obtain ⟨clk, dat, lat, bl, pr, rs⟩ := ps
      have h : lat = false := h
      subst h
      unfold transmitEvents at hl
      split at hl
      · cases clk <;>
          simp [clockEdgesFrom, clockEdge, shiftEvents, Pins.after, Pins.set] at hl <;> exact hl
      · simp [clockEdgesFrom, clockEdge] at hl
    · refine ih _ ?_ latch hl
      rw [replay_transmitEvents]
      split
      · exact h
      · exact h

/-! ### The reference receiver -/

/-- A byte's events clock its bits into the shift register and load nothing, the clock low before it. -/
theorem receive_transmitEvents (c : Config) (ps : Pins) (r : Receiver) (b : Byte) (h : ps.clkOut = false) :
    Receiver.receive c ps r (transmitEvents c b) =
      { r with csr := shiftBits c.numChannels ps.progSel r.csr (byteBits b) } := by
  obtain ⟨clk, dat, lat, bl, pr, rs⟩ := ps
  have h : clk = false := h
  subst h
  unfold transmitEvents
  split
  · rfl
  · rfl

/-- A transmission clocks its bytes into the shift register and loads nothing (20_memory R64). -/
theorem receive_bytes (c : Config) (bs : List Byte) (ps : Pins) (r : Receiver) (h : ps.clkOut = false) :
    Receiver.receive c ps r (bs.flatMap (transmitEvents c)) =
      { r with csr := shiftBits c.numChannels ps.progSel r.csr (bs.flatMap byteBits) } := by
  induction bs generalizing ps r with
  | nil => rfl
  | cons b bs ih =>
    rw [List.flatMap_cons, receive_append, receive_transmitEvents c ps r b h, ih]
    · rw [List.flatMap_cons, shiftBits, shiftBits, shiftBits, List.foldl_append, replay_transmitEvents]
      split <;> rfl
    · rw [replay_transmitEvents]
      split
      · rfl
      · exact h

/-- Bits clocked into a register of `width` bits, as a number: what was there, moved up, and the bits below it. -/
theorem foldl_shiftIn (width reg : Nat) (bs : List Bool) :
    bs.foldl (shiftIn width) reg % 2 ^ width =
      (reg * 2 ^ bs.length + bs.foldl (fun n b => 2 * n + b.toNat) 0) % 2 ^ width := by
  have key : ∀ (l : List Bool) (n : Nat),
      l.foldl (fun n b => 2 * n + b.toNat) n = n * 2 ^ l.length + l.foldl (fun n b => 2 * n + b.toNat) 0 := by
    intro l
    induction l with
    | nil => intro n; simp
    | cons b l ih =>
      intro n
      simp only [List.foldl_cons, List.length_cons]
      rw [ih (2 * n + b.toNat), ih (2 * 0 + b.toNat)]
      ring
  induction bs generalizing reg with
  | nil => simp
  | cons b bs ih =>
    have h1 := ih (shiftIn width reg b)
    have h2 := key bs (2 * 0 + b.toNat)
    simp only [List.foldl_cons, List.length_cons]
    rw [h1, h2]
    have h3 : shiftIn width reg b ≡ 2 * reg + b.toNat [MOD 2 ^ width] := Nat.mod_modEq _ _
    refine ((h3.mul_right _).add_right _).trans (by rw [show (2 * reg + b.toNat) * 2 ^ bs.length = reg * 2 ^ (bs.length + 1) + (2 * 0 + b.toNat) * 2 ^ bs.length by ring, Nat.add_assoc])

/-- With `prog_sel = 1` the low 6 bits a channel of the shift register are a shift register of their own, whatever stands
above them (20_memory R64, log 27). -/
theorem shiftBit_dot_correction (channels csr : Nat) (bit : Bool) :
    shiftBit channels true csr bit % 2 ^ (6 * channels) = shiftIn (6 * channels) csr bit := by
  have e : 2 ^ (12 * channels) = 2 ^ (6 * channels) * 2 ^ (6 * channels) := by rw [← pow_add]; congr 1; ring
  rw [shiftBit, if_pos rfl, e, Nat.mod_mul_left_mod, Nat.mul_add_mod, shiftIn, Nat.mod_mod]

theorem shiftBits_dot_correction (channels csr : Nat) (bs : List Bool) :
    shiftBits channels true csr bs % 2 ^ (6 * channels) =
      bs.foldl (shiftIn (6 * channels)) csr % 2 ^ (6 * channels) := by
  have congr : ∀ (l : List Bool) (x y : Nat), x % 2 ^ (6 * channels) = y % 2 ^ (6 * channels) →
      shiftBits channels true x l % 2 ^ (6 * channels) = l.foldl (shiftIn (6 * channels)) y % 2 ^ (6 * channels) := by
    intro l
    induction l with
    | nil => exact fun _ _ h => h
    | cons b l ih =>
      intro x y h
      refine ih _ _ ?_
      rw [shiftBit_dot_correction, shiftIn, shiftIn, Nat.mod_mod, Nat.add_mod, Nat.mul_mod, h, ← Nat.mul_mod,
        ← Nat.add_mod]
  exact congr bs csr csr rfl

end Sys2Proof.Machine
end

