-- ==== Sys2Proof/Laws/PerInstr.lean ====
section
/-! SUPPORT. Statements made for every command, one lemma per constructor: the fields of its encoding. -/

namespace Sys2Proof

/-- Every bit of a word of the one format (30_encoding R78). -/
theorem wordOf_bit (op : BitVec 4) (row : BitVec 3) (chan val : BitVec 12) (k : Nat) :
    (wordOf op row chan val).getLsbD k =
      if k < 12 then val.getLsbD k
      else if k < 24 then chan.getLsbD (k - 12)
      else if k < 25 then false
      else if k < 28 then row.getLsbD (k - 25)
      else op.getLsbD (k - 28) := by
  have h : (wordOf op row chan val).getLsbD k =
      BitVec.getLsbD (w := 4 + 3 + 1 + 12 + 12) (op ++ row ++ 0#1 ++ chan ++ val) k := rfl
  rw [h, BitVec.getLsbD_append, BitVec.getLsbD_append, BitVec.getLsbD_append, BitVec.getLsbD_append]
  by_cases h1 : k < 12
  · simp [h1]
  · by_cases h2 : k < 24
    · simp [h1, h2, show k - 12 < 12 by omega]
    · by_cases h3 : k < 25
      · simp [h1, h2, h3, show ¬ k - 12 < 12 by omega, show k - 12 - 12 < 1 by omega]
      · by_cases h4 : k < 28
        · simp [h1, h2, h3, h4, show ¬ k - 12 < 12 by omega, show ¬ k - 12 - 12 < 1 by omega,
            show k - 12 - 12 - 1 = k - 25 by omega, show k - 25 < 3 by omega]
        · simp [h1, h2, h3, h4, show ¬ k - 12 < 12 by omega, show ¬ k - 12 - 12 < 1 by omega,
            show ¬ k - 12 - 12 - 1 < 3 by omega, show k - 12 - 12 - 1 - 3 = k - 28 by omega]

theorem wordOf_op (op : BitVec 4) (row : BitVec 3) (chan val : BitVec 12) :
    opField (wordOf op row chan val) = op := by
  apply BitVec.eq_of_getLsbD_eq
  intro k hk
  rw [opField, BitVec.getLsbD_extractLsb', wordOf_bit]
  split_ifs <;> simp [hk] <;> omega

theorem wordOf_row (op : BitVec 4) (row : BitVec 3) (chan val : BitVec 12) :
    rowField (wordOf op row chan val) = row := by
  apply BitVec.eq_of_getLsbD_eq
  intro k hk
  rw [rowField, BitVec.getLsbD_extractLsb', wordOf_bit]
  split_ifs <;> simp [hk] <;> omega

theorem wordOf_z (op : BitVec 4) (row : BitVec 3) (chan val : BitVec 12) :
    zField (wordOf op row chan val) = 0 := by
  apply BitVec.eq_of_getLsbD_eq
  intro k hk
  rw [zField, BitVec.getLsbD_extractLsb', wordOf_bit]
  split_ifs <;> simp [hk] <;> omega

theorem wordOf_chan (op : BitVec 4) (row : BitVec 3) (chan val : BitVec 12) :
    chanField (wordOf op row chan val) = chan := by
  apply BitVec.eq_of_getLsbD_eq
  intro k hk
  rw [chanField, BitVec.getLsbD_extractLsb', wordOf_bit]
  split_ifs <;> simp [hk] <;> omega

theorem wordOf_val (op : BitVec 4) (row : BitVec 3) (chan val : BitVec 12) :
    valField (wordOf op row chan val) = val := by
  apply BitVec.eq_of_getLsbD_eq
  intro k hk
  rw [valField, BitVec.getLsbD_extractLsb', wordOf_bit]
  split_ifs <;> simp [hk] <;> omega

/-- A command's word carries its operation code (30_encoding R80) and `z = 0` (R78). -/
def Laws.OpcodeAndZ.Statement (i : Instr) : Prop := opField (encode i) = i.opcode ∧ zField (encode i) = 0

namespace Laws.OpcodeAndZ

theorem init : Statement .init := ⟨wordOf_op _ _ _ _, wordOf_z _ _ _ _⟩
theorem setgs (row : BitVec 3) (chan val : BitVec 12) : Statement (.setgs row chan val) :=
  ⟨wordOf_op _ _ _ _, wordOf_z _ _ _ _⟩
theorem setallgs (val : BitVec 12) : Statement (.setallgs val) := ⟨wordOf_op _ _ _ _, wordOf_z _ _ _ _⟩
theorem getgs (row : BitVec 3) (chan : BitVec 12) : Statement (.getgs row chan) :=
  ⟨wordOf_op _ _ _ _, wordOf_z _ _ _ _⟩
theorem setdc (chan val : BitVec 12) : Statement (.setdc chan val) := ⟨wordOf_op _ _ _ _, wordOf_z _ _ _ _⟩
theorem setalldc (val : BitVec 12) : Statement (.setalldc val) := ⟨wordOf_op _ _ _ _, wordOf_z _ _ _ _⟩
theorem getdc (chan : BitVec 12) : Statement (.getdc chan) := ⟨wordOf_op _ _ _ _, wordOf_z _ _ _ _⟩
theorem commit : Statement .commit := ⟨wordOf_op _ _ _ _, wordOf_z _ _ _ _⟩
theorem pending : Statement .pending := ⟨wordOf_op _ _ _ _, wordOf_z _ _ _ _⟩
theorem gamma (idx : BitVec 8) : Statement (.gamma idx) := ⟨wordOf_op _ _ _ _, wordOf_z _ _ _ _⟩
theorem clockindc : Statement .clockindc := ⟨wordOf_op _ _ _ _, wordOf_z _ _ _ _⟩

end Laws.OpcodeAndZ

end Sys2Proof
end

