-- ==== Sys2Proof/Tests/Slice0.lean ====
section
/-! SUPPORT. Tests: each expected value is a number printed in spec/95_test_vectors (the section is named), or worked
by hand from the rule named. Then the witnesses that the statements' hypotheses can be met. -/

namespace Sys2Proof.Tests

open Sys2Proof Sys2Proof.Machine

/-! ### Small states -/

/-- `N = 1` with a bit depth and a row count, otherwise the conventions of 95_test_vectors. -/
def small (pwmBits rows : Nat) : Config := { Config.standard with pwmBits := pwmBits, multiplexRows := rows }

/-- Every byte of the `rows` rows of both pages, `b`. -/
def pages (c : Config) (b : Byte) : Memory :=
  (List.range c.nRows).flatMap (fun r => (List.range c.gsLen).map fun j => (gsKey false r j, b)) ++
    (List.range c.nRows).flatMap (fun r => (List.range c.gsLen).map fun j => (gsKey true r j, b))

/-- A block after reset whose memories hold `b` everywhere. -/
def filled (c : Config) (b : Byte) : State :=
  { State.afterReset c 0 [] with gs := pages c b, dc := (List.range c.dcLen).map fun j => (j, b) }

/-- The `n` bytes from byte `j` of row `r` of the page that was the back page. -/
def backBytes (r j n : Nat) (o : Host.Outcome State Fault Refusal) : List Nat :=
  match o with
  | .next t => (List.range n).map fun k => (t.gsByte true r (j + k)).toNat
  | .fault _ => []
  | .refused _ => []

/-- The bytes of `DC`. -/
def dcBytesOf (o : Host.Outcome State Fault Refusal) : List Nat :=
  match o with
  | .next t => t.dcBytes.map BitVec.toNat
  | .fault _ => []
  | .refused _ => []

/-- The result register. -/
def respOf (o : Host.Outcome State Fault Refusal) : Option Nat :=
  match o with
  | .next t => some t.resp.toNat
  | .fault _ => none
  | .refused _ => none

/-- The wire events of a block that started with none. -/
def wireOf (o : Host.Outcome State Fault Refusal) : List WireEvent :=
  match o with
  | .next t => t.wire
  | .fault _ => []
  | .refused _ => []

/-- The reason of a fault. -/
def faultOf (o : Host.Outcome State Fault Refusal) : Option Fault :=
  match o with
  | .next _ => none
  | .fault f => some f
  | .refused _ => none

/-- The reason of a refusal. -/
def refusalOf (o : Host.Outcome State Fault Refusal) : Option Refusal :=
  match o with
  | .next _ => none
  | .fault _ => none
  | .refused x => some x

/-- A page filled with zeros, but for `b` at the end: nothing. -/
def zeros (n : Nat) : List Nat := List.replicate n 0

/-! ### WellFormed refuses: one ill-formed term for each check (40_codec R90, 00_scope R10) -/

theorem test_setgs_chan_refused : (Instr.setgs 0 16 0).wellFormed Config.standard = false := by decide
theorem test_setgs_row_refused : (Instr.setgs 1 0 0).wellFormed Config.standard = false := by decide
theorem test_setgs_val_refused : (Instr.setgs 0 0 256).wellFormed (small 8 0) = false := by decide
theorem test_setallgs_val_refused : (Instr.setallgs 0x800).wellFormed (small 11 0) = false := by decide
theorem test_getgs_chan_refused : (Instr.getgs 0 16).wellFormed Config.standard = false := by decide
theorem test_getgs_row_refused : (Instr.getgs 3 0).wellFormed (small 12 3) = false := by decide
theorem test_setdc_chan_refused : (Instr.setdc 16 0).wellFormed Config.standard = false := by decide
theorem test_setdc_val_refused : (Instr.setdc 0 64).wellFormed Config.standard = false := by decide
theorem test_setalldc_val_refused : (Instr.setalldc 64).wellFormed Config.standard = false := by decide
theorem test_getdc_chan_refused : (Instr.getdc 16).wellFormed Config.standard = false := by decide

/-- The commands a block without dot correction lacks (00_scope R10). -/
theorem test_no_dot_correction_refused :
    [Instr.setdc 0 0, .setalldc 0, .getdc 0, .clockindc].all
      (fun i => !i.wellFormed { Config.standard with includeDotCorrection := false }) = true := by decide

theorem test_hardwired_pins_refused :
    Instr.clockindc.wellFormed { Config.standard with hardwireProgramPins := true } = false := by decide

theorem test_no_gamma_refused :
    (Instr.gamma 0).wellFormed { Config.standard with includeGammaCorrection := false } = false := by decide

/-- The bounds themselves are in range. -/
theorem test_bounds_well_formed :
    [Instr.setgs 7 4095 4095, .setallgs 4095, .getgs 7 4095, .setdc 4095 63, .setalldc 63, .getdc 4095].all
      (fun i => i.wellFormed { Config.standard with chipCount := 256, multiplexRows := 8 }) = true := by decide

/-- 60_exceptions R193: the bounds of the configuration. -/
theorem test_configuration_bounds :
    ¬ Config.Valid { Config.standard with chipCount := 0 } ∧ ¬ Config.Valid { Config.standard with chipCount := 257 } ∧
    ¬ Config.Valid (small 7 0) ∧ ¬ Config.Valid (small 13 0) ∧ ¬ Config.Valid (small 12 9) ∧
    Config.Valid { small 8 8 with chipCount := 256 } := by decide

/-! ### Decoding: words written out from 30_encoding R78 to R80 (95_test_vectors 2.4) -/

theorem test_decode_init : decode 0b0001_000_0_000000000000_000000000000 = .ok .init := by decide
theorem test_decode_setgs :
    decode 0b0010_010_0_000000000101_000100100011 = .ok (.setgs 2 5 0x123) := by decide
theorem test_decode_setgs_max : decode 0x2EFFFFFF = .ok (.setgs 7 4095 4095) := by decide
theorem test_decode_setallgs : decode 0b0011_000_0_000000000000_101010111100 = .ok (.setallgs 0xABC) := by decide
theorem test_decode_getgs : decode 0b0100_000_0_000000000101_000000000000 = .ok (.getgs 0 5) := by decide
theorem test_decode_setdc : decode 0b0101_000_0_000000001111_000000000001 = .ok (.setdc 15 1) := by decide
theorem test_decode_setalldc : decode 0b0110_000_0_000000000000_000000111111 = .ok (.setalldc 63) := by decide
theorem test_decode_getdc : decode 0b0111_000_0_000000001111_000000000000 = .ok (.getdc 15) := by decide
theorem test_decode_commit : decode 0b1000_000_0_000000000000_000000000000 = .ok .commit := by decide
theorem test_decode_pending : decode 0b1001_000_0_000000000000_000000000000 = .ok .pending := by decide
theorem test_decode_gamma : decode 0b1010_000_0_000000000000_000010000000 = .ok (.gamma 128) := by decide
theorem test_decode_clockindc : decode 0b1011_000_0_000000000000_000000000000 = .ok .clockindc := by decide

/-- The reserved words of 95_test_vectors 2.4. -/
theorem test_decode_reserved :
    [0x2FFFFFFF, 0x30001000, 0x32000000, 0x40005001, 0x52000000, 0x80000001, 0xA0000100, 0x00000000, 0xC0000000,
      0xD0000000, 0xE0000000, 0xF0000000, 0x21000000].map decode =
    [.error .zBit, .error .chanField, .error .rowField, .error .valField, .error .rowField, .error .valField,
      .error .valField, .error .opcode, .error .opcode, .error .opcode, .error .opcode, .error .opcode,
      .error .zBit] := by decide

theorem test_table_word : decodeTableWord 32 0x24005123 = some (.setgs 2 5 0x123) := by decide

/-- A word of the opcode table is performed by the first step after reset, and `cmd_done` answers it. -/
theorem test_first_step_runs_word :
    (match step (State.reset.withFetchWord 32 0x80000000) with
      | .next t => t.updateReq && t.cmdDone && t.inputs.isEmpty
      | .fault _ => false
      | .refused _ => false) = true := by decide

theorem test_reserved_word_refused :
    refusalOf (step (State.reset.withFetchWord 32 0x21000000)) = some (.reservedWord 0x21000000 .zBit) := by decide

/-- 30_encoding R83: the assembler. -/
theorem test_assemble_setgs :
    assemble true "SETGS 2, 5, 0x123".toList = some (.command (.setgs 2 5 0x123)) ∧
    assemble false "GETGS 5".toList = some (.command (.getgs 0 5)) ∧
    assemble true "GETGS 5".toList = none := by decide

theorem test_assemble_pseudo :
    assemble false "CLEARGS".toList = some (.command (.setallgs 0)) ∧ assemble false "TICK".toList = some .tick ∧
    assemble false "SETGAMMA 0, 0, 128".toList = some (.setGamma 0 0 128) := by decide

/-! ### The commands (95_test_vectors 2.1, 2.2, 2.5, 2.7, 2.8) -/

/-- 2.1: `byte[21] = AB`, `byte[22] = C0`, the others stay. -/
theorem test_setgs_even :
    backBytes 0 0 24 (exec (.setgs 0 1 0xABC) (filled Config.standard 0x00)) =
      zeros 21 ++ [0xAB, 0xC0, 0x00] := by decide +kernel

/-- 2.1, multiplexed: `GS[1][2][15] = 12`, `GS[1][2][16] = 30`. -/
theorem test_setgs_row :
    backBytes 2 0 24 (exec (.setgs 2 5 0x123) (filled (small 12 3) 0x00)) =
      zeros 15 ++ [0x12, 0x30] ++ zeros 7 := by decide +kernel

/-- 2.1, `B = 9`: channel 7 set to 0 on an all-`FF` page, `byte[9] = 00`, `byte[10] = 7F`. -/
theorem test_setgs_nine_bits :
    backBytes 0 8 4 (exec (.setgs 0 7 0) (filled (small 9 0) 0xFF)) = [0xFF, 0x00, 0x7F, 0xFF] := by decide +kernel

/-- 2.1: the pattern `AB CA BC`, on a page of which nothing is known. -/
theorem test_setallgs_pattern :
    backBytes 0 0 24 (exec (.setallgs 0xABC) (filled Config.standard 0x5A)) =
      (List.replicate 8 [0xAB, 0xCA, 0xBC]).flatten := by decide +kernel

/-- 2.1, `B = 11`: the eleven-byte pattern of `0x3FF`. -/
theorem test_setallgs_eleven_bits :
    backBytes 0 0 22 (exec (.setallgs 0x3FF) (filled (small 11 0) 0x00)) =
      (List.replicate 2 [0x7F, 0xEF, 0xFD, 0xFF, 0xBF, 0xF7, 0xFE, 0xFF, 0xDF, 0xFB, 0xFF]).flatten := by decide +kernel

/-- The back page of 2.1 after `SETGS 0, 1, 0xABC` on an all-`00` page. -/
def abcPage : State :=
  { filled Config.standard 0x00 with
    gs := Memory.write (Memory.write (pages Config.standard 0x00) (gsKey true 0 21) 0xAB) (gsKey true 0 22) 0xC0 }

theorem test_getgs :
    respOf (exec (.getgs 0 1) abcPage) = some 0x0ABC ∧ respOf (exec (.getgs 0 0) abcPage) = some 0 := by
  decide +kernel

/-- 2.3: a read with a commit pending is legal. -/
theorem test_getgs_pending :
    respOf (exec (.getgs 0 2) { filled Config.standard 0xFF with updateReq := true }) = some 0x0FFF := by
  decide +kernel

/-- 2.2: `byte[10] = 0F`, `byte[11] = C0`. -/
theorem test_setdc :
    dcBytesOf (exec (.setdc 1 63) (filled Config.standard 0x00)) = zeros 10 ++ [0x0F, 0xC0] := by decide +kernel

/-- P3: `SETDC 15, 0x01` on `82 ..` writes `06`. -/
theorem test_setdc_first_byte :
    (dcBytesOf (exec (.setdc 15 1) (filled Config.standard 0x82))).take 2 = [0x06, 0x82] := by decide +kernel

/-- 2.2: the pattern `82 08 20`. -/
theorem test_setalldc :
    dcBytesOf (exec (.setalldc 0x20) (filled Config.standard 0xFF)) =
      (List.replicate 4 [0x82, 0x08, 0x20]).flatten := by decide +kernel

/-- `DC` of 2.2 and of program P3. -/
def programThree : State :=
  { filled Config.standard 0x00 with
    dc := [(0, 0x06), (1, 0x08), (2, 0x20), (3, 0x82), (4, 0x08), (5, 0x20), (6, 0x82), (7, 0x08), (8, 0x20),
      (9, 0x82), (10, 0x08), (11, 0x3F)] }

theorem test_getdc :
    respOf (exec (.getdc 0) programThree) = some 0x003F ∧ respOf (exec (.getdc 15) programThree) = some 0x0001 := by
  decide +kernel

theorem test_getdc_middle : respOf (exec (.getdc 7) programThree) = some 0x0020 := by decide +kernel

/-- 2.5: COMMIT then PENDING, and PENDING alone. -/
theorem test_pending :
    respOf (exec .pending (setUpdateReq State.reset)) = some 1 ∧ respOf (exec .pending State.reset) = some 0 := by
  decide

theorem test_commit_changes_one_flag :
    exec .commit State.reset = .next { State.reset with updateReq := true } := by rfl

/-- 2.5: INIT clears a request; 41_handoff R120: its events when `mux`. -/
theorem test_init_events :
    wireOf (exec .init (setUpdateReq (State.afterReset (small 12 3) 0 []))) =
      [.pin .blank true, .pin .latch false, .pin .clkOut false, .pin .dataOut false, .pin .progSel false,
        .rowSel 0] := by decide

theorem test_init_clears_request :
    (match exec .init { State.reset with updateReq := true, front := true } with
      | .next t => !t.updateReq && !t.front
      | .fault _ => false
      | .refused _ => false) = true := by decide

/-- 2.8: `GAMMA 128` at the five bit depths. -/
theorem test_gamma :
    [12, 11, 10, 9, 8].map (fun B => respOf (exec (.gamma 128) (State.afterReset (small B 0) 0 []))) =
      [some 731, some 365, some 183, some 91, some 46] := by decide +kernel

theorem test_gamma_last_but_one :
    [12, 11, 10, 9, 8].map (fun B => respOf (exec (.gamma 254) (State.afterReset (small B 0) 0 []))) =
      [some 4055, some 2027, some 1013, some 506, some 253] := by decide +kernel

/-- 2.7: 292 events, the bytes of `DC`, one latch edge after 96 bits with `blank = 1` and `prog_sel = 1`. -/
theorem test_clockindc_bytes :
    (bytes (wireOf (exec .clockindc programThree))).map BitVec.toNat =
      [0x06, 0x08, 0x20, 0x82, 0x08, 0x20, 0x82, 0x08, 0x20, 0x82, 0x08, 0x3F] ∧
    (wireOf (exec .clockindc programThree)).length = 292 := by decide +kernel

theorem test_clockindc_latch :
    latches (wireOf (exec .clockindc programThree)) = [⟨96, true, true, 0⟩] := by decide +kernel

/-- 2.8: SETGAMMA writes `02 DB`. -/
theorem test_setgamma :
    backBytes 0 22 2 (setGamma 0 0 128 (filled Config.standard 0x00)) = [0x02, 0xDB] := by decide +kernel

/-! ### Faults and refusals (95_test_vectors 2.3) -/

theorem test_operand_check_first :
    faultOf (exec (.setgs 0 16 0) { State.reset with updateReq := true }) = some (.operandOutOfRange 0x20010000) := by
  decide

theorem test_write_while_pending :
    faultOf (exec (.setgs 0 0 1) { State.reset with updateReq := true }) = some (.backWriteWhilePending 0x20000001) ∧
    faultOf (exec (.setallgs 0) { State.reset with updateReq := true }) =
      some (.backWriteWhilePending 0x30000000) := by decide

theorem test_dot_correction_ranges :
    faultOf (exec (.setdc 0 64) State.reset) = some (.operandOutOfRange 0x50000040) ∧
    faultOf (exec (.setalldc 64) State.reset) = some (.operandOutOfRange 0x60000040) ∧
    faultOf (exec (.getdc 16) State.reset) = some (.operandOutOfRange 0x70010000) := by decide

theorem test_unavailable :
    refusalOf (exec .clockindc (State.afterReset { Config.standard with hardwireProgramPins := true } 0 [])) =
      some (.unavailable 0xB0000000) := by decide

theorem test_tick_while_busy :
    faultOf (step { State.reset with phase := .hold, inputs := [.tick] }) = some .tickWhileBusy := by decide

/-! ### The engine (95_test_vectors 2.6) -/

/-- The first six events of a tick. -/
def controlEvents (s : State) : List WireEvent := (tickOperation s).wire.take 6

/-- `R = 3`, cursor 2, `row_sel = 0b010`, a commit pending: the row switch, and a flip. -/
theorem test_tick_mux :
    controlEvents { filled (small 8 3) 0x00 with rowCursor := 2, updateReq := true, pins := { Pins.reset with rowSel := 0b010 } } =
      [.pin .blank true, .rowSel 0b000, .pin .latch true, .pin .latch false, .rowSel 0b100, .pin .blank false] := by
  decide +kernel

theorem test_tick_mux_flips :
    (tickOperation { filled (small 8 3) 0x00 with rowCursor := 2, updateReq := true }).front = true ∧
    (tickOperation { filled (small 8 3) 0x00 with rowCursor := 0, updateReq := true }).front = false := by
  decide +kernel

/-- `N = 1`, `B = 8`: 386 events without and 388 with a latch pulse. -/
theorem test_tick_plain_counts :
    (tickOperation (filled (small 8 0) 0xA5)).wire.length = 386 ∧
    (tickOperation { filled (small 8 0) 0xA5 with latchPending := true }).wire.length = 388 := by decide +kernel

theorem test_tick_lengths :
    tickLength (filled (small 8 0) 0) = 405 ∧ tickLength { filled (small 12 0) 0 with latchPending := true } = 607 ∧
    tickLength (filled (small 12 3) 0) = 609 := by decide

/-- The whole micro-step walk of one tick ends where the operation does. -/
theorem test_micro_steps_refine :
    microSteps (tickLength (filled (small 8 0) 0xA5)) (goto .blankOn (filled (small 8 0) 0xA5)) =
      tickOperation (filled (small 8 0) 0xA5) := by decide +kernel

theorem test_rowtab_four :
    (List.range 8).map (rowTab 4) =
      [0b1000, 0b0001, 0b0001, 0b0010, 0b0010, 0b0100, 0b0100, 0b1000] := by decide

/-- 2.7: ShiftByte of `0xA5`. -/
theorem test_shift_byte :
    bits (shiftByte 0xA5 State.reset).wire = [true, false, true, false, false, true, false, true] ∧
    (shiftByte 0xA5 State.reset).wire.length = 24 ∧ (shiftByte 0xA5 State.reset).pins.dataOut = true := by decide

/-- 43_transport R166: a peripheral transport's `Byte` event shows the same bits. -/
theorem test_byte_event : bytes (transmit 0xA5 (State.afterReset { Config.standard with transportKind := .hwSpi } 0 [])).wire = [0xA5] := by
  decide

/-- 20_memory R64: eight bits of `0xA5` enter below a 5, and the latch copies the register; dot correction stays. -/
theorem test_receiver_shifts_and_latches :
    Receiver.receive Config.standard Pins.reset ⟨5, 6, 7⟩ (shiftEvents 0xA5 ++ [.pin .latch true, .pin .latch false]) =
      ⟨0x5A5, 0x5A5, 7⟩ := by decide +kernel

/-- 43_transport R172: with `prog_sel = 1` a latch loads the dot-correction register and leaves `COUT`. -/
theorem test_receiver_latches_dot_correction :
    Receiver.receive Config.standard Pins.reset ⟨5, 6, 7⟩ [.pin .progSel true, .pin .latch true, .pin .latch false] =
      ⟨5, 6, 5⟩ := by decide +kernel

/-- 70_reset_and_hazards R217: without ticks WAITCOMMIT does not return; with no commit pending it does at once. -/
theorem test_wait_without_ticks :
    (match waitCommit [[], [.quiet], []] { State.reset with updateReq := true } with
      | .returned _ => 0
      | .polling t => t.resp.toNat
      | .fault _ => 2
      | .refused _ => 3) = 1 ∧
    (match waitCommit [] State.reset with
      | .returned t => t.resp.toNat
      | .polling _ => 1
      | .fault _ => 2
      | .refused _ => 3) = 0 := by decide

/-- The flip is at ADVANCE (42_refresh_engine R154), so a poll after it, in the middle of the tick, ends the wait. -/
theorem test_wait_polls_within_a_tick :
    (match waitCommit [[.tick], [.quiet, .quiet], [.quiet, .quiet]] { State.reset with updateReq := true } with
      | .returned t => t.front && t.phase == .load
      | .polling _ => false
      | .fault _ => false
      | .refused _ => false) = true := by decide

/-! ### Witnesses: concrete states and operands that meet the hypotheses of each statement -/

/-- The block of program P1 with a commit pending. -/
def committed : State := { State.reset with updateReq := true }

/-- A block of three rows between two ticks, at the last row, its row 1 asserted. -/
def threeRows : State :=
  { State.afterReset (small 12 3) 0 [] with rowCursor := 2, pins := { Pins.reset with blank := false, rowSel := 0b010 } }

/-- The largest block. -/
def largest : Config := { small 12 8 with chipCount := 256 }

theorem witness_EncodeOfDecode : decode 0x2EFFFFFF = .ok (.setgs 7 4095 4095) := by decide

theorem witness_DecodeFollowsOpcodeMap :
    ⟨"GAMMA", 0xA0000000, 0xFFFFFF00⟩ ∈ opcodeMap ∧ (0xA00000FF : Word) &&& 0xFFFFFF00 = 0xA0000000 ∧
    decode 0xA00000FF = .ok (.gamma 255) := by decide

theorem witness_ReservedAndUnavailableRefused_reserved :
    (∀ row ∈ opcodeMap, (0x21000000 : Word) &&& row.mask ≠ row.matchWord) ∧
    { State.reset with inputs := [.cmd 0x21000000] }.inputs = .cmd 0x21000000 :: [] := by decide

theorem witness_ReservedAndUnavailableRefused_unavailable :
    decode 0x7000F000 = .ok (.getdc 15) ∧
    (State.afterReset { Config.standard with includeDotCorrection := false } 0 [.cmd 0x7000F000]).inputs =
      .cmd 0x7000F000 :: [] ∧ (Instr.getdc 15).mnemonic ∈ ["SETDC", "SETALLDC", "GETDC", "CLOCKINDC"] := by decide

/-- The operand of an absent command may be out of range too (log 11). -/
theorem witness_ReservedAndUnavailableRefused_out_of_range :
    let s := State.afterReset { Config.standard with includeDotCorrection := false } 0 [.cmd 0x50000040]
    s.inputs = .cmd 0x50000040 :: [] ∧ decode 0x50000040 = .ok (.setdc 0 64) ∧ s.cfg.includeDotCorrection = false ∧
    (Instr.setdc 0 64).mnemonic ∈ ["SETDC", "SETALLDC", "GETDC", "CLOCKINDC"] ∧
    (Instr.setdc 0 64).inRange s.cfg = false := by decide

theorem witness_ReservedAndUnavailableRefused_hardwired :
    decode 0xB0000000 = .ok .clockindc ∧ Instr.clockindc.mnemonic = "CLOCKINDC" ∧
    { Config.standard with hardwireProgramPins := true }.hardwireProgramPins = true := by decide

theorem witness_ReservedAndUnavailableRefused_gamma :
    decode 0xA0000080 = .ok (.gamma 128) ∧ (Instr.gamma 128).mnemonic = "GAMMA" ∧
    { Config.standard with includeGammaCorrection := false }.includeGammaCorrection = false := by decide

theorem witness_StepRunsDecodedCommand :
    (State.reset.withFetchWord 32 0x20001ABC).inputs = .cmd 0x20001ABC :: [] ∧
    decode 0x20001ABC = .ok (.setgs 0 1 0xABC) := by decide

/-- The first and the last channel, the largest values. -/
theorem witness_CodecRoundTrip :
    15 < Config.standard.numChannels ∧ 4095 ≤ Config.standard.maxGS ∧ 4095 < largest.numChannels ∧
    4095 ≤ largest.maxGS := by decide

theorem witness_CodecNonInterference :
    0 < Config.standard.numChannels ∧ 15 < Config.standard.numChannels ∧ (15 : Nat) ≠ 0 ∧
    ¬ (Config.standard.pwmBits * channelRev Config.standard 0 ≤ 179 ∧
        179 < Config.standard.pwmBits * channelRev Config.standard 0 + Config.standard.pwmBits) ∧
    ¬ (6 * channelRev Config.standard 15 ≤ 6 ∧ 6 < 6 * channelRev Config.standard 15 + 6) := by decide

/-- Channel 15 is the even case, channel 0 the odd one. -/
theorem witness_GrayscaleByteRule :
    Config.standard.pwmBits = 12 ∧ (Config.standard.numChannels - 1 - 15) % 2 = 0 ∧
    (Config.standard.numChannels - 1 - 0) % 2 = 1 ∧ 15 < Config.standard.numChannels ∧ 4095 < 4096 := by decide

theorem witness_GrayscaleDecodeRule :
    largest.pwmBits = 12 ∧ (largest.numChannels - 1 - 4095) % 2 = 0 ∧ (largest.numChannels - 1 - 0) % 2 = 1 ∧
    4095 < largest.numChannels := by decide

/-- Channels 15, 14, 13, 12 are the four cases. -/
theorem witness_DotCorrectionByteRule :
    [15, 14, 13, 12].map (fun c => (Config.standard.numChannels - 1 - c) % 4) = [0, 1, 2, 3] ∧
    15 < Config.standard.numChannels ∧ 63 < 64 := by decide

theorem witness_DotCorrectionDecodeRule :
    [3, 2, 1, 0].map (fun c => (Config.standard.numChannels - 1 - c) % 4) = [0, 1, 2, 3] ∧
    3 < Config.standard.numChannels := by decide

theorem witness_BulkSetPattern :
    Config.standard.Valid ∧ 4095 ≤ Config.standard.maxGS ∧ 7 < 8 * Config.standard.chipCount ∧
    11 + Config.standard.pwmBits < Config.standard.gsLen ∧ 3 < 4 * Config.standard.chipCount := by decide

theorem witness_ChannelIsItsStreamBits :
    0 < State.reset.cfg.numChannels ∧ 15 < State.reset.cfg.numChannels ∧ 11 < State.reset.cfg.pwmBits := by decide

theorem witness_SetgsSetsOneChannel :
    ((15#12).toNat < State.reset.cfg.numChannels ∧ (0#3).toNat < State.reset.cfg.nRows ∧
      (4095#12).toNat ≤ State.reset.cfg.maxGS) ∧ State.reset.updateReq = false ∧ committed.updateReq = true ∧
    ¬ (16#12).toNat < State.reset.cfg.numChannels ∧ ¬ (1#3).toNat < State.reset.cfg.nRows := by decide

theorem witness_SetallgsSetsBackPage :
    threeRows.cfg.Valid ∧ (4095#12).toNat ≤ threeRows.cfg.maxGS ∧ threeRows.updateReq = false ∧
    committed.cfg.Valid ∧ committed.updateReq = true ∧ (State.afterReset (small 8 0) 0 []).cfg.Valid ∧
    ¬ (256#12).toNat ≤ (State.afterReset (small 8 0) 0 []).cfg.maxGS := by decide

theorem witness_GetgsReadsBackPage :
    (15#12).toNat < threeRows.cfg.numChannels ∧ (2#3).toNat < threeRows.cfg.nRows ∧ threeRows.cfg.Valid ∧
    ¬ (3#3).toNat < threeRows.cfg.nRows := by decide

theorem witness_SetdcSetsOneChannel :
    State.reset.cfg.includeDotCorrection = true ∧ (15#12).toNat < State.reset.cfg.numChannels ∧ (63#12).toNat ≤ 63 ∧
    ¬ (64#12).toNat ≤ 63 ∧ ¬ (16#12).toNat < State.reset.cfg.numChannels := by decide

theorem witness_SetalldcSetsEveryChannel :
    State.reset.cfg.includeDotCorrection = true ∧ (63#12).toNat ≤ 63 ∧ ¬ (64#12).toNat ≤ 63 := by decide

theorem witness_GetdcReadsChannel :
    State.reset.cfg.includeDotCorrection = true ∧ (15#12).toNat < State.reset.cfg.numChannels ∧
    ¬ (16#12).toNat < State.reset.cfg.numChannels := by decide

theorem witness_CommitSetsRequest : State.reset.updateReq = false ∧ committed.updateReq = true := by decide

theorem witness_InitRestoresRegisters :
    threeRows.phase = .idle ∧ threeRows.cfg.mux = true ∧ committed.phase = .idle ∧ committed.cfg.mux = false := by decide

/-- Index 255 answers a value above 0, index 1 answers 0. -/
theorem witness_GammaLooksUp :
    State.reset.cfg.Valid ∧ State.reset.cfg.includeGammaCorrection = true ∧ 0 < (255#8).toNat ∧
    0 < gammaEntry State.reset.cfg 255 ∧ 0 < (1#8).toNat ∧ gammaEntry State.reset.cfg 1 = 0 := by decide +kernel

theorem witness_ClockindcSendsDotCorrection :
    programThree.cfg.includeDotCorrection = true ∧ programThree.cfg.hardwireProgramPins = false ∧
    programThree.phase = .idle ∧ programThree.cfg.bitBanged = true := by decide

theorem witness_SetGammaSetsCorrectedValue :
    State.reset.cfg.Valid ∧ State.reset.cfg.includeGammaCorrection = true ∧
    (15#12).toNat < State.reset.cfg.numChannels ∧ (0#3).toNat < State.reset.cfg.nRows ∧
    State.reset.updateReq = false := by decide

/-- One command for each kind of fault. -/
theorem witness_FaultsAreContractViolations :
    faultOf (exec (.getgs 0 16) State.reset) = some (.operandOutOfRange (encode (.getgs 0 16))) ∧
    faultOf (exec (.setallgs 1) committed) = some (.backWriteWhilePending (encode (.setallgs 1))) ∧
    faultOf (exec .init (goto .load State.reset)) = some .initWhileBusy ∧
    faultOf (exec .clockindc (goto .load State.reset)) = some .clockInDcWhileBusy := by decide

theorem witness_BrokenPremisesStop :
    (goto .done State.reset).phase ≠ .idle ∧ State.reset.cfg.includeDotCorrection = true ∧
    State.reset.cfg.hardwireProgramPins = false ∧ { goto .done State.reset with inputs := [.tick] }.inputs = .tick :: [] := by
  decide

/-- A tick may happen in IDLE and may not elsewhere. -/
theorem witness_StepGoesOnExactlyWhenEventMayHappen :
    { State.reset with inputs := [.tick] }.nextMayHappen = true ∧
    { goto .hold State.reset with inputs := [.tick] }.nextMayHappen = false ∧
    { committed with inputs := [.cmd 0x20000001] }.nextMayHappen = false := by decide

/-- The clause on the counts before the last is not empty. -/
theorem witness_MicroStepsRefineTick :
    threeRows.cfg.Valid ∧ threeRows.SequencerLegal ∧ threeRows.phase = .idle ∧ threeRows.inputs = [] ∧
    1 ≤ tickLength threeRows := by decide

/-- With and without an owed latch pulse, with and without a request. -/
theorem witness_PlainTickEffect :
    committed.cfg.mux = false ∧ committed.latchPending = false ∧ { committed with latchPending := true }.cfg.mux = false ∧
    State.reset.cfg.bitBanged = true ∧ State.reset.updateReq = false := by decide

/-- The last row, whose advance wraps, and the first. -/
theorem witness_MuxTickEffect :
    threeRows.cfg.mux = true ∧ threeRows.rowCursor < threeRows.cfg.multiplexRows ∧
    threeRows.rowCursor + 1 = threeRows.cfg.multiplexRows ∧
    { threeRows with rowCursor := 0 }.rowCursor < threeRows.cfg.multiplexRows ∧ threeRows.cfg.bitBanged = true := by decide

theorem witness_TickClocksOutTheBuffer :
    threeRows.cfg.Valid ∧ threeRows.Inv ∧ threeRows.phase = .idle := by decide

theorem witness_ShiftByteSendsMsbFirst : State.reset.pins.clkOut = false := by decide

theorem witness_TickLatchesExactlyWhenOwed :
    threeRows.Inv ∧ threeRows.phase = .idle ∧ State.reset.Inv ∧ State.reset.phase = .idle ∧
    { State.reset with latchPending := true }.Inv :=
  ⟨by decide, by decide, by decide, by decide, by decide⟩

theorem witness_RowSelectTable : 1 ≤ 8 ∧ 8 ≤ 8 ∧ 7 < 8 ∧ (rowTab 8 14, rowTab 8 15) = (0x40, 0x80) := by decide

theorem witness_ExactlyOneRowAsserted :
    threeRows.cfg.Valid ∧ threeRows.cfg.mux = true ∧ threeRows.rowCursor < threeRows.cfg.multiplexRows ∧
    threeRows.pins.rowSel = 1#8 <<< threeRows.previousRow ∧ (State.afterReset (small 12 3) 0 []).pins.rowSel = 0 := by
  decide

/-- A flip at ADVANCE, and the two events that set `front` to 0. -/
theorem witness_FrontChangesOnlyAtFrameBoundary :
    (∃ t, step (goto .advance { threeRows with updateReq := true }) = .next t ∧ t.front ≠ threeRows.front) ∧
    (∃ t, step { State.reset with front := true, inputs := [.rst] } = .next t ∧ t.front ≠ true) ∧
    (∃ t, step { State.reset with front := true, inputs := [.cmd 0x10000000] } = .next t ∧ t.front ≠ true) :=
  ⟨⟨_, rfl, by decide⟩, ⟨_, rfl, by decide⟩, ⟨_, rfl, by decide⟩⟩

theorem witness_UpdateRequestLifecycle :
    (∃ t, step { State.reset with inputs := [.cmd 0x80000000] } = .next t ∧ t.updateReq = true) ∧
    (∃ t, step (goto .advance committed) = .next t ∧ t.updateReq = false) ∧
    (∃ t, step { committed with inputs := [.rst] } = .next t ∧ t.updateReq = false) ∧
    (∃ t, step { committed with inputs := [.cmd 0x10000000] } = .next t ∧ t.updateReq = false) :=
  ⟨⟨_, rfl, by decide⟩, ⟨_, rfl, by decide⟩, ⟨_, rfl, by decide⟩, ⟨_, rfl, by decide⟩⟩

theorem witness_ResponseWrittenOnlyByReaders :
    (∃ t, step { committed with inputs := [.cmd 0x90000000] } = .next t ∧ t.resp ≠ committed.resp) ∧
    (∃ t, step { State.reset with resp := 7, inputs := [.rst] } = .next t ∧ t.resp ≠ 7) :=
  ⟨⟨_, rfl, by decide⟩, ⟨_, rfl, by decide⟩⟩

theorem witness_EngineWritesNoMemory : (microStep committed).updateReq = true := by decide

theorem witness_HostNeverWritesFrontPage :
    threeRows.cfg.Valid ∧ (∃ t, exec (.setgs 2 15 4095) threeRows = .next t) ∧ 7 < 8 ∧ 8191 < 8192 :=
  ⟨by decide, ⟨_, rfl⟩, by decide, by decide⟩

theorem witness_OnlyInitAndClockindcTouchTheWire :
    (∃ t, exec (.setdc 15 63) State.reset = .next t) ∧ Instr.setdc 15 63 ≠ .init ∧ Instr.setdc 15 63 ≠ .clockindc :=
  ⟨⟨_, rfl⟩, by decide, by decide⟩

theorem witness_ConfigurationIsConstant : ∃ t, RunsTo 3 { State.reset with inputs := [.tick, .rst] } t := ⟨_, rfl⟩

theorem witness_ResetValues :
    { threeRows with inputs := [.rst] }.inputs = .rst :: [] ∧
    { threeRows with inputs := [.cmd 0x10000000] }.inputs = .cmd (encode .init) :: [] ∧ threeRows.Inv ∧
    threeRows.phase = .idle := by decide

theorem witness_BackPageAfterFlipIsStale : (tickOperation (filled (small 8 0) 0)).front = false ∧
    (tickOperation { filled (small 8 0) 0 with updateReq := true }).front ≠
      { filled (small 8 0) 0 with updateReq := true }.front := by decide +kernel

theorem witness_InvariantsHoldAtReset : largest.Valid := by decide

/-- In the middle of a bit, between the two writes of the latch pulse, and when an event lands. -/
theorem witness_InvariantKept :
    (goto .bitSetup State.reset).Inv ∧ (∃ t, step (goto .bitSetup State.reset) = .next t) ∧
    (goto .latchLo { threeRows with pins := { Pins.reset with latch := true } }).Inv ∧
    { State.reset with inputs := [.cmd 0x80000000] }.Inv :=
  ⟨by decide, ⟨_, rfl⟩, by decide, by decide⟩

theorem witness_MemoryCanonicalKept :
    programThree.MemoryCanonical ∧ (∃ t, step { programThree with inputs := [.cmd 0x50001001] } = .next t) :=
  ⟨by decide +kernel, ⟨_, rfl⟩⟩

theorem witness_IndicesStayInRange :
    programThree.cfg.Valid ∧ programThree.memoryInSpace = true ∧
    (∃ t, step { programThree with inputs := [.cmd 0x20000FFF] } = .next t) :=
  ⟨by decide, by decide +kernel, ⟨_, rfl⟩⟩

theorem witness_PinsFollowWireKept :
    State.reset.PinsFollowWire ∧ (∃ t, step { State.reset with inputs := [.tick] } = .next t) := ⟨by decide, ⟨_, rfl⟩⟩

/-- At the latch pulse itself, after the blank of the same tick. -/
theorem witness_WireLawfulKept :
    let s := goto .latchHi { State.reset with latchPending := true, wire := [.pin .blank true] }
    s.Inv ∧ s.PinsFollowWire ∧ s.WireLawful ∧ (∃ t, step s = .next t) := ⟨by decide, by decide, by decide, ⟨_, rfl⟩⟩

/-- Between two ticks, in the row switch, after it, and after the advance. -/
theorem witness_RowSelFollowsCursorKept :
    threeRows.Inv ∧ threeRows.RowSelFollowsCursor ∧ (∃ t, step threeRows = .next t) ∧
    (goto .rowOn { threeRows with pins := Pins.reset }).Inv ∧
    (goto .rowOn { threeRows with pins := Pins.reset }).RowSelFollowsCursor ∧
    (goto .hold { threeRows with pins := { Pins.reset with rowSel := 0b100 } }).RowSelFollowsCursor ∧
    (goto .load threeRows).RowSelFollowsCursor :=
  ⟨by decide, fun _ => .inr (by decide), ⟨_, rfl⟩, by decide, fun _ => rfl, fun _ => rfl, fun _ => rfl⟩

/-- At ADVANCE with no commit pending, and in a bit phase with one. -/
theorem witness_HostCommandsCommuteWithMicroSteps :
    (goto .advance threeRows).Inv ∧ (goto .advance threeRows).updateReq = false ∧
    (∃ t, exec (.setgs 0 0 1) (goto .advance threeRows) = .next t) ∧ (goto .clkHi committed).Inv ∧
    (goto .clkHi committed).phase ≠ .advance ∧ (∃ t, exec (.getgs 0 0) (goto .clkHi committed) = .next t) :=
  ⟨by decide, by decide, ⟨_, rfl⟩, by decide, by decide, ⟨_, rfl⟩⟩

theorem witness_OperationRunsAreStepRuns :
    State.reset.Inv ∧ State.reset.phase = .idle ∧ State.reset.inputs = [] ∧
    (∃ t, runOperations [.cmd 0x80000000, .tick, .rst, .tick] State.reset = .next t) :=
  ⟨by decide, by decide, by decide, ⟨_, rfl⟩⟩

/-- A COMMIT before a tick, a PENDING inside it and an `rst` that ends it. -/
theorem witness_EveryRunIsAnOperationRun :
    let s := { State.reset with inputs := [.cmd 0x80000000, .tick, .quiet, .cmd 0x90000000, .rst] }
    s.Inv ∧ s.phase = .idle ∧ (∃ t, RunsTo 5 s t ∧ t.phase = .idle) := ⟨by decide, rfl, ⟨_, rfl, rfl⟩⟩

/-- A block with a peripheral transport, whose ticks take few micro-steps (log 12), a commit pending. -/
def shortTicks : State := { filled { small 8 0 with transportKind := .hwSpi } 0 with updateReq := true }

/-- A gap that ends a tick, and one with a whole tick. -/
def oneTick : List (List Input) := [[.quiet], .tick :: List.replicate 23 .quiet]

/-- No commit pending; in the last phase of a tick a commit pending, a poll, and one tick, which arrives in IDLE and runs
to its end; a commit pending and no tick. -/
theorem witness_WaitCommitReturns :
    State.reset.Inv ∧ State.reset.updateReq = false ∧ (goto .done shortTicks).Inv ∧
    (∀ e ∈ oneTick.flatten, e = .tick ∨ e = .quiet) ∧ shortTicks.cfg.nRows ≤ oneTick.flatten.count .tick ∧
    committed.Inv ∧ (∀ e ∈ [[Input.quiet], []].flatten, e = .quiet) ∧ committed.phase = .idle ∧
    committed.updateReq = true :=
  ⟨by decide, by decide, by decide, by decide, by decide, by decide, by decide, by decide, by decide⟩

theorem witness_WaitCommitReturns_tick_ends :
    (match (goto .done shortTicks).presentAll oneTick.flatten with
      | .next u => u.phase == .idle
      | .fault _ => false
      | .refused _ => false) = true := by decide +kernel

theorem witness_ReceiverHoldsTransmittedBuffer :
    State.reset.cfg.Valid ∧ State.reset.cfg.pwmBits = 12 ∧ Pins.reset.clkOut = false ∧ Pins.reset.progSel = false ∧
    15 < State.reset.cfg.numChannels := by decide

/-- Dot correction sent between two ticks, a latch pulse owed. -/
theorem witness_ReceiverHoldsTransmittedBuffer_dot_correction :
    let s := { programThree with latchPending := true }
    s.cfg.Valid ∧ s.Inv ∧ s.phase = .idle ∧ (∃ t, exec .clockindc s = .next t) ∧ 15 < s.cfg.numChannels ∧
    s.latchPending = true := ⟨by decide, by decide, rfl, ⟨_, rfl⟩, by decide, rfl⟩

theorem witness_CommittedFrameIsDisplayed :
    committed.Inv ∧ committed.phase = .idle ∧ committed.cfg.mux = false ∧ committed.cfg.pwmBits = 12 ∧
    committed.updateReq = true ∧ 15 < committed.cfg.numChannels := by decide

end Sys2Proof.Tests
end

section
/-! SUPPORT. What holds along every run of `step`, by induction over its steps; and first of all the configuration
(spec 00_scope R5). -/

namespace Sys2Proof.Machine

/-! ### Runs of `step` -/

theorem runsTo_zero {s t : State} : RunsTo 0 s t ↔ s = t :=
  ⟨fun h => Host.Outcome.next.inj h, fun h => congrArg Host.Outcome.next h⟩

/-- A run that goes on for one step more went on at its first step. -/
theorem runsTo_succ {n : Nat} {s t : State} : RunsTo (n + 1) s t ↔ ∃ u, step s = .next u ∧ RunsTo n u t := by
  constructor
  · intro h
    cases hs : step s with
    | next u => exact ⟨u, rfl, (runsTo_step hs).1 h⟩
    | fault f =>
      have e : Sys2Proof.core.step s = .fault f := hs
      simp [RunsTo, Host.Core.run, e] at h
    | refused x =>
      have e : Sys2Proof.core.step s = .refused x := hs
      simp [RunsTo, Host.Core.run, e] at h
  · rintro ⟨u, hs, hu⟩
    exact (runsTo_step hs).2 hu

/-- Two runs, one after the other. -/
theorem RunsTo.trans {m n : Nat} {s u t : State} (hm : RunsTo m s u) (hn : RunsTo n u t) : RunsTo (m + n) s t := by
  induction m generalizing s with
  | zero =>
    obtain rfl := runsTo_zero.1 hm
    rwa [Nat.zero_add]
  | succ m ih =>
    obtain ⟨v, hs, hv⟩ := runsTo_succ.1 hm
    rw [Nat.succ_add]
    exact runsTo_succ.2 ⟨v, hs, ih hv⟩

/-- What every step keeps, every run keeps. -/
theorem RunsTo.preserves {P : State → Prop} (hstep : ∀ s t, step s = .next t → P s → P t) {n : Nat} {s t : State}
    (h : RunsTo n s t) (hs : P s) : P t := by
  induction n generalizing s with
  | zero =>
    obtain rfl := runsTo_zero.1 h
    exact hs
  | succ n ih =>
    obtain ⟨u, hu, hr⟩ := runsTo_succ.1 h
    exact ih hr (hstep s u hu hs)

/-! ### The configuration (00_scope R5) -/

theorem exec_cfg {i : Instr} {s t : State} (h : exec i s = .next t) : t.cfg = s.cfg := by
  obtain ⟨gs, rfl⟩ | ⟨dc, rfl⟩ | ⟨n, rfl⟩ | rfl | ⟨-, -, rfl⟩ | ⟨-, -, rfl⟩ := exec_next_cases h
  · rfl
  · rfl
  · rfl
  · rfl
  · rw [emitAll_cfg, initRegisters_cfg]
  · rw [emitAll_cfg, transmitAll_cfg, emitAll_cfg]

theorem step_cfg {s t : State} (h : step s = .next t) : t.cfg = s.cfg := by
  obtain ⟨rest, rfl⟩ | ⟨rest, -, rfl⟩ | ⟨rest, -, -, rfl⟩ | ⟨w, rest, i, u, -, -, hu, rfl⟩ := step_next_cases h
  · exact (microStep_outside _).1
  · rfl
  · rfl
  · have hcfg := exec_cfg hu
    exact hcfg

/-- Settles O45: every step keeps the configuration, so every run does. -/
theorem configurationIsConstant : Obligations.ConfigurationIsConstant := fun _ s _ h =>
  h.preserves (P := fun u => u.cfg = s.cfg) (fun _ _ hst hs => (step_cfg hst).trans hs) rfl

end Sys2Proof.Machine
end

section
/-! SUPPORT. No part of the block but `step` looks at the events still to come (00_scope R14): a command or a
micro-step does the same whatever the outside world presents next. -/

namespace Sys2Proof.Machine

/-- `s` with the events `es` still to come. -/
def State.withInputs (es : List Input) (s : State) : State := { s with inputs := es }

theorem State.withInputs_self (s : State) : s.withInputs s.inputs = s := rfl

theorem State.withInputs_phase (es : List Input) (s : State) : (s.withInputs es).phase = s.phase := rfl

/-! ### The transport -/

theorem emitAll_withInputs (ws : List WireEvent) (es : List Input) (s : State) :
    emitAll ws (s.withInputs es) = (emitAll ws s).withInputs es := by
  rw [emitAll_eq, emitAll_eq]
  rfl

theorem transmit_withInputs (b : Byte) (es : List Input) (s : State) :
    transmit b (s.withInputs es) = (transmit b s).withInputs es := by
  unfold transmit
  rw [apply_ite (State.withInputs es)]
  rfl

theorem transmitAll_withInputs (bs : List Byte) (es : List Input) (s : State) :
    transmitAll bs (s.withInputs es) = (transmitAll bs s).withInputs es := by
  induction bs generalizing s with
  | nil => rfl
  | cons b bs ih => rw [transmitAll_cons, transmitAll_cons, transmit_withInputs, ih]

/-! ### The engine -/

theorem boundaryTest_withInputs (es : List Input) (s : State) :
    boundaryTest (s.withInputs es) = (boundaryTest s).withInputs es := by
  rw [boundaryTest_eq, boundaryTest_eq]
  rfl

theorem nextByte_withInputs (es : List Input) (s : State) :
    nextByte (s.withInputs es) = (nextByte s).withInputs es := by
  unfold nextByte
  rw [apply_ite (State.withInputs es)]
  rfl

theorem microStep_withInputs (es : List Input) (s : State) :
    microStep (s.withInputs es) = (microStep s).withInputs es := by
  unfold microStep
  rw [State.withInputs_phase]
  cases s.phase with
  | idle | blankOn | rowOff | latchHi | rowOn | hold | blankOff | bitSetup | clkHi => rfl
  | latchLo =>
    simp only [phaseLatchLo]
    rw [apply_ite (State.withInputs es)]
    rfl
  | advance =>
    change goto .load (setByteIdx 0 (boundaryTest ((advanceCursor s).withInputs es))) = _
    rw [boundaryTest_withInputs]
    rfl
  | load =>
    simp only [phaseLoad]
    rw [apply_ite (State.withInputs es), ← nextByte_withInputs]
    rfl
  | clkLo =>
    simp only [phaseClkLo]
    rw [apply_ite (State.withInputs es), ← nextByte_withInputs]
    rfl
  | done =>
    simp only [phaseDone]
    rw [apply_ite returnToIdle, apply_ite returnToIdle, apply_ite (State.withInputs es)]
    rfl

/-! ### The commands -/

theorem exec_withInputs {i : Instr} {s t : State} (es : List Input) (h : exec i s = .next t) :
    exec i (s.withInputs es) = .next (t.withInputs es) := by
  cases i with
  | init =>
    obtain ⟨hb, rfl⟩ := exec_init_next.1 h
    refine exec_init_next.2 ⟨hb, ?_⟩
    rw [← emitAll_withInputs]
    rfl
  | setgs row chan val =>
    obtain ⟨hr, hu, rfl⟩ := exec_setgs_next.1 h
    exact exec_setgs_next.2 ⟨hr, hu, rfl⟩
  | setallgs val =>
    obtain ⟨hr, hu, rfl⟩ := exec_setallgs_next.1 h
    exact exec_setallgs_next.2 ⟨hr, hu, rfl⟩
  | getgs row chan =>
    obtain ⟨hr, rfl⟩ := exec_getgs_next.1 h
    exact exec_getgs_next.2 ⟨hr, rfl⟩
  | setdc chan val =>
    obtain ⟨ha, hr, rfl⟩ := exec_setdc_next.1 h
    exact exec_setdc_next.2 ⟨ha, hr, rfl⟩
  | setalldc val =>
    obtain ⟨ha, hr, rfl⟩ := exec_setalldc_next.1 h
    exact exec_setalldc_next.2 ⟨ha, hr, rfl⟩
  | getdc chan =>
    obtain ⟨ha, hr, rfl⟩ := exec_getdc_next.1 h
    exact exec_getdc_next.2 ⟨ha, hr, rfl⟩
  | commit =>
    obtain rfl := exec_commit_next.1 h
    rfl
  | pending =>
    obtain rfl := exec_pending_next.1 h
    rfl
  | gamma idx =>
    obtain ⟨ha, rfl⟩ := exec_gamma_next.1 h
    exact exec_gamma_next.2 ⟨ha, rfl⟩
  | clockindc =>
    obtain ⟨ha, hb, rfl⟩ := exec_clockindc_next.1 h
    refine exec_clockindc_next.2 ⟨ha, hb, ?_⟩
    rw [← emitAll_withInputs, ← transmitAll_withInputs, ← emitAll_withInputs]
    rfl

/-- No command consumes an event: run on the events the state lists already, it ends at the same state twice. -/
theorem exec_inputs {i : Instr} {s t : State} (h : exec i s = .next t) : t.inputs = s.inputs := by
  have h' : exec i s = .next (t.withInputs s.inputs) := exec_withInputs s.inputs h
  rw [h] at h'
  injection h' with ht
  rw [ht]
  rfl

theorem runCommand_withInputs {w : Word} {s t : State} (es : List Input) (h : runCommand w s = .next t) :
    runCommand w (s.withInputs es) = .next (t.withInputs es) := by
  obtain ⟨i, u, hw, hu, rfl⟩ := runCommand_next.1 h
  exact runCommand_next.2 ⟨i, _, hw, exec_withInputs es hu, rfl⟩

/-! ### Steps -/

/-- Quiet steps are micro-steps, whatever comes after them. -/
theorem runsTo_quiet (n : Nat) (rest : List Input) (s : State) (hc : s.cmdDone = false) :
    RunsTo n (s.withInputs (List.replicate n .quiet ++ rest)) ((microSteps n s).withInputs rest) := by
  induction n generalizing s with
  | zero => rfl
  | succ n ih =>
    have hstep : step (s.withInputs (List.replicate (n + 1) .quiet ++ rest)) =
        .next ((microStep s).withInputs (List.replicate n .quiet ++ rest)) := by
      have e : s.consume s.inputs = s := by unfold State.consume; rw [← hc]
      rw [← microStep_withInputs, ← e]
      rfl
    obtain ⟨-, -, hc', -⟩ := microStep_outside s
    exact (runsTo_step hstep).2 (ih (microStep s) (hc'.trans hc))

end Sys2Proof.Machine
end

section
/-! SUPPORT. The block at rest between two operations, a tick as its micro-steps, and the runs of the operation level
as runs of `step` (spec 00_scope R14, 42_refresh_engine R157). -/

namespace Sys2Proof.Machine

/-- The block between two operations: a valid configuration, in IDLE, the position's registers at their idle values
(42_refresh_engine R150). -/
structure State.AtRest (s : State) : Prop where
  valid : s.cfg.Valid
  idle : s.phase = .idle
  byteIdx : s.byteIdx = 0
  bitCnt : s.bitCnt = 7

theorem State.AtRest.of_inv {s : State} (hinv : s.Inv) (hidle : s.phase = .idle) : s.AtRest := by
  obtain ⟨hvalid, -, ⟨hrest, -⟩, -⟩ := hinv
  obtain ⟨hbyte, hbit⟩ := hrest hidle
  exact ⟨hvalid, hidle, hbyte, hbit⟩

theorem State.AtRest.consume {s : State} (h : s.AtRest) {es : List Input} : (s.consume es).AtRest :=
  ⟨h.valid, h.idle, h.byteIdx, h.bitCnt⟩

theorem Config.one_le_gsLen {c : Config} (h : c.Valid) : 1 ≤ c.gsLen := by
  obtain ⟨⟨hchips, -⟩, ⟨hbits, -⟩, -⟩ := h
  exact Nat.mul_pos (by omega) (by omega)

/-! ### A tick -/

@[simp] theorem transmitAll_inputs (bs : List Byte) (s : State) : (transmitAll bs s).inputs = s.inputs := by
  rw [transmitAll_frame]
@[simp] theorem boundaryTest_inputs (s : State) : (boundaryTest s).inputs = s.inputs := by rw [boundaryTest_eq]
@[simp] theorem pulsePlain_inputs (s : State) : (pulsePlain s).inputs = s.inputs := by rw [pulsePlain_eq, emitAll_eq]
@[simp] theorem pulseMux_inputs (s : State) : (pulseMux s).inputs = s.inputs := by rw [pulseMux_eq, emitAll_eq]

@[simp] theorem tickOperation_inputs (s : State) : (tickOperation s).inputs = s.inputs := by
  unfold tickOperation
  split <;> simp [sendGs_eq]
@[simp] theorem tickOperation_cfg (s : State) : (tickOperation s).cfg = s.cfg := by
  unfold tickOperation
  split <;> simp [sendGs_eq]
@[simp] theorem tickOperation_phase (s : State) : (tickOperation s).phase = s.phase := by
  unfold tickOperation
  split <;> simp [sendGs_eq]
@[simp] theorem tickOperation_byteIdx (s : State) : (tickOperation s).byteIdx = s.byteIdx := by
  unfold tickOperation
  split <;> simp [sendGs_eq]
theorem tickOperation_bitCnt {s : State} (h : s.bitCnt = 7) : (tickOperation s).bitCnt = 7 := by
  unfold tickOperation
  split
  · exact (congrArg State.bitCnt (sendGs_eq _ _)).trans (transmitAll_bitCnt _ _ (by simpa using h))
  · exact (congrArg State.bitCnt (sendGs_eq _ _)).trans (transmitAll_bitCnt _ _ (by simpa using h))

theorem tickOperation_atRest {s : State} (h : s.AtRest) : (tickOperation s).AtRest where
  valid := by rw [tickOperation_cfg]; exact h.valid
  idle := by rw [tickOperation_phase]; exact h.idle
  byteIdx := by rw [tickOperation_byteIdx]; exact h.byteIdx
  bitCnt := tickOperation_bitCnt h.bitCnt

/-- The micro-steps of a tick are those of its pulse and those of its transmission (42_refresh_engine R156). -/
theorem tickLength_eq (s : State) :
    tickLength s = (if s.cfg.mux then 8 else if s.latchPending then 6 else 4) + (s.cfg.gsLen * byteSteps s.cfg + 1) := by
  unfold tickLength byteSteps
  cases s.cfg.mux <;> cases s.latchPending <;> simp <;> omega

/-- The micro-steps of a tick are the whole tick (42_refresh_engine R157). -/
theorem microSteps_tick {s : State} (h : s.AtRest) : microSteps (tickLength s) (goto .blankOn s) = tickOperation s := by
  have hrest := tickOperation_atRest h
  have hback : goto .idle (setBitCnt 7 (setByteIdx 0 (tickOperation s))) = tickOperation s :=
    goto_setBitCnt_setByteIdx_self _ _ _ _ hrest.idle hrest.byteIdx hrest.bitCnt
  have hlen := Config.one_le_gsLen h.valid
  rw [tickLength_eq, microSteps_add]
  cases hm : s.cfg.mux with
  | true =>
    have hsend := microSteps_transmission (boundaryTest (advanceCursor (pulseMux s)))
      (by simpa using h.byteIdx) (by simpa using hlen)
    have hmux : (boundaryTest (advanceCursor (pulseMux s))).cfg = s.cfg := by simp
    rw [State.sendRow, hmux, hm] at hsend
    rw [if_pos rfl, microSteps_pulseMux s hm, hsend, if_pos rfl, if_pos rfl, ← hback, tickOperation, hm]
    rfl
  | false =>
    have hsend := microSteps_transmission (boundaryTest (pulsePlain s)) (by simpa using h.byteIdx) (by simpa using hlen)
    have hmux : (boundaryTest (pulsePlain s)).cfg = s.cfg := by simp
    rw [State.sendRow, hmux, hm] at hsend
    rw [if_neg Bool.false_ne_true, microSteps_pulsePlain s hm, hsend, if_neg Bool.false_ne_true,
      if_neg Bool.false_ne_true, ← hback, tickOperation, hm]
    rfl

/-- A tick event and the quiet steps of its length are the whole tick, whatever comes after them. -/
theorem runsTo_tick {s : State} (h : s.AtRest) (rest : List Input) :
    RunsTo (tickLength s + 1) (s.withInputs (.tick :: List.replicate (tickLength s) .quiet ++ rest))
      ((tickOperation (s.consume s.inputs)).withInputs rest) := by
  have htake : step (s.withInputs (.tick :: List.replicate (tickLength s) .quiet ++ rest)) =
      .next ((goto .blankOn (s.consume s.inputs)).withInputs (List.replicate (tickLength s) .quiet ++ rest)) :=
    takeTick_next.2 ⟨h.idle, rfl⟩
  rw [← microSteps_tick h.consume]
  exact (runsTo_step htake).2 (runsTo_quiet _ _ _ rfl)

/-! ### Operations -/

theorem exec_atRest {i : Instr} {s t : State} (h : exec i s = .next t) (hs : s.AtRest) : t.AtRest := by
  obtain ⟨hvalid, hidle, hbyte, hbit⟩ := hs
  have hcfg : t.cfg.Valid := by rw [exec_cfg h]; exact hvalid
  obtain ⟨gs, rfl⟩ | ⟨dc, rfl⟩ | ⟨n, rfl⟩ | rfl | ⟨-, -, rfl⟩ | ⟨-, -, rfl⟩ := exec_next_cases h
  · exact ⟨hcfg, hidle, hbyte, hbit⟩
  · exact ⟨hcfg, hidle, hbyte, hbit⟩
  · exact ⟨hcfg, hidle, hbyte, hbit⟩
  · exact ⟨hcfg, hidle, hbyte, hbit⟩
  · rw [emitAll_eq] at hcfg ⊢
    exact ⟨hcfg, rfl, rfl, rfl⟩
  · rw [emitAll_eq, emitAll_eq] at hcfg ⊢
    exact ⟨hcfg, by simpa using hidle, by simpa using hbyte, transmitAll_bitCnt _ _ hbit⟩

/-- What an operation that goes on does, case by case. -/
theorem operationStep_next {o : Operation} {s t : State} :
    operationStep o s = .next t ↔
      (o = .rst ∧ t = takeRst (s.consume s.inputs)) ∨
        (o = .tick ∧ s.phase = .idle ∧ t = tickOperation (s.consume s.inputs)) ∨
        ∃ w, o = .cmd w ∧ runCommand w (s.consume s.inputs) = .next t := by
  cases o with
  | rst => simp [operationStep, eq_comm]
  | tick =>
    by_cases h : s.phase = .idle
    · simpa [operationStep, State.busy, h] using eq_comm
    · simp [operationStep, State.busy, h]
  | cmd w => simp [operationStep]

theorem operationStep_atRest {o : Operation} {s t : State} (h : operationStep o s = .next t) (hs : s.AtRest) :
    t.AtRest := by
  obtain ⟨-, rfl⟩ | ⟨-, -, rfl⟩ | ⟨w, -, hw⟩ := operationStep_next.1 h
  · exact ⟨hs.valid, rfl, rfl, rfl⟩
  · exact tickOperation_atRest hs.consume
  · obtain ⟨i, u, -, hu, rfl⟩ := runCommand_next.1 hw
    obtain ⟨hvalid, hidle, hbyte, hbit⟩ := exec_atRest hu hs.consume
    exact ⟨hvalid, hidle, hbyte, hbit⟩

/-- An operation is the run of `step` on its events, whatever comes after them. -/
theorem operationStep_runsTo {o : Operation} {s t : State} (h : operationStep o s = .next t) (hs : s.AtRest)
    (rest : List Input) :
    RunsTo (o.events s).length (s.withInputs (o.events s ++ rest)) (t.withInputs rest) := by
  obtain ⟨rfl, rfl⟩ | ⟨rfl, -, rfl⟩ | ⟨w, rfl, hw⟩ := operationStep_next.1 h
  · rfl
  · simpa [Operation.events] using runsTo_tick hs rest
  · have hstep : step (s.withInputs (.cmd w :: rest)) = .next (t.withInputs rest) := runCommand_withInputs rest hw
    exact (runsTo_step hstep).2 rfl

theorem operationStep_inputs {o : Operation} {s t : State} (h : operationStep o s = .next t) : t.inputs = s.inputs := by
  obtain ⟨-, rfl⟩ | ⟨-, -, rfl⟩ | ⟨w, -, hw⟩ := operationStep_next.1 h
  · rfl
  · rw [tickOperation_inputs, State.consume_inputs]
  · obtain ⟨i, u, -, hu, rfl⟩ := runCommand_next.1 hw
    have hinputs := exec_inputs hu
    exact hinputs

theorem runOperations_cons_next {o : Operation} {os : List Operation} {s t : State} :
    runOperations (o :: os) s = .next t ↔ ∃ u, operationStep o s = .next u ∧ runOperations os u = .next t := by
  rw [runOperations]
  cases operationStep o s <;> simp

/-- A run of the operation level from rest is the run of `step` on the events of its operations, in order. -/
theorem runOperations_runsTo {ops : List Operation} {s t : State} (h : runOperations ops s = .next t) (hs : s.AtRest) :
    ∃ events, RunsTo events.length (s.withInputs events) (t.withInputs []) := by
  induction ops generalizing s with
  | nil =>
    obtain rfl : s = t := by simpa [runOperations] using h
    exact ⟨[], rfl⟩
  | cons o os ih =>
    obtain ⟨u, ho, hos⟩ := runOperations_cons_next.1 h
    obtain ⟨events, hrun⟩ := ih hos (operationStep_atRest ho hs)
    refine ⟨o.events s ++ events, ?_⟩
    rw [List.length_append]
    exact (operationStep_runsTo ho hs events).trans hrun

theorem runOperations_inputs {ops : List Operation} {s t : State} (h : runOperations ops s = .next t) :
    t.inputs = s.inputs := by
  induction ops generalizing s with
  | nil =>
    obtain rfl : s = t := by simpa [runOperations] using h
    rfl
  | cons o os ih =>
    obtain ⟨u, ho, hos⟩ := runOperations_cons_next.1 h
    exact (ih hos).trans (operationStep_inputs ho)

/-- Settles O56, by induction over the operations: the block is at rest between two of them, and each is the run of
`step` on its own events. -/
theorem operationRunsAreStepRuns : Obligations.OperationRunsAreStepRuns := by
  intro ops s t hinv hidle hin h
  obtain ⟨events, hrun⟩ := runOperations_runsTo h (.of_inv hinv hidle)
  have ht : t.withInputs [] = t := by
    rw [← hin, ← runOperations_inputs h]
    exact t.withInputs_self
  rw [ht] at hrun
  exact ⟨events.length, events, hrun⟩

end Sys2Proof.Machine
end

section
/-! SUPPORT. What the parts of the block that drive the wire leave alone: the memories and `resp`, and the pins beyond
the events they append (spec 10_state R29, R33). -/

namespace Sys2Proof.Machine

/-- `t` comes from `s` by wire events and updates of the block's own registers: the memories and `resp` stay, and the
pins are what the appended events make of them. -/
structure State.DrivesTo (s t : State) : Prop where
  gs : t.gs = s.gs
  dc : t.dc = s.dc
  resp : t.resp = s.resp
  wire : ∃ es, t.wire = s.wire ++ es ∧ t.pins = s.pins.replay es

/-- Updates of the block's own registers, no wire event. -/
theorem State.DrivesTo.of_silent {s t : State} (hgs : t.gs = s.gs) (hdc : t.dc = s.dc) (hresp : t.resp = s.resp)
    (hwire : t.wire = s.wire) (hpins : t.pins = s.pins) : s.DrivesTo t :=
  ⟨hgs, hdc, hresp, [], by rw [hwire, List.append_nil], hpins⟩

theorem State.DrivesTo.trans {s t u : State} (h : s.DrivesTo t) (h' : t.DrivesTo u) : s.DrivesTo u := by
  obtain ⟨es, hwire, hpins⟩ := h.wire
  obtain ⟨fs, hwire', hpins'⟩ := h'.wire
  exact ⟨h'.gs.trans h.gs, h'.dc.trans h.dc, h'.resp.trans h.resp, es ++ fs,
    by rw [hwire', hwire, List.append_assoc], by rw [hpins', hpins, Pins.replay_append]⟩

theorem emitAll_drives (es : List WireEvent) (s : State) : s.DrivesTo (emitAll es s) := by
  rw [emitAll_eq]
  exact ⟨rfl, rfl, rfl, es, rfl, rfl⟩

theorem transmitAll_drives (bs : List Byte) (s : State) : s.DrivesTo (transmitAll bs s) where
  gs := by rw [transmitAll_frame]
  dc := by rw [transmitAll_frame]
  resp := by rw [transmitAll_frame]
  wire := ⟨_, transmitAll_wire bs s, transmitAll_pins bs s⟩

theorem boundaryTest_drives (s : State) : s.DrivesTo (boundaryTest s) := by
  rw [boundaryTest_eq]
  exact .of_silent rfl rfl rfl rfl rfl

/-- After a byte, the sequencer's new position (42_refresh_engine R150, CLK_LO). -/
theorem nextByte_eq (s : State) :
    nextByte s = { s with
      phase := if s.byteIdx < s.cfg.gsLen - 1 then .load else .done
      byteIdx := if s.byteIdx < s.cfg.gsLen - 1 then s.byteIdx + 1 else s.byteIdx } := by
  unfold nextByte
  split <;> rfl

theorem nextByte_drives (s : State) : s.DrivesTo (nextByte s) := by
  rw [nextByte_eq]
  exact .of_silent rfl rfl rfl rfl rfl

/-- A micro-step drives the wire and moves the sequencer; it touches neither the memories nor `resp`. -/
theorem microStep_drives (s : State) : s.DrivesTo (microStep s) := by
  unfold microStep
  cases s.phase with
  | idle | hold => exact .of_silent rfl rfl rfl rfl rfl
  | blankOn => exact ⟨rfl, rfl, rfl, [.pin .blank true], rfl, rfl⟩
  | rowOff => exact ⟨rfl, rfl, rfl, [.rowSel _], rfl, rfl⟩
  | latchHi => exact ⟨rfl, rfl, rfl, [.pin .latch true], rfl, rfl⟩
  | latchLo =>
    simp only [phaseLatchLo]
    split
    · exact ⟨rfl, rfl, rfl, [.pin .latch false], rfl, rfl⟩
    · exact ⟨rfl, rfl, rfl, [.pin .latch false], rfl, rfl⟩
  | rowOn => exact ⟨rfl, rfl, rfl, [.rowSel _], rfl, rfl⟩
  | blankOff => exact ⟨rfl, rfl, rfl, [.pin .blank false], rfl, rfl⟩
  | advance =>
    obtain ⟨hgs, hdc, hresp, hwire⟩ := boundaryTest_drives (advanceCursor s)
    exact ⟨hgs, hdc, hresp, hwire⟩
  | load =>
    simp only [phaseLoad]
    split
    · exact .of_silent rfl rfl rfl rfl rfl
    · exact (emitAll_drives [.byte s.loadByte] s).trans (nextByte_drives _)
  | bitSetup => exact ⟨rfl, rfl, rfl, [.pin .dataOut _], rfl, rfl⟩
  | clkHi => exact ⟨rfl, rfl, rfl, [.pin .clkOut true], rfl, rfl⟩
  | clkLo =>
    simp only [phaseClkLo]
    split
    · exact ⟨rfl, rfl, rfl, [.pin .clkOut false], rfl, rfl⟩
    · exact (emitAll_drives [.pin .clkOut false] s).trans (nextByte_drives _)
  | done =>
    simp only [phaseDone]
    split
    · exact .of_silent rfl rfl rfl rfl rfl
    · exact .of_silent rfl rfl rfl rfl rfl

theorem exec_init_drives {s t : State} (h : exec .init s = .next t) : s.DrivesTo t := by
  obtain ⟨-, rfl⟩ := exec_init_next.1 h
  obtain ⟨hgs, hdc, hresp, hwire⟩ := emitAll_drives (initEvents s.cfg) (initRegisters s)
  exact ⟨hgs, hdc, hresp, hwire⟩

theorem exec_clockindc_drives {s t : State} (h : exec .clockindc s = .next t) : s.DrivesTo t := by
  obtain ⟨-, -, rfl⟩ := exec_clockindc_next.1 h
  exact ((emitAll_drives _ _).trans (transmitAll_drives _ _)).trans (emitAll_drives _ _)

/-! ### The response register (10_state R29) -/

theorem exec_resp {i : Instr} {s t : State} (h : exec i s = .next t) :
    t.resp = s.resp ∨ i.mnemonic ∈ ["GETGS", "GETDC", "PENDING", "GAMMA"] := by
  cases i with
  | init => exact .inl (exec_init_drives h).resp
  | setgs row chan val =>
    obtain ⟨-, -, rfl⟩ := exec_setgs_next.1 h
    exact .inl rfl
  | setallgs val =>
    obtain ⟨-, -, rfl⟩ := exec_setallgs_next.1 h
    exact .inl rfl
  | setdc chan val =>
    obtain ⟨-, -, rfl⟩ := exec_setdc_next.1 h
    exact .inl rfl
  | setalldc val =>
    obtain ⟨-, -, rfl⟩ := exec_setalldc_next.1 h
    exact .inl rfl
  | commit =>
    obtain rfl := exec_commit_next.1 h
    exact .inl rfl
  | clockindc => exact .inl (exec_clockindc_drives h).resp
  | getgs row chan | getdc chan | pending | gamma idx => exact .inr (by simp [Instr.mnemonic])

/-- Settles O41, over the cases of a step: the engine and the tick event leave `resp`, `rst` clears it, and of the
commands only the readers write it. -/
theorem responseWrittenOnlyByReaders : Obligations.ResponseWrittenOnlyByReaders := by
  intro s t hstep hne
  obtain ⟨rest, rfl⟩ | ⟨rest, hin, rfl⟩ | ⟨rest, -, -, rfl⟩ | ⟨w, rest, i, u, hin, hw, hu, rfl⟩ := step_next_cases hstep
  · exact absurd (microStep_drives _).resp hne
  · exact .inl ⟨rest, hin, rfl⟩
  · exact absurd rfl hne
  · exact .inr ⟨w, rest, i, hin, hw, (exec_resp hu).resolve_left hne⟩

/-! ### The memories (log 6) -/

theorem fillGS_wf (cfg : Config) (draw : Nat → Byte) (base v n : Nat) {m : Memory} (h : m.wf) :
    (fillGS cfg draw base v n m).wf := by
  induction n with
  | zero => exact h
  | succ n ih => exact putBits_wf draw _ _ _ _ ih

theorem fillRows_wf (cfg : Config) (draw : Nat → Byte) (p : Bool) (v n : Nat) {m : Memory} (h : m.wf) :
    (fillRows cfg draw p v n m).wf := by
  induction n with
  | zero => exact h
  | succ n ih => exact fillGS_wf cfg draw _ v _ ih

theorem fillDC_wf (cfg : Config) (draw : Nat → Byte) (v n : Nat) {m : Memory} (h : m.wf) :
    (fillDC cfg draw v n m).wf := by
  induction n with
  | zero => exact h
  | succ n ih => exact putBits_wf draw _ _ _ _ ih

theorem State.DrivesTo.memoryCanonical {s t : State} (h : s.DrivesTo t) (hs : s.MemoryCanonical) :
    t.MemoryCanonical := by
  rw [State.MemoryCanonical, h.gs, h.dc]
  exact hs

theorem exec_memoryCanonical {i : Instr} {s t : State} (h : exec i s = .next t) (hs : s.MemoryCanonical) :
    t.MemoryCanonical := by
  obtain ⟨hgs, hdc⟩ := hs
  cases i with
  | init => exact (exec_init_drives h).memoryCanonical ⟨hgs, hdc⟩
  | setgs row chan val =>
    obtain ⟨-, -, rfl⟩ := exec_setgs_next.1 h
    exact ⟨putBits_wf _ _ _ _ _ hgs, hdc⟩
  | setallgs val =>
    obtain ⟨-, -, rfl⟩ := exec_setallgs_next.1 h
    exact ⟨fillRows_wf _ _ _ _ _ hgs, hdc⟩
  | getgs row chan =>
    obtain ⟨-, rfl⟩ := exec_getgs_next.1 h
    exact ⟨hgs, hdc⟩
  | setdc chan val =>
    obtain ⟨-, -, rfl⟩ := exec_setdc_next.1 h
    exact ⟨hgs, putBits_wf _ _ _ _ _ hdc⟩
  | setalldc val =>
    obtain ⟨-, -, rfl⟩ := exec_setalldc_next.1 h
    exact ⟨hgs, fillDC_wf _ _ _ _ hdc⟩
  | getdc chan =>
    obtain ⟨-, -, rfl⟩ := exec_getdc_next.1 h
    exact ⟨hgs, hdc⟩
  | commit =>
    obtain rfl := exec_commit_next.1 h
    exact ⟨hgs, hdc⟩
  | pending =>
    obtain rfl := exec_pending_next.1 h
    exact ⟨hgs, hdc⟩
  | gamma idx =>
    obtain ⟨-, rfl⟩ := exec_gamma_next.1 h
    exact ⟨hgs, hdc⟩
  | clockindc => exact (exec_clockindc_drives h).memoryCanonical ⟨hgs, hdc⟩

/-- Settles O50: a write of a byte keeps the keys rising, every bulk command is a sequence of such writes, and `rst`
empties both lists. -/
theorem memoryCanonicalKept : Obligations.MemoryCanonicalKept := by
  intro s t hs hstep
  obtain ⟨rest, rfl⟩ | ⟨rest, -, rfl⟩ | ⟨rest, -, -, rfl⟩ | ⟨w, rest, i, u, -, -, hu, rfl⟩ := step_next_cases hstep
  · exact (microStep_drives _).memoryCanonical hs
  · exact ⟨List.Pairwise.nil, List.Pairwise.nil⟩
  · exact hs
  · have hexec := exec_memoryCanonical hu hs
    exact hexec

/-! ### The pins and the trace (43_transport R170) -/

theorem State.DrivesTo.pinsFollowWire {s t : State} (h : s.DrivesTo t) (hs : s.PinsFollowWire) :
    t.PinsFollowWire := by
  obtain ⟨es, hwire, hpins⟩ := h.wire
  rw [State.PinsFollowWire, hwire, hpins, Pins.replay_append, hs]

theorem exec_pinsFollowWire {i : Instr} {s t : State} (h : exec i s = .next t) (hs : s.PinsFollowWire) :
    t.PinsFollowWire := by
  obtain ⟨gs, rfl⟩ | ⟨dc, rfl⟩ | ⟨n, rfl⟩ | rfl | ⟨rfl, -, -⟩ | ⟨rfl, -, -⟩ := exec_next_cases h
  · exact hs
  · exact hs
  · exact hs
  · exact hs
  · exact (exec_init_drives h).pinsFollowWire hs
  · exact (exec_clockindc_drives h).pinsFollowWire hs

/-- Settles O52: every part of the block changes the pins by the events it appends, and `rst` empties the trace as it
puts the pins at their reset values. -/
theorem pinsFollowWireKept : Obligations.PinsFollowWireKept := by
  intro s t hs hstep
  obtain ⟨rest, rfl⟩ | ⟨rest, -, rfl⟩ | ⟨rest, -, -, rfl⟩ | ⟨w, rest, i, u, -, -, hu, rfl⟩ := step_next_cases hstep
  · exact (microStep_drives _).pinsFollowWire hs
  · rfl
  · exact hs
  · have hexec := exec_pinsFollowWire hu hs
    exact hexec

end Sys2Proof.Machine
end

section
/-! SUPPORT. The block's invariant: it holds after `rst`, and the sequencer and every command keep it (spec 10_state
R24 to R30, 42_refresh_engine R149 to R155, 43_transport R169). -/

namespace Sys2Proof.Machine

/-! ### After reset -/

/-- What a phase asks of the registers and the configuration, beside `byte_idx` in range. -/
def State.AdmitsPhase (s : State) : Phase → Prop
  | .idle => s.byteIdx = 0 ∧ s.bitCnt = 7
  | .rowOff | .rowOn => s.cfg.mux = true
  | .latchHi | .latchLo => s.cfg.mux = false → s.latchPending = true
  | .bitSetup | .clkHi | .clkLo => s.cfg.bitBanged = true
  | .blankOn | .hold | .blankOff | .advance | .load | .done => True

theorem sequencerLegal_iff {s : State} : s.SequencerLegal ↔ s.byteIdx < s.cfg.gsLen ∧ s.AdmitsPhase s.phase := by
  unfold State.SequencerLegal
  cases h : s.phase <;> simp [State.AdmitsPhase, and_comm]

/-- Every register and pin at its reset value (10_state R39). -/
structure State.AtResetValues (s : State) : Prop where
  front : s.front = false
  updateReq : s.updateReq = false
  rowCursor : s.rowCursor = 0
  latchPending : s.latchPending = false
  phase : s.phase = .idle
  byteIdx : s.byteIdx = 0
  bitCnt : s.bitCnt = 7
  sr : s.sr = 0
  pins : s.pins = Pins.reset

theorem State.afterReset_atResetValues (c : Config) (epoch : Nat) (inputs : List Input) :
    (State.afterReset c epoch inputs).AtResetValues := ⟨rfl, rfl, rfl, rfl, rfl, rfl, rfl, rfl, rfl⟩

theorem Config.one_le_nRows (c : Config) : 1 ≤ c.nRows := by
  unfold Config.nRows
  cases hm : c.mux with
  | true => exact of_decide_eq_true hm
  | false => exact le_rfl

theorem State.AtRest.sequencerLegal {s : State} (h : s.AtRest) : s.SequencerLegal := by
  obtain ⟨hvalid, hidle, hbyte, hbit⟩ := h
  rw [sequencerLegal_iff, hidle, hbyte]
  exact ⟨Config.one_le_gsLen hvalid, hbyte, hbit⟩

theorem State.AtResetValues.inv {s : State} (h : s.AtResetValues) (hvalid : s.cfg.Valid) : s.Inv := by
  obtain ⟨-, -, hrow, hlatch, hidle, hbyte, hbit, -, hpins⟩ := h
  refine ⟨hvalid, ⟨hrow ▸ Config.one_le_nRows s.cfg, fun _ => hlatch⟩,
    State.AtRest.sequencerLegal ⟨hvalid, hidle, hbyte, hbit⟩, ?_⟩
  rw [State.PinsLegal, hpins, hidle]
  exact ⟨rfl, rfl, rfl, fun _ => rfl, fun _ => rfl, Nat.two_pow_pos _⟩

theorem State.afterReset_inv (epoch : Nat) (inputs : List Input) {c : Config} (h : c.Valid) :
    (State.afterReset c epoch inputs).Inv := (State.afterReset_atResetValues c epoch inputs).inv h

/-- Settles O48: the reset state of any valid configuration has the registers and pins at legal values, empty memories
and an empty trace. -/
theorem invariantsHoldAtReset : Obligations.InvariantsHoldAtReset := by
  refine ⟨State.afterReset_inv 0 [] (by decide), fun c hc => ⟨State.afterReset c 0 [], if_pos hc,
    State.afterReset_inv 0 [] hc, ⟨List.Pairwise.nil, List.Pairwise.nil⟩, rfl, rfl, ?_, fun _ => .inl rfl⟩⟩
  have hedges : latches (State.afterReset c 0 []).wire = [] := rfl
  have hclocks : clockEdges (State.afterReset c 0 []).wire = [] := rfl
  rw [State.WireLawful, hedges, hclocks]
  simp

end Sys2Proof.Machine
end

section
/-! SUPPORT. The sequencer keeps the block's invariant, part by part, phase by phase (spec 42_refresh_engine R150). -/

namespace Sys2Proof.Machine

/-! ### The registers (10_state R24, R25) -/

theorem advanceCursor_registersLegal {s : State} (h : s.RegistersLegal) : (advanceCursor s).RegistersLegal := by
  obtain ⟨hrow, hlatch⟩ := h
  refine ⟨?_, hlatch⟩
  cases hm : s.cfg.mux with
  | true =>
    have hrows : s.cfg.nRows = s.cfg.multiplexRows := if_pos hm
    rw [hrows] at hrow
    simpa [advanceCursor, hm, hrows] using Nat.mod_lt _ (Nat.zero_lt_of_lt hrow)
  | false => rwa [advanceCursor_plain s hm]

theorem boundaryTest_registersLegal {s : State} (h : s.RegistersLegal) : (boundaryTest s).RegistersLegal := by
  rw [boundaryTest_eq]
  exact h

theorem nextByte_registersLegal {s : State} (h : s.RegistersLegal) : (nextByte s).RegistersLegal := by
  rw [nextByte_eq]
  exact h

theorem microStep_registersLegal {s : State} (h : s.RegistersLegal) : (microStep s).RegistersLegal := by
  have ⟨hrow, _⟩ := h
  unfold microStep
  cases s.phase with
  | idle | blankOn | rowOff | latchHi | rowOn | hold | blankOff | bitSetup | clkHi => exact h
  | latchLo =>
    simp only [phaseLatchLo]
    split
    · exact h
    · exact ⟨hrow, fun _ => rfl⟩
  | advance => exact boundaryTest_registersLegal (advanceCursor_registersLegal h)
  | load =>
    simp only [phaseLoad]
    split
    · exact h
    · exact nextByte_registersLegal h
  | clkLo =>
    simp only [phaseClkLo]
    split
    · exact h
    · exact nextByte_registersLegal h
  | done =>
    simp only [phaseDone]
    split
    · exact h
    · exact ⟨hrow, fun hm => absurd hm ‹_›⟩

/-! ### The sequencer's position (10_state R26) -/

theorem nextByte_sequencerLegal {s : State} (h : s.byteIdx < s.cfg.gsLen) : (nextByte s).SequencerLegal := by
  rw [sequencerLegal_iff, nextByte_eq]
  dsimp only
  split
  · exact ⟨by omega, trivial⟩
  · exact ⟨h, trivial⟩

theorem microStep_sequencerLegal {s : State} (hvalid : s.cfg.Valid) (h : s.SequencerLegal) :
    (microStep s).SequencerLegal := by
  obtain ⟨hbyte, hphase⟩ := sequencerLegal_iff.1 h
  unfold microStep
  cases hp : s.phase with
  | idle => exact h
  | blankOn =>
    refine sequencerLegal_iff.2 ⟨hbyte, ?_⟩
    simp only [phaseBlankOn, goto_phase]
    split
    · exact ‹_›
    · split
      · exact fun _ => ‹_›
      · trivial
  | rowOff =>
    rw [hp] at hphase
    exact sequencerLegal_iff.2 ⟨hbyte, fun hm => absurd (hm.symm.trans hphase) Bool.false_ne_true⟩
  | latchHi =>
    rw [hp] at hphase
    exact sequencerLegal_iff.2 ⟨hbyte, hphase⟩
  | latchLo =>
    simp only [phaseLatchLo]
    split
    · exact sequencerLegal_iff.2 ⟨hbyte, ‹_›⟩
    · exact sequencerLegal_iff.2 ⟨hbyte, trivial⟩
  | rowOn | hold | blankOff => exact sequencerLegal_iff.2 ⟨hbyte, trivial⟩
  | advance =>
    refine sequencerLegal_iff.2 ⟨?_, trivial⟩
    simp only [phaseAdvance, goto_byteIdx, setByteIdx_byteIdx, goto_cfg, setByteIdx_cfg, boundaryTest_cfg]
    exact Config.one_le_gsLen hvalid
  | load =>
    simp only [phaseLoad]
    split
    · exact sequencerLegal_iff.2 ⟨hbyte, ‹_›⟩
    · exact nextByte_sequencerLegal hbyte
  | bitSetup =>
    rw [hp] at hphase
    exact sequencerLegal_iff.2 ⟨hbyte, hphase⟩
  | clkHi =>
    rw [hp] at hphase
    exact sequencerLegal_iff.2 ⟨hbyte, hphase⟩
  | clkLo =>
    rw [hp] at hphase
    simp only [phaseClkLo]
    split
    · exact sequencerLegal_iff.2 ⟨hbyte, hphase⟩
    · exact nextByte_sequencerLegal hbyte
  | done =>
    refine sequencerLegal_iff.2 ⟨?_, ?_⟩
    · simp only [phaseDone, returnToIdle_byteIdx, returnToIdle_cfg]
      split <;> exact Config.one_le_gsLen hvalid
    · exact ⟨rfl, rfl⟩

/-! ### The pins (10_state R30, 43_transport R169) -/

/-- An entry of ROWTAB for a legal cursor asserts a row the block has (42_refresh_engine R158). -/
theorem rowTab_assert_lt {R c : Nat} (hc : c < R) : (rowTab R (2 * c + 1)).toNat < 2 ^ R := by
  have e : rowTab R (2 * c + 1) = 1#8 <<< c := by
    unfold rowTab
    rw [if_neg (by omega), show (2 * c + 1) / 2 = c by omega]
  rw [e, BitVec.toNat_shiftLeft, show (1#8).toNat = 1 from rfl, Nat.one_shiftLeft]
  exact (Nat.mod_le _ _).trans_lt (Nat.pow_lt_pow_right (by decide) hc)

/-- Outside the blanked interval `blank` may have either level (42_refresh_engine R139). -/
theorem State.PinsLegal.of_unblanked {s : State} (hphase : s.phase.blanked = false)
    (hlatch : s.pins.latch = (s.phase == .latchLo)) (hclk : s.pins.clkOut = (s.phase == .clkLo))
    (hprog : s.pins.progSel = false) (hdata : s.cfg.bitBanged = false → s.pins.dataOut = false)
    (hrow : s.pins.rowSel.toNat < 2 ^ s.cfg.multiplexRows) : s.PinsLegal :=
  ⟨hlatch, hclk, hprog, fun h => absurd (hphase.symm.trans h) Bool.false_ne_true, hdata, hrow⟩

theorem nextByte_pinsLegal {s : State} (h : (goto .load s).PinsLegal) : (nextByte s).PinsLegal := by
  unfold nextByte
  split
  · exact h
  · exact h

theorem microStep_pinsLegal {s : State} (hregs : s.RegistersLegal) (hseq : s.SequencerLegal) (h : s.PinsLegal) :
    (microStep s).PinsLegal := by
  obtain ⟨hcursor, -⟩ := hregs
  obtain ⟨-, hphase⟩ := sequencerLegal_iff.1 hseq
  obtain ⟨hlatch, hclk, hprog, hblank, hdata, hrow⟩ := h
  unfold microStep
  cases hp : s.phase with
  | idle => exact ⟨hlatch, hclk, hprog, hblank, hdata, hrow⟩
  | blankOn =>
    rw [hp] at hlatch hclk
    simp only [phaseBlankOn]
    split
    · exact ⟨hlatch, hclk, hprog, fun _ => rfl, hdata, hrow⟩
    · split
      · exact ⟨hlatch, hclk, hprog, fun _ => rfl, hdata, hrow⟩
      · exact ⟨hlatch, hclk, hprog, fun _ => rfl, hdata, hrow⟩
  | rowOff =>
    rw [hp] at hlatch hclk hblank
    refine ⟨hlatch, hclk, hprog, hblank, hdata, ?_⟩
    exact (BitVec.toNat_and _ _ ▸ Nat.and_le_left).trans_lt hrow
  | latchHi =>
    rw [hp] at hclk hblank
    exact ⟨rfl, hclk, hprog, hblank, hdata, hrow⟩
  | latchLo =>
    rw [hp] at hclk hblank
    simp only [phaseLatchLo]
    split
    · exact ⟨rfl, hclk, hprog, hblank, hdata, hrow⟩
    · exact ⟨rfl, hclk, hprog, hblank, hdata, hrow⟩
  | rowOn =>
    rw [hp] at hlatch hclk hblank hphase
    refine ⟨hlatch, hclk, hprog, hblank, hdata, ?_⟩
    have hrows : s.cfg.nRows = s.cfg.multiplexRows := if_pos hphase
    rw [hrows] at hcursor
    exact (BitVec.toNat_or _ _).trans_lt (Nat.or_lt_two_pow hrow (rowTab_assert_lt hcursor))
  | hold =>
    rw [hp] at hlatch hclk hblank
    exact ⟨hlatch, hclk, hprog, hblank, hdata, hrow⟩
  | blankOff =>
    rw [hp] at hlatch hclk
    exact .of_unblanked rfl hlatch hclk hprog hdata hrow
  | advance =>
    rw [hp] at hlatch hclk
    simp only [phaseAdvance, boundaryTest_eq]
    exact .of_unblanked rfl hlatch hclk hprog hdata hrow
  | load =>
    rw [hp] at hlatch hclk
    simp only [phaseLoad]
    split
    · exact .of_unblanked rfl hlatch hclk hprog hdata hrow
    · exact nextByte_pinsLegal (.of_unblanked rfl hlatch hclk hprog hdata hrow)
  | bitSetup =>
    rw [hp] at hlatch hclk hphase
    exact .of_unblanked rfl hlatch hclk hprog (fun h => absurd (h.symm.trans hphase) Bool.false_ne_true) hrow
  | clkHi =>
    rw [hp] at hlatch
    exact .of_unblanked rfl hlatch rfl hprog hdata hrow
  | clkLo =>
    rw [hp] at hlatch
    simp only [phaseClkLo]
    split
    · exact .of_unblanked rfl hlatch rfl hprog hdata hrow
    · exact nextByte_pinsLegal (.of_unblanked rfl hlatch rfl hprog hdata hrow)
  | done =>
    rw [hp] at hlatch hclk
    simp only [phaseDone]
    split
    · exact .of_unblanked rfl hlatch hclk hprog hdata hrow
    · exact .of_unblanked rfl hlatch hclk hprog hdata hrow

theorem microStep_inv {s : State} (h : s.Inv) : (microStep s).Inv := by
  obtain ⟨hvalid, hregs, hseq, hpins⟩ := h
  obtain ⟨hcfg, -⟩ := microStep_outside s
  exact ⟨hcfg ▸ hvalid, microStep_registersLegal hregs, microStep_sequencerLegal hvalid hseq,
    microStep_pinsLegal hregs hseq hpins⟩

/-! ### The commands -/

/-- Under a peripheral transport a transmission leaves every pin as it was (43_transport R166). -/
theorem replay_bytes_peripheral {c : Config} (h : c.bitBanged = false) (bs : List Byte) (ps : Pins) :
    ps.replay (bs.flatMap (transmitEvents c)) = ps := by
  induction bs with
  | nil => rfl
  | cons b bs ih => rw [List.flatMap_cons, Pins.replay_append, replay_transmitEvents, h]; exact ih

/-- A transmission leaves the clock low (43_transport R169). -/
theorem replay_bytes_clkOut (c : Config) (bs : List Byte) {ps : Pins} (h : ps.clkOut = false) :
    (ps.replay (bs.flatMap (transmitEvents c))).clkOut = false := by
  induction bs generalizing ps with
  | nil => exact h
  | cons b bs ih =>
    rw [List.flatMap_cons, Pins.replay_append, replay_transmitEvents]
    split
    · exact ih rfl
    · exact ih h

/-- Without multiplexing no bit of `row_sel` is a row. -/
theorem State.PinsLegal.rowSel_eq_zero {s : State} (h : s.PinsLegal) (hm : s.cfg.mux = false) : s.pins.rowSel = 0 := by
  obtain ⟨-, -, -, -, -, hrow⟩ := h
  have hR : s.cfg.multiplexRows = 0 := by simpa [Config.mux] using hm
  rw [hR] at hrow
  exact BitVec.eq_of_toNat_eq (Nat.lt_one_iff.1 hrow)

/-- INIT's events, pin by pin: a pin the block has goes to its reset value, another stays (41_handoff R120). -/
theorem replay_initEvents (c : Config) (ps : Pins) :
    ps.replay (initEvents c) =
      { clkOut := if c.bitBanged then false else ps.clkOut
        dataOut := if c.bitBanged then false else ps.dataOut
        latch := false
        blank := true
        progSel := if c.hasProgSel then false else ps.progSel
        rowSel := if c.mux then 0 else ps.rowSel } := by
  unfold initEvents
  cases c.bitBanged <;> cases c.hasProgSel <;> cases c.mux <;> rfl

theorem replay_initEvents_of_legal {s : State} (h : s.PinsLegal) (hidle : s.phase = .idle) :
    s.pins.replay (initEvents s.cfg) = Pins.reset := by
  have hrow : s.cfg.mux = false → s.pins.rowSel = 0 := h.rowSel_eq_zero
  obtain ⟨-, hclk, hprog, -, hdata, -⟩ := h
  have hclk : s.pins.clkOut = false := by rw [hclk, hidle]; rfl
  rw [replay_initEvents, hclk, hprog, ite_self, ite_self, Pins.reset]
  congr 1
  · cases hb : s.cfg.bitBanged with
    | true => rfl
    | false => exact hdata hb
  · cases hm : s.cfg.mux with
    | true => rfl
    | false => exact hrow hm

theorem exec_init_atResetValues {s t : State} (hinv : s.Inv) (h : exec .init s = .next t) : t.AtResetValues := by
  obtain ⟨hbusy, rfl⟩ := exec_init_next.1 h
  obtain ⟨-, ⟨hrow, hlatch⟩, -, hpins⟩ := hinv
  have hidle : s.phase = .idle := by simpa [State.busy] using hbusy
  have hpins : s.pins.replay (initEvents s.cfg) = Pins.reset := replay_initEvents_of_legal hpins hidle
  rw [emitAll_eq]
  refine ⟨rfl, rfl, ?_, ?_, rfl, rfl, rfl, rfl, hpins⟩
  · cases hm : s.cfg.mux with
    | true => simp [hm]
    | false => simpa [hm, Config.nRows] using hrow
  · cases hm : s.cfg.mux with
    | true => simpa [hm] using hlatch
    | false => simp [hm]

/-- What CLOCKINDC leaves on the pins: `prog_sel` and `latch` low, the others as the transmission left them
(43_transport R172). -/
theorem exec_clockindc_pins {s t : State} (h : exec .clockindc s = .next t) :
    t.pins = { Pins.replay { s.pins with progSel := true } (s.dcBytes.flatMap (transmitEvents s.cfg)) with
      latch := false, progSel := false } := by
  obtain ⟨-, -, rfl⟩ := exec_clockindc_next.1 h
  rw [emitAll_pins, transmitAll_pins, emitAll_pins, emitAll_cfg]
  rfl

theorem exec_clockindc_pinsLegal {s t : State} (hrest : s.AtRest) (hpins : s.PinsLegal)
    (h : exec .clockindc s = .next t) : t.PinsLegal := by
  obtain ⟨-, hclk, -, -, hdata, hrow⟩ := hpins
  obtain ⟨-, -, hrows, -⟩ := replay_bytes s.cfg s.dcBytes { s.pins with progSel := true }
  have hlow : s.pins.clkOut = false := by rw [hclk, hrest.idle]; rfl
  refine .of_unblanked (by rw [(exec_atRest h hrest).idle]; rfl) ?_ ?_ ?_ ?_ ?_ <;>
    rw [exec_clockindc_pins h]
  · rw [(exec_atRest h hrest).idle]; rfl
  · rw [(exec_atRest h hrest).idle]; exact replay_bytes_clkOut s.cfg s.dcBytes hlow
  · rw [exec_cfg h]
    intro hb
    rw [replay_bytes_peripheral hb]
    exact hdata hb
  · rw [exec_cfg h]
    exact hrows ▸ hrow

theorem exec_clockindc_registers {s t : State} (h : exec .clockindc s = .next t) :
    t.rowCursor = s.rowCursor ∧ t.latchPending = s.latchPending := by
  obtain ⟨-, -, rfl⟩ := exec_clockindc_next.1 h
  rw [emitAll_eq, transmitAll_frame, emitAll_eq]
  exact ⟨rfl, rfl⟩

theorem exec_clockindc_inv {s t : State} (hinv : s.Inv) (h : exec .clockindc s = .next t) : t.Inv := by
  obtain ⟨-, hbusy, -⟩ := exec_clockindc_next.1 h
  have hrest : s.AtRest := .of_inv hinv (by simpa [State.busy] using hbusy)
  obtain ⟨hvalid, hregs, -, hpins⟩ := hinv
  obtain ⟨hrow, hlatch⟩ := exec_clockindc_registers h
  have hregs : t.RegistersLegal := by
    rw [State.RegistersLegal, hrow, hlatch, exec_cfg h]
    exact hregs
  exact ⟨exec_cfg h ▸ hvalid, hregs, (exec_atRest h hrest).sequencerLegal, exec_clockindc_pinsLegal hrest hpins h⟩

theorem exec_inv {i : Instr} {s t : State} (hinv : s.Inv) (h : exec i s = .next t) : t.Inv := by
  obtain ⟨gs, rfl⟩ | ⟨dc, rfl⟩ | ⟨n, rfl⟩ | rfl | ⟨rfl, -, -⟩ | ⟨rfl, -, -⟩ := exec_next_cases h
  · exact hinv
  · exact hinv
  · exact hinv
  · exact hinv
  · exact (exec_init_atResetValues hinv h).inv (exec_cfg h ▸ hinv.1)
  · exact exec_clockindc_inv hinv h

/-- A tick event in IDLE: the sequencer's new phase asks nothing of the registers and no pin has moved. -/
theorem goto_blankOn_inv {s : State} (hinv : s.Inv) (hidle : s.phase = .idle) : (goto .blankOn s).Inv := by
  obtain ⟨hvalid, hregs, ⟨-, hbyte, -⟩, hlatch, hclk, hprog, -, hdata, hrow⟩ := hinv
  rw [hidle] at hlatch hclk
  exact ⟨hvalid, hregs, sequencerLegal_iff.2 ⟨hbyte, trivial⟩, .of_unblanked rfl hlatch hclk hprog hdata hrow⟩

/-- Settles O49, over the cases of a step: the sequencer's micro-steps keep each part of the invariant, `rst` and INIT
put the block at its reset values, the tick event only leaves IDLE, and of the other commands CLOCKINDC alone drives
pins. -/
theorem invariantKept : Obligations.InvariantKept := by
  intro s t hinv hstep
  obtain ⟨rest, rfl⟩ | ⟨rest, -, rfl⟩ | ⟨rest, -, hidle, rfl⟩ | ⟨w, rest, i, u, -, -, hu, rfl⟩ := step_next_cases hstep
  · exact microStep_inv hinv
  · exact State.afterReset_inv _ _ hinv.1
  · exact goto_blankOn_inv hinv hidle
  · have hs : (s.consume rest).Inv := hinv
    have hexec := exec_inv hs hu
    exact hexec

end Sys2Proof.Machine
end

section
/-! SUPPORT. A step whose event is a command word (spec 10_state R31), and the two ways to the reset values (R39). -/

namespace Sys2Proof.Machine

theorem step_cmd {s : State} {w : Word} {rest : List Input} {i : Instr} (hin : s.inputs = .cmd w :: rest)
    (hw : decode w = .ok i) : step s = completeCommand (exec i (s.consume rest)) := by
  rw [step, hin]
  simp only [runCommand, hw]

/-- Settles O6: `step` hands the word to the decoder and completes what `exec` answers. -/
theorem stepRunsDecodedCommand : Obligations.StepRunsDecodedCommand := by
  intro s w rest i hin hw
  rw [step_cmd hin hw, State.consume]
  cases exec i { s with inputs := rest, cmdDone := false } <;> rfl

/-- Settles O46: `rst` and INIT put every register and pin at its reset value. -/
theorem resetValues : Obligations.ResetValues := by
  intro s rest
  constructor
  · intro hin
    exact ⟨takeRst (s.consume rest), by rw [step, hin], rfl, rfl, rfl, rfl, rfl, rfl, rfl, rfl, rfl, rfl, rfl, rfl⟩
  · intro hin hinv hidle
    have hs : (s.consume rest).Inv := hinv
    obtain ⟨u, hexec⟩ : ∃ u, exec .init (s.consume rest) = .next u :=
      ⟨_, exec_init_next.2 ⟨by simp [State.busy, hidle], rfl⟩⟩
    obtain ⟨hgs, hdc, hresp, -⟩ := exec_init_drives hexec
    obtain ⟨hfront, hreq, hrow, hlatch, hphase, hbyte, hbit, hsr, hpins⟩ := exec_init_atResetValues hs hexec
    have hcfg := exec_cfg hexec
    exact ⟨{ u with cmdDone := true }, by rw [step_cmd hin rfl, hexec]; rfl, hfront, hreq, hrow, hlatch, hphase, hbyte,
      hbit, hsr, hpins, hresp, hcfg, hgs, hdc⟩

end Sys2Proof.Machine
end

section
/-! SUPPORT. Where the codec commands write: every write is a write of one byte the configuration has, so what each such
write keeps every command keeps (spec 20_memory R51, R53; R56 and R67 beside them). -/

namespace Sys2Proof.Machine

/-- Settles O14: a field is its stream bits, the first the most significant. -/
theorem channelIsItsStreamBits : Obligations.ChannelIsItsStreamBits := by
  intro s c _
  constructor
  · intro p r t ht
    exact getBits_testBit s.gsDraw s.gs (gsBase p r) (fieldOffset s.cfg s.cfg.pwmBits c) s.cfg.pwmBits t ht
  · intro t ht
    have hbit := getBits_testBit s.dcDraw s.dc 0 (fieldOffset s.cfg dcWidth c) dcWidth t ht
    rw [streamBit, Nat.zero_add] at hbit
    exact hbit

/-! ### The bytes a field lies in -/

/-- The fields of a buffer of `w` bits a channel end with the buffer's last bit (30_encoding R75). -/
theorem fieldOffset_add_lt {cfg : Config} {w c t : Nat} (hc : c < cfg.numChannels) (ht : t < w) :
    fieldOffset cfg w c + t < w * cfg.numChannels :=
  calc fieldOffset cfg w c + t < w * channelRev cfg c + w := Nat.add_lt_add_left ht _
    _ = w * (channelRev cfg c + 1) := rfl
    _ ≤ w * cfg.numChannels := Nat.mul_le_mul_left w (by unfold channelRev; omega)

theorem gsLen_bits (cfg : Config) : 8 * cfg.gsLen = cfg.pwmBits * cfg.numChannels := by
  unfold Config.gsLen Config.numChannels
  ring

theorem dcLen_bits (cfg : Config) : 8 * cfg.dcLen = dcWidth * cfg.numChannels := by
  unfold Config.dcLen Config.numChannels dcWidth
  ring

theorem gsField_byte_lt {cfg : Config} {c t : Nat} (hc : c < cfg.numChannels) (ht : t < cfg.pwmBits) :
    (fieldOffset cfg cfg.pwmBits c + t) / 8 < cfg.gsLen := by
  have hbits := gsLen_bits cfg
  have hfield := fieldOffset_add_lt hc ht
  omega

theorem dcField_byte_lt {cfg : Config} {c t : Nat} (hc : c < cfg.numChannels) (ht : t < dcWidth) :
    (fieldOffset cfg dcWidth c + t) / 8 < cfg.dcLen := by
  have hbits := dcLen_bits cfg
  have hfield := fieldOffset_add_lt hc ht
  omega

/-- A row of a valid configuration fits the room its keys leave it (log 7). -/
theorem gsLen_lt {cfg : Config} (h : cfg.Valid) : cfg.gsLen < 8192 := by
  obtain ⟨⟨-, hchips⟩, ⟨-, hbits⟩, -⟩ := h
  calc cfg.gsLen ≤ 2 * 256 * 12 := Nat.mul_le_mul (Nat.mul_le_mul_left 2 hchips) hbits
    _ < 8192 := by decide

theorem nRows_le {cfg : Config} (h : cfg.Valid) : cfg.nRows ≤ 8 := by
  obtain ⟨-, -, hrows⟩ := h
  unfold Config.nRows
  split
  · exact hrows
  · decide

/-! ### What each write of one byte keeps -/

section
variable {P : Memory → Prop} {m : Memory}

theorem putBits_preserves (draw : Nat → Byte) {base off W : Nat} (v : Nat)
    (hwrite : ∀ m t b, t < W → P m → P (m.write (base + (off + t) / 8) b)) (hm : P m) :
    P (putBits draw m base off W v) := by
  suffices ∀ n ≤ W, P (putBitsLoop draw m base off W v n) from this W le_rfl
  intro n hn
  induction n with
  | zero => exact hm
  | succ n ih => exact hwrite _ n _ hn (ih (by omega))

theorem encodeGS_preserves {cfg : Config} (draw : Nat → Byte) {base c : Nat} (v : Nat) (hc : c < cfg.numChannels)
    (hwrite : ∀ m j b, j < cfg.gsLen → P m → P (m.write (base + j) b)) (hm : P m) :
    P (encodeGS cfg draw m base c v) :=
  putBits_preserves draw v (fun m _ b ht => hwrite m _ b (gsField_byte_lt hc ht)) hm

theorem fillGS_preserves {cfg : Config} (draw : Nat → Byte) {base : Nat} (v : Nat) {n : Nat} (hn : n ≤ cfg.numChannels)
    (hwrite : ∀ m j b, j < cfg.gsLen → P m → P (m.write (base + j) b)) (hm : P m) :
    P (fillGS cfg draw base v n m) := by
  induction n with
  | zero => exact hm
  | succ n ih => exact encodeGS_preserves draw v hn hwrite (ih (by omega))

theorem fillRows_preserves {cfg : Config} (draw : Nat → Byte) {p : Bool} (v : Nat) {n : Nat} (hn : n ≤ cfg.nRows)
    (hwrite : ∀ m r j b, r < cfg.nRows → j < cfg.gsLen → P m → P (m.write (gsKey p r j) b)) (hm : P m) :
    P (fillRows cfg draw p v n m) := by
  induction n with
  | zero => exact hm
  | succ n ih => exact fillGS_preserves draw v le_rfl (fun m j b => hwrite m n j b hn) (ih (by omega))

theorem encodeDC_preserves {cfg : Config} (draw : Nat → Byte) {c : Nat} (v : Nat) (hc : c < cfg.numChannels)
    (hwrite : ∀ m j b, j < cfg.dcLen → P m → P (m.write j b)) (hm : P m) :
    P (encodeDC cfg draw m c v) := by
  refine putBits_preserves draw v (fun m t b ht => ?_) hm
  rw [Nat.zero_add]
  exact hwrite m _ b (dcField_byte_lt hc ht)

theorem fillDC_preserves {cfg : Config} (draw : Nat → Byte) (v : Nat) {n : Nat} (hn : n ≤ cfg.numChannels)
    (hwrite : ∀ m j b, j < cfg.dcLen → P m → P (m.write j b)) (hm : P m) :
    P (fillDC cfg draw v n m) := by
  induction n with
  | zero => exact hm
  | succ n ih => exact encodeDC_preserves draw v hn hwrite (ih (by omega))

/-- What every write of a byte of the back page keeps of `GS`, and every write of a byte of `DC` keeps of `DC`, every
command keeps (20_memory R51, R53). -/
theorem exec_memories_preserve {Q : Memory → Prop} {i : Instr} {s t : State} (h : exec i s = .next t)
    (hgsWrite : ∀ m r j b, r < s.cfg.nRows → j < s.cfg.gsLen → P m → P (m.write (gsKey s.back r j) b))
    (hdcWrite : ∀ m j b, j < s.cfg.dcLen → Q m → Q (m.write j b)) (hgs : P s.gs) (hdc : Q s.dc) :
    P t.gs ∧ Q t.dc := by
  cases i with
  | init =>
    obtain ⟨egs, edc, -, -⟩ := exec_init_drives h
    exact ⟨egs ▸ hgs, edc ▸ hdc⟩
  | setgs row chan val =>
    obtain ⟨hrange, -, rfl⟩ := exec_setgs_next.1 h
    simp only [Instr.inRange, Bool.and_eq_true, decide_eq_true_eq] at hrange
    obtain ⟨⟨hchan, hrow⟩, -⟩ := hrange
    exact ⟨encodeGS_preserves _ _ hchan (fun m j b => hgsWrite m _ j b hrow) hgs, hdc⟩
  | setallgs val =>
    obtain ⟨-, -, rfl⟩ := exec_setallgs_next.1 h
    exact ⟨fillRows_preserves _ _ le_rfl hgsWrite hgs, hdc⟩
  | getgs row chan =>
    obtain ⟨-, rfl⟩ := exec_getgs_next.1 h
    exact ⟨hgs, hdc⟩
  | setdc chan val =>
    obtain ⟨-, hrange, rfl⟩ := exec_setdc_next.1 h
    simp only [Instr.inRange, Bool.and_eq_true, decide_eq_true_eq] at hrange
    obtain ⟨hchan, -⟩ := hrange
    exact ⟨hgs, encodeDC_preserves _ _ hchan hdcWrite hdc⟩
  | setalldc val =>
    obtain ⟨-, -, rfl⟩ := exec_setalldc_next.1 h
    exact ⟨hgs, fillDC_preserves _ _ le_rfl hdcWrite hdc⟩
  | getdc chan =>
    obtain ⟨-, -, rfl⟩ := exec_getdc_next.1 h
    exact ⟨hgs, hdc⟩
  | commit =>
    obtain rfl := exec_commit_next.1 h
    exact ⟨hgs, hdc⟩
  | pending =>
    obtain rfl := exec_pending_next.1 h
    exact ⟨hgs, hdc⟩
  | gamma idx =>
    obtain ⟨-, rfl⟩ := exec_gamma_next.1 h
    exact ⟨hgs, hdc⟩
  | clockindc =>
    obtain ⟨egs, edc, -, -⟩ := exec_clockindc_drives h
    exact ⟨egs ▸ hgs, edc ▸ hdc⟩

end

/-! ### The front page (20_memory R53) -/

@[simp] theorem transmitAll_epoch (bs : List Byte) (s : State) : (transmitAll bs s).epoch = s.epoch := by
  rw [transmitAll_frame]

/-- No command draws the memories afresh (log 6). -/
theorem exec_epoch {i : Instr} {s t : State} (h : exec i s = .next t) : t.epoch = s.epoch := by
  obtain ⟨gs, rfl⟩ | ⟨dc, rfl⟩ | ⟨n, rfl⟩ | rfl | ⟨-, -, rfl⟩ | ⟨-, -, rfl⟩ := exec_next_cases h
  · rfl
  · rfl
  · rfl
  · rfl
  · rw [emitAll_epoch, initRegisters_epoch]
  · rw [emitAll_epoch, transmitAll_epoch, emitAll_epoch]

/-- A write of a byte of the back page is read in no byte of the front page. -/
theorem read_write_gsKey_not {draw : Nat → Byte} {p : Bool} {r r' j j' : Nat} (hr : r < 8) (hr' : r' < 8)
    (hj : j < 8192) (hj' : j' < 8192) (m : Memory) (b : Byte) :
    (m.write (gsKey (!p) r' j') b).read draw (gsKey p r j) = m.read draw (gsKey p r j) := by
  rw [Memory.read_write, if_neg]
  intro hkey
  obtain ⟨hpage, -, -⟩ := gsKey_inj hr hr' hj hj' hkey
  cases p <;> contradiction

/-- Settles O43: the commands write bytes of the back page alone, and the pages share no byte. -/
theorem hostNeverWritesFrontPage : Obligations.HostNeverWritesFrontPage := by
  intro i s t hvalid h r hr j hj
  have hread : t.gs.read s.gsDraw (gsKey s.front r j) = s.gs.read s.gsDraw (gsKey s.front r j) := by
    refine (exec_memories_preserve (P := fun m => m.read s.gsDraw (gsKey s.front r j) = _) (Q := fun _ => True) h ?_
      (fun _ _ _ _ _ => trivial) rfl trivial).1
    intro m r' j' b hr' hj' hm
    exact (read_write_gsKey_not hr (hr'.trans_le (nRows_le hvalid)) hj (hj'.trans (gsLen_lt hvalid)) m b).trans hm
  rw [State.gsByte, State.gsDraw, exec_epoch h]
  exact hread

/-! ### The ranges (20_memory R51) -/

theorem gsKeyInSpace_gsKey {cfg : Config} (h : cfg.Valid) (p : Bool) {r j : Nat} (hr : r < cfg.nRows)
    (hj : j < cfg.gsLen) : gsKeyInSpace cfg (gsKey p r j) = true := by
  have hrows := nRows_le h
  have hlen := gsLen_lt h
  have hpage : gsKey p r j / 65536 < 2 := by cases p <;> simp only [gsKey, gsBase] <;> split <;> omega
  have hrow : gsKey p r j % 65536 / 8192 = r := by simp only [gsKey, gsBase]; split <;> omega
  have hbyte : gsKey p r j % 8192 = j := by simp only [gsKey, gsBase]; split <;> omega
  simp [gsKeyInSpace, hpage, hrow, hbyte, hr, hj]

/-- A write at an admitted key lists no other key. -/
theorem Memory.all_write {f : Host.Cell → Bool} {m : Memory} {a : Nat} {b : Byte} (hf : f (a, b) = true)
    (hm : m.all f = true) : (m.write a b).all f = true := by
  rw [List.all_eq_true] at hm ⊢
  intro cell hcell
  rcases Memory.mem_write hcell with rfl | hold
  · exact hf
  · exact hm cell hold

theorem exec_memoryInSpace {i : Instr} {s t : State} (hvalid : s.cfg.Valid) (h : exec i s = .next t)
    (hs : s.memoryInSpace = true) : t.memoryInSpace = true := by
  rw [State.memoryInSpace, Bool.and_eq_true] at hs ⊢
  obtain ⟨hgs, hdc⟩ := hs
  rw [exec_cfg h]
  exact exec_memories_preserve (P := fun m => m.all _ = true) (Q := fun m => m.all _ = true) h
    (fun m r j b hr hj hm => Memory.all_write (gsKeyInSpace_gsKey hvalid _ hr hj) hm)
    (fun m j b hj hm => Memory.all_write (decide_eq_true hj) hm) hgs hdc

/-- Settles O51, over the cases of a step: the engine writes no byte, `rst` empties both lists, and the commands write
bytes in range. -/
theorem indicesStayInRange : Obligations.IndicesStayInRange := by
  intro s t hvalid hs hstep
  obtain ⟨rest, rfl⟩ | ⟨rest, -, rfl⟩ | ⟨rest, -, -, rfl⟩ | ⟨w, rest, i, u, -, -, hu, rfl⟩ := step_next_cases hstep
  · obtain ⟨hgs, hdc, -, -⟩ := microStep_drives (s.consume rest)
    rw [State.memoryInSpace, hgs, hdc, (microStep_outside _).1]
    exact hs
  · rfl
  · exact hs
  · have hexec := exec_memoryInSpace (s := s.consume rest) hvalid hu hs
    exact hexec

/-! ### A flip (20_memory R67) -/

theorem tickOperation_gsByte (s : State) (p : Bool) (r j : Nat) :
    (tickOperation s).gsByte p r j = s.gsByte p r j := by
  cases hm : s.cfg.mux with
  | true =>
    rw [tickOperation_mux s hm, transmitAll_frame, emitAll_eq, boundaryTest_eq]
    rfl
  | false =>
    rw [tickOperation_plain s hm, transmitAll_frame, emitAll_eq, boundaryTest_eq]
    rfl

/-- Settles O47: a tick writes no byte, so a `front` that changed is the other page. -/
theorem backPageAfterFlipIsStale : Obligations.BackPageAfterFlipIsStale := by
  intro s hflip r j
  have hfront : (tickOperation s).front = !s.front := Bool.eq_not.2 hflip
  rw [State.back, hfront, Bool.not_not, tickOperation_gsByte, tickOperation_gsByte]
  exact ⟨rfl, rfl⟩

end Sys2Proof.Machine
end

section
/-! SUPPORT. The reference receiver over the transmission of a buffer, a CLOCKINDC and a tick (spec 20_memory R64). -/

namespace Sys2Proof.Machine

/-! ### The bits of a buffer as one number (20_memory R56) -/

/-- The bits of `len` bytes, the first the most significant, are the field of all their stream bits. -/
theorem foldl_byteBits_eq_getBits (draw : Nat → Byte) (m : Memory) (base len : Nat) :
    (((List.range len).map fun j => m.read draw (base + j)).flatMap byteBits).foldl (fun n b => 2 * n + b.toNat) 0 =
      getBits draw m base 0 (8 * len) := by
  induction len with
  | zero => rfl
  | succ len ih =>
    have hbit : ∀ k < 8, byteBit (m.read draw (base + len)) k = streamBit draw m base (8 * len + (7 - k)) :=
      fun k hk => getLsbD_read draw m base len k hk
    rw [List.range_succ, List.map_append, List.flatMap_append, List.foldl_append, ih, Nat.mul_succ]
    simp [byteBits, getBits, hbit]

/-- A field in two parts, the first the more significant (20_memory R57). -/
theorem getBits_add (draw : Nat → Byte) (m : Memory) (base off a b : Nat) :
    getBits draw m base off (a + b) = getBits draw m base off a * 2 ^ b + getBits draw m base (off + a) b := by
  induction b with
  | zero => simp [getBits]
  | succ b ih =>
    rw [← Nat.add_assoc, getBits, ih, getBits, Nat.add_assoc off, pow_succ]
    ring

/-- Of all the bits of a buffer of `n` fields, those from bit `W * c` up are the field of channel `c`, the channels
reversed (30_encoding R71). -/
theorem getBits_div_mod (draw : Nat → Byte) (m : Memory) (base W n c : Nat) (hc : c < n) :
    getBits draw m base 0 (W * n) / 2 ^ (W * c) % 2 ^ W = getBits draw m base (W * (n - 1 - c)) W := by
  have hsplit : W * n = W * (n - 1 - c) + W + W * c := by
    calc W * n = W * (n - 1 - c + 1 + c) := by congr 1; omega
      _ = _ := by ring
  rw [hsplit, getBits_add, getBits_add, Nat.zero_add, Nat.add_comm, Nat.add_mul_div_right _ _ (Nat.two_pow_pos _),
    Nat.div_eq_of_lt (getBits_lt _ _ _ _ _), Nat.zero_add, Nat.mul_add_mod', Nat.mod_eq_of_lt (getBits_lt _ _ _ _ _)]

/-- The bits of channel `c` are the same in the low part of a register of `n` channels. -/
theorem mod_div_mod_channel (x W : Nat) {n c : Nat} (hc : c < n) :
    x % 2 ^ (W * n) / 2 ^ (W * c) % 2 ^ W = x / 2 ^ (W * c) % 2 ^ W := by
  have hsplit : W * n = W * c + W * (n - c) := by rw [← Nat.mul_add]; congr 1; omega
  rw [hsplit, pow_add, Nat.mod_mul_right_div_self, Nat.mod_mod_of_dvd]
  exact pow_dvd_pow 2 (Nat.le_mul_of_pos_right W (by omega))

/-! ### The shift register after a buffer (20_memory R64) -/

/-- The bits a channel takes in the shift register. -/
def channelWidth (progSel : Bool) : Nat := if progSel then dcWidth else 12

/-- The low bits of the shift register are a shift register of the width that `prog_sel` selects. -/
theorem shiftBits_mod (n : Nat) (progSel : Bool) (csr : Nat) (bs : List Bool) :
    shiftBits n progSel csr bs % 2 ^ (channelWidth progSel * n) =
      bs.foldl (shiftIn (channelWidth progSel * n)) csr % 2 ^ (channelWidth progSel * n) := by
  cases progSel with
  | false => rfl
  | true => exact shiftBits_dot_correction n csr bs

theorem length_flatMap_byteBits (bs : List Byte) : (bs.flatMap byteBits).length = 8 * bs.length := by
  induction bs with
  | nil => rfl
  | cons b bs ih =>
    rw [List.flatMap_cons, List.length_append, ih, List.length_cons, Nat.mul_succ, Nat.add_comm]
    rfl

/-- A buffer of as many bits as the register takes fills it, whatever it held: channel `c`'s bits are its field. -/
theorem shiftBits_buffer_channel (draw : Nat → Byte) (m : Memory) (base : Nat) {len n : Nat} (progSel : Bool) (csr : Nat)
    (hlen : 8 * len = channelWidth progSel * n) {c : Nat} (hc : c < n) :
    shiftBits n progSel csr (((List.range len).map fun j => m.read draw (base + j)).flatMap byteBits) /
        2 ^ (channelWidth progSel * c) % 2 ^ channelWidth progSel =
      getBits draw m base (channelWidth progSel * (n - 1 - c)) (channelWidth progSel) := by
  rw [← mod_div_mod_channel _ _ hc, shiftBits_mod, foldl_shiftIn, length_flatMap_byteBits, List.length_map,
    List.length_range, hlen, Nat.mul_add_mod', foldl_byteBits_eq_getBits, hlen, Nat.mod_eq_of_lt (getBits_lt _ _ _ _ _),
    getBits_div_mod _ _ _ _ _ _ hc]

/-- At `B = 12` a transmitted row leaves channel `c` at bit `12 * c` of the shift register. -/
theorem rowBytes_channel {s : State} (hB : s.cfg.pwmBits = 12) (p : Bool) (r csr : Nat) {c : Nat}
    (hc : c < s.cfg.numChannels) :
    shiftBits s.cfg.numChannels false csr ((s.rowBytes p r).flatMap byteBits) / 2 ^ (12 * c) % 2 ^ 12 =
      s.gsValue p r c := by
  have hlen : 8 * s.cfg.gsLen = channelWidth false * s.cfg.numChannels := (gsLen_bits s.cfg).trans (by rw [hB]; rfl)
  have hfield := shiftBits_buffer_channel s.gsDraw s.gs (gsBase p r) false csr hlen hc
  rw [State.gsValue, decodeGS, hB]
  exact hfield

/-- The transmitted dot-correction buffer leaves channel `c` at bit `6 * c` (43_transport R172). -/
theorem dcBytes_channel (s : State) (csr : Nat) {c : Nat} (hc : c < s.cfg.numChannels) :
    shiftBits s.cfg.numChannels true csr (s.dcBytes.flatMap byteBits) / 2 ^ (6 * c) % 2 ^ 6 = s.dcValue c := by
  have hfield := shiftBits_buffer_channel s.dcDraw s.dc 0 true csr (dcLen_bits s.cfg) hc
  simp only [Nat.zero_add] at hfield
  exact hfield

/-! ### CLOCKINDC (43_transport R172) -/

/-- A latch pulse is one load, whatever the level of the other pins. -/
theorem receive_latchPulse (c : Config) {ps : Pins} (r : Receiver) (hlatch : ps.latch = false) :
    Receiver.receive c ps r [.pin .latch true, .pin .latch false] = r.load c.numChannels ps.progSel := by
  simp [Receiver.receive, Receiver.after, isLatchEdge, hlatch, eventBits, shiftBits]

/-- The wire events of CLOCKINDC (43_transport R172). -/
def clockindcEvents (s : State) : List WireEvent :=
  .pin .progSel true :: (s.dcBytes.flatMap (transmitEvents s.cfg) ++
    ([.pin .latch true, .pin .latch false] ++ [.pin .progSel false]))

theorem exec_clockindc_wire {s t : State} (h : exec .clockindc s = .next t) : t.wire = s.wire ++ clockindcEvents s := by
  obtain ⟨-, -, rfl⟩ := exec_clockindc_next.1 h
  simp [clockindcEvents]

/-- CLOCKINDC loads the dot-correction register from the shift register, and no other. -/
theorem receive_clockindcEvents (s : State) {ps : Pins} (r : Receiver) (hclk : ps.clkOut = false)
    (hlatch : ps.latch = false) :
    Receiver.receive s.cfg ps r (clockindcEvents s) =
      Receiver.load s.cfg.numChannels true
        { r with csr := shiftBits s.cfg.numChannels true r.csr (s.dcBytes.flatMap byteBits) } := by
  obtain ⟨-, hlatch', -, hprog⟩ := replay_bytes s.cfg s.dcBytes (ps.set .progSel true)
  have hraise : Receiver.receive s.cfg ps r (clockindcEvents s) =
      Receiver.receive s.cfg (ps.set .progSel true) r (s.dcBytes.flatMap (transmitEvents s.cfg) ++
        ([.pin .latch true, .pin .latch false] ++ [.pin .progSel false])) := rfl
  rw [hraise, receive_append, receive_bytes _ _ _ _ (by exact hclk), receive_append,
    receive_latchPulse _ _ (hlatch'.trans hlatch), hprog]
  rfl

/-! ### A tick (42_refresh_engine R137, R138) -/

/-- The wire events of a tick before its transmission (42_refresh_engine R137, R138). -/
def pulseEvents (s : State) : List WireEvent :=
  if s.cfg.mux then
    let off := s.pins.rowSel &&& ~~~rowTab s.cfg.multiplexRows (2 * s.rowCursor)
    [.pin .blank true, .rowSel off, .pin .latch true, .pin .latch false,
      .rowSel (off ||| rowTab s.cfg.multiplexRows (2 * s.rowCursor + 1)), .pin .blank false]
  else
    [.pin .blank true] ++ (if s.latchPending then [.pin .latch true, .pin .latch false] else []) ++ [.pin .blank false]

/-- The bytes a tick transmits: the row at the cursor after the advance, of the page in front after the boundary test. -/
def tickBytes (s : State) : List Byte := s.rowBytes (tickOperation s).front (tickOperation s).sendRow

/-- The wire events of a whole tick. -/
def tickEvents (s : State) : List WireEvent := pulseEvents s ++ (tickBytes s).flatMap (transmitEvents s.cfg)

@[simp] theorem transmitAll_front (bs : List Byte) (s : State) : (transmitAll bs s).front = s.front := by
  rw [transmitAll_frame]
@[simp] theorem transmitAll_rowCursor (bs : List Byte) (s : State) : (transmitAll bs s).rowCursor = s.rowCursor := by
  rw [transmitAll_frame]
@[simp] theorem emitAll_rowCursor (es : List WireEvent) (s : State) : (emitAll es s).rowCursor = s.rowCursor := by
  rw [emitAll_eq]
@[simp] theorem boundaryTest_wire (s : State) : (boundaryTest s).wire = s.wire := by rw [boundaryTest_eq]

theorem tickOperation_wire (s : State) : (tickOperation s).wire = s.wire ++ tickEvents s := by
  cases hm : s.cfg.mux with
  | true => simp [tickEvents, tickBytes, pulseEvents, State.sendRow, tickOperation_mux, hm]
  | false => simp [tickEvents, tickBytes, pulseEvents, State.sendRow, tickOperation_plain, hm]

/-- The pulse touches neither the clock nor the program-select pin. -/
theorem replay_pulseEvents (s : State) (ps : Pins) :
    (ps.replay (pulseEvents s)).clkOut = ps.clkOut ∧ (ps.replay (pulseEvents s)).progSel = ps.progSel := by
  unfold pulseEvents
  cases s.cfg.mux with
  | true => exact ⟨rfl, rfl⟩
  | false => cases s.latchPending <;> exact ⟨rfl, rfl⟩

/-- The pulse loads the output register when it raises the latch, and no other. -/
theorem receive_pulseEvents (c : Config) (s : State) {ps : Pins} (r : Receiver) (hlatch : ps.latch = false)
    (hprog : ps.progSel = false) :
    Receiver.receive c ps r (pulseEvents s) =
      { r with cout := if s.cfg.mux || s.latchPending then r.csr else r.cout } := by
  obtain ⟨clk, dat, lat, bl, pr, rs⟩ := ps
  obtain rfl : lat = false := hlatch
  obtain rfl : pr = false := hprog
  unfold pulseEvents
  cases s.cfg.mux with
  | true => rfl
  | false => cases s.latchPending <;> rfl

/-- A tick first latches what the shift register holds, if it pulses the latch, then shifts its buffer in. -/
theorem receive_tickEvents (s : State) {ps : Pins} (r : Receiver) (hclk : ps.clkOut = false) (hlatch : ps.latch = false)
    (hprog : ps.progSel = false) :
    Receiver.receive s.cfg ps r (tickEvents s) =
      { csr := shiftBits s.cfg.numChannels false r.csr ((tickBytes s).flatMap byteBits)
        cout := if s.cfg.mux || s.latchPending then r.csr else r.cout
        dcOut := r.dcOut } := by
  obtain ⟨hclk', hprog'⟩ := replay_pulseEvents s ps
  rw [tickEvents, receive_append, receive_pulseEvents _ _ _ hlatch hprog, receive_bytes _ _ _ _ (hclk'.trans hclk),
    hprog', hprog]

/-! ### Both together -/

/-- Between two operations the clock, the latch and the program-select pin are low (43_transport R169). -/
theorem State.Inv.idle_pins {s : State} (h : s.Inv) (hidle : s.phase = .idle) :
    s.pins.clkOut = false ∧ s.pins.latch = false ∧ s.pins.progSel = false := by
  obtain ⟨-, -, -, hlatch, hclk, hprog, -⟩ := h
  rw [hidle] at hlatch hclk
  exact ⟨hclk, hlatch, hprog⟩

/-- Settles O59: a buffer fills the shift register, so each channel's bits are its field; CLOCKINDC latches them into
the dot-correction register, which no tick loads, and the next pulse copies what they left in the shift register. -/
theorem receiverHoldsTransmittedBuffer : Obligations.ReceiverHoldsTransmittedBuffer := by
  intro s chain _
  constructor
  · intro p r ps hB hclk hprog c hc
    rw [receive_bytes _ _ _ _ hclk, hprog]
    exact rowBytes_channel hB p r chain.csr hc
  · intro t hinv hidle h
    obtain ⟨hclk, hlatch, -⟩ := hinv.idle_pins hidle
    obtain ⟨hclk', hlatch', hprog'⟩ := (exec_inv hinv h).idle_pins (exec_atRest h (.of_inv hinv hidle)).idle
    obtain ⟨-, hpending⟩ := exec_clockindc_registers h
    refine ⟨clockindcEvents s, tickEvents t, exec_clockindc_wire h, tickOperation_wire t, ?_⟩
    intro sent ticked
    have hsent : sent = _ := receive_clockindcEvents s chain hclk hlatch
    have hticked : ticked = _ := exec_cfg h ▸ receive_tickEvents t sent hclk' hlatch' hprog'
    rw [hticked, hpending, hsent]
    refine ⟨rfl, fun c hc => ?_⟩
    have hcsr := dcBytes_channel s chain.csr hc
    have hdc := (mod_div_mod_channel _ 6 hc).trans hcsr
    refine ⟨hcsr, hdc, hdc, fun howed => ?_⟩
    rw [if_pos (by simpa using howed)]
    exact hcsr

end Sys2Proof.Machine
end

section
/-! SUPPORT. The command word as its five fields (spec 30_encoding R78): which words decode to a command, and which rows
of the opcode map they select. -/

namespace Sys2Proof

/-! ### A word is its five fields -/

theorem word_ext {w w' : Word} (hop : opField w = opField w') (hrow : rowField w = rowField w')
    (hz : zField w = zField w') (hchan : chanField w = chanField w') (hval : valField w = valField w') : w = w' := by
  apply BitVec.eq_of_getLsbD_eq
  intro k hk
  obtain h | h | h | h | h : k < 12 ∨ (12 ≤ k ∧ k < 24) ∨ k = 24 ∨ (25 ≤ k ∧ k < 28) ∨ 28 ≤ k := by omega
  · simpa [valField, BitVec.getLsbD_extractLsb', h] using congrArg (·.getLsbD k) hval
  · simpa [chanField, BitVec.getLsbD_extractLsb', show k - 12 < 12 by omega, h] using
      congrArg (·.getLsbD (k - 12)) hchan
  · simpa [zField, BitVec.getLsbD_extractLsb', h] using congrArg (·.getLsbD 0) hz
  · simpa [rowField, BitVec.getLsbD_extractLsb', show k - 25 < 3 by omega, h] using congrArg (·.getLsbD (k - 25)) hrow
  · simpa [opField, BitVec.getLsbD_extractLsb', show k - 28 < 4 by omega, h] using congrArg (·.getLsbD (k - 28)) hop

theorem word_eq_iff {w w' : Word} :
    w = w' ↔ opField w = opField w' ∧ rowField w = rowField w' ∧ zField w = zField w' ∧ chanField w = chanField w' ∧
      valField w = valField w' :=
  ⟨by rintro rfl; simp, fun ⟨hop, hrow, hz, hchan, hval⟩ => word_ext hop hrow hz hchan hval⟩

/-- A mask acts on each field by itself; the mask's and the pattern's fields are written so that they evaluate. -/
theorem and_mask_eq_iff {w mask pat : Word} :
    w &&& mask = pat ↔
      opField w &&& mask.extractLsb' 28 4 = pat.extractLsb' 28 4 ∧
      rowField w &&& mask.extractLsb' 25 3 = pat.extractLsb' 25 3 ∧
      zField w &&& mask.extractLsb' 24 1 = pat.extractLsb' 24 1 ∧
      chanField w &&& mask.extractLsb' 12 12 = pat.extractLsb' 12 12 ∧
      valField w &&& mask.extractLsb' 0 12 = pat.extractLsb' 0 12 := by
  rw [word_eq_iff]
  simp only [opField, rowField, zField, chanField, valField, BitVec.extractLsb'_and]

/-- GAMMA's `val[11:8]` and `val[7:0]` are the two parts of the value field (R79). -/
theorem idxPad_append_idxField (w : Word) : idxPad w ++ idxField w = valField w :=
  BitVec.extractLsb'_append_extractLsb'_eq_extractLsb' (by decide)

theorem valField_eq_idx_iff {w : Word} {idx : BitVec 8} :
    valField w = 0#4 ++ idx ↔ idxPad w = 0 ∧ idxField w = idx := by
  rw [← idxPad_append_idxField]
  constructor
  · intro h
    have hpad := congrArg (BitVec.extractLsb' 8 4) h
    have hidx := congrArg (BitVec.extractLsb' 0 8) h
    rw [BitVec.extractLsb'_append_eq_left, BitVec.extractLsb'_append_eq_left] at hpad
    rw [BitVec.extractLsb'_append_eq_right, BitVec.extractLsb'_append_eq_right] at hidx
    exact ⟨hpad, hidx⟩
  · rintro ⟨hpad, hidx⟩
    rw [hpad, hidx]
    rfl

/-! ### The operands of a command -/

/-- What a command puts in `row`: its operand, or zero when it has none (R79). -/
def Instr.rowOperand : Instr → BitVec 3
  | .setgs row _ _ => row
  | .getgs row _ => row
  | _ => 0

/-- What a command puts in `chan` (R79). -/
def Instr.chanOperand : Instr → BitVec 12
  | .setgs _ chan _ => chan
  | .getgs _ chan => chan
  | .setdc chan _ => chan
  | .getdc chan => chan
  | _ => 0

/-- What a command puts in `val` (R79). -/
def Instr.valOperand : Instr → BitVec 12
  | .setgs _ _ val => val
  | .setallgs val => val
  | .setdc _ val => val
  | .setalldc val => val
  | .gamma idx => 0#4 ++ idx
  | _ => 0

theorem encode_eq_wordOf (i : Instr) : encode i = wordOf i.opcode i.rowOperand i.chanOperand i.valOperand := by
  cases i <;> rfl

/-- The word carries the command's fields, and `z = 0`: what decoding asks of a word. -/
structure Instr.FieldsOf (i : Instr) (w : Word) : Prop where
  op : opField w = i.opcode
  row : rowField w = i.rowOperand
  z : zField w = 0
  chan : chanField w = i.chanOperand
  val : valField w = i.valOperand

theorem encode_fields (i : Instr) : i.FieldsOf (encode i) := by
  rw [encode_eq_wordOf]
  exact ⟨wordOf_op _ _ _ _, wordOf_row _ _ _ _, wordOf_z _ _ _ _, wordOf_chan _ _ _ _, wordOf_val _ _ _ _⟩

theorem Instr.FieldsOf.encode_eq {i : Instr} {w : Word} (h : i.FieldsOf w) : encode i = w := by
  have henc := encode_fields i
  exact word_ext (henc.op.trans h.op.symm) (henc.row.trans h.row.symm) (henc.z.trans h.z.symm)
    (henc.chan.trans h.chan.symm) (henc.val.trans h.val.symm)

/-! ### The decoder -/

theorem unlessNonzero_eq_ok {fields : List (Bool × Reserved)} {i j : Instr} :
    unlessNonzero fields i = .ok j ↔ (∀ f ∈ fields, f.1 = true) ∧ i = j := by
  induction fields with
  | nil => simp [unlessNonzero]
  | cons f fields ih =>
    obtain ⟨isZero, why⟩ := f
    cases isZero <;> simp [unlessNonzero, ih]

theorem Instr.FieldsOf.decode_eq {i : Instr} {w : Word} (h : i.FieldsOf w) : decode w = .ok i := by
  obtain ⟨hop, hrow, hz, hchan, hval⟩ := h
  cases i
  case gamma idx =>
    obtain ⟨hpad, rfl⟩ := valField_eq_idx_iff.1 hval
    simp [decode, unlessNonzero, hop, hrow, hz, hchan, hpad, Instr.opcode, Instr.rowOperand, Instr.chanOperand]
  all_goals
    simp [decode, unlessNonzero, hop, hrow, hz, hchan, hval, Instr.opcode, Instr.rowOperand, Instr.chanOperand,
      Instr.valOperand]

theorem Instr.FieldsOf.of_decode {i : Instr} {w : Word} (h : decode w = .ok i) : i.FieldsOf w := by
  unfold decode at h
  split at h
  case h_12 => cases h
  all_goals
    obtain ⟨hzero, rfl⟩ := unlessNonzero_eq_ok.1 h
    simp only [List.forall_mem_cons, List.not_mem_nil, IsEmpty.forall_iff, implies_true, and_true, beq_iff_eq] at hzero
  case h_10 hop =>
    obtain ⟨hz, hrow, hchan, hpad⟩ := hzero
    exact ⟨BitVec.eq_of_toNat_eq hop, hrow, hz, hchan, valField_eq_idx_iff.2 ⟨hpad, rfl⟩⟩
  all_goals
    rename_i hop
    exact
      { op := BitVec.eq_of_toNat_eq hop
        row := by simp [hzero, Instr.rowOperand]
        z := by simp [hzero]
        chan := by simp [hzero, Instr.chanOperand]
        val := by simp [hzero, Instr.valOperand] }

theorem decode_eq_ok_iff {i : Instr} {w : Word} : decode w = .ok i ↔ i.FieldsOf w := ⟨.of_decode, fun h => h.decode_eq⟩

/-- Settles O1: a word with the fields of a command decodes to it, and the encoding has them. -/
theorem decodeOfEncode : Obligations.DecodeOfEncode := fun i => (encode_fields i).decode_eq

/-- Settles O2: a word that decodes has the fields of its command, as the encoding has, and a word is its fields. -/
theorem encodeOfDecode : Obligations.EncodeOfDecode := fun _ _ h => (decode_eq_ok_iff.1 h).encode_eq

/-! ### The opcode map (30_encoding R80) -/

/-- GAMMA's mask keeps `val[11:8]` alone. -/
theorem append_and_padMask (pad : BitVec 4) (idx : BitVec 8) : pad ++ idx &&& 0xF00#12 = pad ++ 0#8 :=
  calc pad ++ idx &&& 0xF00#12 = (pad ++ idx) &&& (BitVec.allOnes 4 ++ 0#8) := rfl
    _ = (pad &&& BitVec.allOnes 4) ++ (idx &&& 0#8) := BitVec.and_append
    _ = pad ++ 0#8 := by rw [BitVec.and_allOnes, BitVec.and_zero]

theorem valField_and_padMask {w : Word} : valField w &&& 0xF00#12 = 0#12 ↔ idxPad w = 0 := by
  rw [← idxPad_append_idxField, append_and_padMask]
  exact BitVec.append_left_inj (s₂ := 0#4) 0#8

/-- The word of a command selects the command's row. -/
theorem exists_row_of_encode (i : Instr) :
    ∃ row ∈ opcodeMap, i.mnemonic = row.mnemonic ∧ encode i &&& row.mask = row.matchWord := by
  obtain ⟨hop, hrow, hz, hchan, hval⟩ := encode_fields i
  simp only [and_mask_eq_iff, hop, hrow, hz, hchan, hval]
  cases i <;>
    simp [opcodeMap, Instr.mnemonic, Instr.opcode, Instr.rowOperand, Instr.chanOperand, Instr.valOperand,
      append_and_padMask]

/-- The map names each command once. -/
theorem opcodeRow_eq_of_mnemonic {row row' : OpcodeRow} (h : row ∈ opcodeMap) (h' : row' ∈ opcodeMap)
    (hname : row.mnemonic = row'.mnemonic) : row = row' :=
  List.inj_on_of_nodup_map (f := OpcodeRow.mnemonic) (by decide) h h' hname

/-- A mask keeps the whole of the fields a row fixes: a word that selects the row has the row's values there, and the
decoder asks no more. -/
theorem exists_decode_of_selects {w : Word} {row : OpcodeRow} (hmem : row ∈ opcodeMap)
    (h : w &&& row.mask = row.matchWord) : ∃ i, decode w = .ok i ∧ i.mnemonic = row.mnemonic := by
  have hkeepOp : opField w &&& 15#4 = opField w := BitVec.and_allOnes
  have hkeepRow : rowField w &&& 7#3 = rowField w := BitVec.and_allOnes
  have hkeepZ : zField w &&& 1#1 = zField w := BitVec.and_allOnes
  have hkeepChan : chanField w &&& 4095#12 = chanField w := BitVec.and_allOnes
  have hkeepVal : valField w &&& 4095#12 = valField w := BitVec.and_allOnes
  rw [and_mask_eq_iff] at h
  simp only [opcodeMap, List.mem_cons, List.not_mem_nil, or_false] at hmem
  rcases hmem with rfl | rfl | rfl | rfl | rfl | rfl | rfl | rfl | rfl | rfl | rfl
  all_goals
    simp only [BitVec.ofNat_eq_ofNat, BitVec.reduceExtractLsb', BitVec.and_zero, hkeepOp, hkeepRow, hkeepZ, hkeepChan,
      hkeepVal, valField_and_padMask] at h
    simp [decode, unlessNonzero, Instr.mnemonic, h]

/-- Settles O3: a word that selects a row decodes by it, and a command's word selects its own row and no other of its
name. -/
theorem decodeFollowsOpcodeMap : Obligations.DecodeFollowsOpcodeMap := by
  intro w row hmem
  constructor
  · exact exists_decode_of_selects hmem
  · rintro ⟨i, hi, hname⟩
    obtain ⟨row', hmem', hname', hselects⟩ := exists_row_of_encode i
    obtain rfl := opcodeRow_eq_of_mnemonic hmem hmem' (hname.symm.trans hname')
    rwa [encodeOfDecode w i hi] at hselects

end Sys2Proof
end

section
/-! SUPPORT. The two refusals of a command word (spec 30_encoding R84). -/

namespace Sys2Proof.Machine

theorem step_reserved {s : State} {w : Word} {rest : List Input} {why : Reserved} (hin : s.inputs = .cmd w :: rest)
    (hw : decode w = .error why) : step s = .refused (.reservedWord w why) := by
  rw [step, hin]
  simp only [runCommand, hw]

theorem checked_unavailable {i : Instr} {s : State} (h : i.available s.cfg = false)
    (act : State → Host.Outcome State Fault Refusal) : checked i s act = .refused (.unavailable (encode i)) := by
  rw [checked, if_neg (by simp [h])]

/-- A command that the configuration removes is refused before anything else is looked at (log 11). -/
theorem exec_unavailable {i : Instr} {s : State} (h : i.available s.cfg = false) :
    exec i s = .refused (.unavailable (encode i)) := by
  cases i
  case setdc chan val => rw [exec, execSetdc, checked_unavailable h]
  case setalldc val => rw [exec, execSetalldc, checked_unavailable h]
  case getdc chan => rw [exec, execGetdc, checked_unavailable h]
  case gamma idx => rw [exec, execGamma, checked_unavailable h]
  case clockindc => rw [exec, execClockindc, checked_unavailable h]
  all_goals cases h

/-- The commands a configuration removes, by name (00_scope R10). -/
theorem available_eq_false {c : Config} {i : Instr}
    (h : c.includeDotCorrection = false ∧ i.mnemonic ∈ ["SETDC", "SETALLDC", "GETDC", "CLOCKINDC"] ∨
      c.hardwireProgramPins = true ∧ i.mnemonic = "CLOCKINDC" ∨
      c.includeGammaCorrection = false ∧ i.mnemonic = "GAMMA") : i.available c = false := by
  obtain ⟨hdc, hname⟩ | ⟨hwired, hname⟩ | ⟨hgamma, hname⟩ := h
  · cases i <;> simp [Instr.mnemonic] at hname <;> simp [Instr.available, Config.hasProgSel, hdc]
  · cases i <;> simp [Instr.mnemonic] at hname
    simp [Instr.available, Config.hasProgSel, hwired]
  · cases i <;> simp [Instr.mnemonic] at hname
    exact hgamma

/-- Settles O4: a word that does not decode is reserved, one that decodes selects its command's row, and the check of
availability comes first in every command that can be absent. -/
theorem reservedAndUnavailableRefused : Obligations.ReservedAndUnavailableRefused := by
  intro s w rest hin
  constructor
  · intro hnone
    cases hw : decode w with
    | error why => exact ⟨why, step_reserved hin hw⟩
    | ok i =>
      obtain ⟨row, hmem, -, hselects⟩ := exists_row_of_encode i
      rw [encodeOfDecode w i hw] at hselects
      exact absurd hselects (hnone row hmem)
  · intro i hw habsent
    have hrefused : exec i (s.consume rest) = _ := exec_unavailable (available_eq_false (c := s.cfg) habsent)
    rw [step_cmd hin hw, hrefused, encodeOfDecode w i hw]
    rfl

end Sys2Proof.Machine
end

section
/-! SUPPORT. What PutBits makes of one byte, and with it the byte rules of the packed formats (spec 30_encoding R70,
R73). -/

namespace Sys2Proof.Machine

/-- A byte beside or under a field that ends `e` bits above the byte's last bit, or `d` bits beyond it (the other of the
two is 0): `keep` selects the byte's bits outside the field. -/
theorem read_putBits_byte (draw : Nat → Byte) (m : Memory) {base off W v j d e : Nat} {keep : Byte} (hv : v < 2 ^ W)
    (hend : off + W + e = 8 * j + 8 + d)
    (hkeep : ∀ k < 8, keep.getLsbD k = decide (k + d < e ∨ e + W ≤ k + d)) :
    (putBits draw m base off W v).read draw (base + j) =
      (m.read draw (base + j) &&& keep) ||| BitVec.ofNat 8 (v * 2 ^ e / 2 ^ d) := by
  apply read_putBits
  intro k hk
  have hbit : (v * 2 ^ e / 2 ^ d).testBit k = (decide (e ≤ k + d) && v.testBit (k + d - e)) := by
    rw [Nat.testBit_div_two_pow, Nat.testBit_mul_two_pow]
  rw [BitVec.getLsbD_or, BitVec.getLsbD_and, BitVec.getLsbD_ofNat, hkeep k hk, hbit]
  by_cases hin : off ≤ 8 * j + (7 - k) ∧ 8 * j + (7 - k) < off + W
  · rw [if_pos hin, show W - 1 - (8 * j + (7 - k) - off) = k + d - e by omega]
    simp [hk, show e ≤ k + d by omega, show ¬ (k + d < e ∨ e + W ≤ k + d) by omega]
  · rw [if_neg hin]
    have hout : k + d < e ∨ e + W ≤ k + d := by omega
    have hzero : (decide (e ≤ k + d) && v.testBit (k + d - e)) = false := by
      obtain h | h := hout
      · simp [h]
      · have hbig : v < 2 ^ (k + d - e) := hv.trans_le (Nat.pow_le_pow_right (by decide) (by omega))
        simp [Nat.testBit_lt_two_pow hbig]
    simp [hout, hzero]

/-- The low bits of a value, moved up to the top of a byte. -/
theorem ofNat_mod_shiftLeft (v : Nat) {e : Nat} (he : e ≤ 8) :
    BitVec.ofNat 8 (v % 2 ^ (8 - e)) <<< e = BitVec.ofNat 8 (v * 2 ^ e) := by
  apply BitVec.eq_of_toNat_eq
  have hsplit : 2 ^ 8 = 2 ^ (8 - e) * 2 ^ e := by rw [← pow_add, Nat.sub_add_cancel he]
  have hlt : v % 2 ^ (8 - e) < 2 ^ 8 :=
    (Nat.mod_lt _ (Nat.two_pow_pos _)).trans_le (Nat.pow_le_pow_right (by decide) (by omega))
  rw [BitVec.toNat_shiftLeft, BitVec.toNat_ofNat, BitVec.toNat_ofNat, Nat.mod_eq_of_lt hlt, Nat.shiftLeft_eq, hsplit,
    Nat.mul_mod_mul_right, Nat.mul_mod_mul_right, Nat.mod_mod]

/-- The first byte of a field that goes on for `d` bits in the next byte: the field's upper bits, below the bits the byte
keeps. -/
theorem read_putBits_first (draw : Nat → Byte) (m : Memory) {base off W v j d : Nat} (keep : Byte) (hv : v < 2 ^ W)
    (hend : off + W = 8 * j + 8 + d) (hkeep : ∀ k < 8, keep.getLsbD k = decide (W ≤ k + d)) :
    (putBits draw m base off W v).read draw (base + j) =
      (m.read draw (base + j) &&& keep) ||| BitVec.ofNat 8 (v / 2 ^ d) := by
  simpa using read_putBits_byte draw m (e := 0) hv hend (by simpa using hkeep)

/-- The last byte of a field that ends `e` bits above the byte's end: the field's lower bits, above the bits the byte
keeps. -/
theorem read_putBits_last (draw : Nat → Byte) (m : Memory) {base off W v j e : Nat} (keep : Byte) (hv : v < 2 ^ W)
    (he : e ≤ 8) (hend : off + W + e = 8 * j + 8) (hkeep : ∀ k < 8, keep.getLsbD k = decide (k < e ∨ e + W ≤ k)) :
    (putBits draw m base off W v).read draw (base + j) =
      (m.read draw (base + j) &&& keep) ||| BitVec.ofNat 8 (v % 2 ^ (8 - e)) <<< e := by
  rw [ofNat_mod_shiftLeft v he]
  simpa using read_putBits_byte draw m (d := 0) hv hend hkeep

/-- Settles O9: of the twelve bits at `12 * rev` four or eight stand in the first byte, the rest in the second. -/
theorem grayscaleByteRule : Obligations.GrayscaleByteRule := by
  intro cfg draw m base c v hB _ hv rev i old new
  have hi : i = rev * 3 / 2 := rfl
  have hput : encodeGS cfg draw m base c v = putBits draw m base (12 * rev) 12 v := by
    rw [encodeGS, hB]
    rfl
  simp only [new, hput]
  clear_value i
  refine ⟨?_, fun heven => ⟨?_, ?_⟩, fun hodd => ⟨?_, ?_⟩, fun a hfirst hsecond => ?_⟩
  · rw [Config.gsLen, hB]
    ring
  · simpa using read_putBits_first draw m (base := base) 0 hv (by omega : 12 * rev + 12 = 8 * i + 8 + 4) (by decide)
  · exact read_putBits_last draw m 0x0F hv (e := 4) (by decide) (by omega) (by decide)
  · exact read_putBits_first draw m 0xF0 hv (d := 8) (by omega) (by decide)
  · simpa using read_putBits_last draw m (base := base) 0 hv (e := 0) (by decide)
      (by omega : 12 * rev + 12 + 0 = 8 * (i + 1) + 8) (by decide)
  · exact read_putBits_outside draw m base (12 * rev) 12 v a (fun t ht => by omega)

/-- Settles O11: the six bits at `6 * rev` start at bit 0, 6, 4 or 2 of the first byte. -/
theorem dotCorrectionByteRule : Obligations.DotCorrectionByteRule := by
  intro cfg draw m c v _ hv rev i old new
  have hi : i = rev * 3 / 4 := rfl
  have hnew (j : Nat) : new j = (putBits draw m 0 (6 * rev) 6 v).read draw (0 + j) := by
    rw [Nat.zero_add]
    rfl
  have hold (j : Nat) : old j = m.read draw (0 + j) := by rw [Nat.zero_add]
  have hframe (j : Nat) (h : ∀ t < 6, 0 + j ≠ 0 + (6 * rev + t) / 8) : new j = old j := by
    rw [hnew, hold]
    exact read_putBits_outside draw m 0 (6 * rev) 6 v (0 + j) h
  simp only [hnew, hold] at hframe ⊢
  clear_value i
  refine ⟨rfl, fun h0 => ⟨?_, fun j hj => ?_⟩, fun h1 => ⟨?_, ?_, fun j hj hj' => ?_⟩,
    fun h2 => ⟨?_, ?_, fun j hj hj' => ?_⟩, fun h3 => ⟨?_, fun j hj => ?_⟩⟩
  · have hlow : v % 2 ^ (8 - 2) = v := Nat.mod_eq_of_lt hv
    have hlast := read_putBits_last draw m (base := 0) 0x03 hv (e := 2) (by decide)
      (by omega : 6 * rev + 6 + 2 = 8 * i + 8) (by decide)
    rwa [hlow] at hlast
  · exact hframe j (fun t ht => by omega)
  · exact read_putBits_first draw m 0xFC hv (d := 4) (by omega) (by decide)
  · exact read_putBits_last draw m 0x0F hv (e := 4) (by decide) (by omega) (by decide)
  · exact hframe j (fun t ht => by omega)
  · exact read_putBits_first draw m 0xF0 hv (d := 2) (by omega) (by decide)
  · exact read_putBits_last draw m 0x3F hv (e := 6) (by decide) (by omega) (by decide)
  · exact hframe j (fun t ht => by omega)
  · simpa using read_putBits_first draw m (base := 0) 0xC0 hv (by omega : 6 * rev + 6 = 8 * i + 8 + 0) (by decide)
  · exact hframe j (fun t ht => by omega)

end Sys2Proof.Machine
end

section
/-! SUPPORT. The gamma table's entries as grayscale values, and SETGAMMA (spec 30_encoding R85, 44_gamma R185). -/

namespace Sys2Proof.Machine

theorem gammaTable_le {pwmBits : Nat} (hlow : 8 ≤ pwmBits) (hhigh : pwmBits ≤ 12) :
    ∀ n ∈ gammaTable pwmBits, n ≤ 2 ^ pwmBits - 1 := by
  interval_cases pwmBits <;> decide +kernel

theorem gammaEntry_le_maxGS {c : Config} (hc : c.Valid) (i : Nat) : gammaEntry c i ≤ c.maxGS := by
  obtain ⟨-, ⟨hlow, hhigh⟩, -⟩ := hc
  unfold gammaEntry
  by_cases hi : i < (gammaTable c.pwmBits).length
  · rw [List.getD_eq_getElem _ _ hi]
    exact gammaTable_le hlow hhigh _ (List.getElem_mem hi)
  · rw [List.getD_eq_default _ _ (not_lt.1 hi)]
    exact Nat.zero_le _

/-- A grayscale value fits the twelve bits of SETGS's operand. -/
theorem maxGS_lt {c : Config} (hc : c.Valid) : c.maxGS < 2 ^ 12 := by
  obtain ⟨-, ⟨-, hhigh⟩, -⟩ := hc
  calc c.maxGS < 2 ^ c.pwmBits := (le_maxGS c _).1 le_rfl
    _ ≤ 2 ^ 12 := Nat.pow_le_pow_right (by decide) hhigh

theorem zext16_toNat {n : Nat} (h : n < 2 ^ 16) : (zext16 n).toNat = n := by
  rw [zext16, BitVec.toNat_ofNat, Nat.mod_eq_of_lt h]

/-- `resp[11:0]` of a result that fits them is the result. -/
theorem zext16_low12_toNat {n : Nat} (h : n < 2 ^ 12) : ((zext16 n).extractLsb' 0 12).toNat = n := by
  rw [BitVec.extractLsb'_toNat, zext16_toNat (h.trans (by decide)), Nat.shiftRight_zero, Nat.mod_eq_of_lt h]

theorem decodeGS_encodeGS (cfg : Config) (draw : Nat → Byte) (m : Memory) (base c : Nat) {v : Nat}
    (hv : v ≤ cfg.maxGS) : decodeGS cfg draw (encodeGS cfg draw m base c v) base c = v :=
  getBits_putBits draw m base _ _ v ((le_maxGS cfg v).1 hv)

theorem setGamma_eq {s : State} (row : BitVec 3) (chan : BitVec 12) (idx : BitVec 8)
    (h : s.cfg.includeGammaCorrection = true) :
    setGamma row chan idx s =
      exec (.setgs row chan ((zext16 (gammaEntry s.cfg idx.toNat)).extractLsb' 0 12))
        (respond (gammaEntry s.cfg idx.toNat) s) := by
  rw [setGamma, exec_gamma_next.2 ⟨h, rfl⟩]
  rfl

/-- Settles O27: GAMMA leaves the entry in `resp`, where its low twelve bits are the whole of it, in range for SETGS. -/
theorem setGammaSetsCorrectedValue : Obligations.SetGammaSetsCorrectedValue := by
  intro s row chan idx hvalid
  have hle := gammaEntry_le_maxGS hvalid idx.toNat
  refine ⟨hle, fun hgamma hchan hrow hreq => ?_⟩
  rw [setGamma_eq row chan idx hgamma]
  generalize gammaEntry s.cfg idx.toNat = entry at hle ⊢
  have hlt := hle.trans_lt (maxGS_lt hvalid)
  have hval := zext16_low12_toNat hlt
  have hrange : (Instr.setgs row chan ((zext16 entry).extractLsb' 0 12)).inRange s.cfg = true := by
    simp only [Instr.inRange, hval, hchan, hrow, hle, decide_true, Bool.and_self]
  refine ⟨_, exec_setgs_next.2 ⟨hrange, hreq, rfl⟩, ?_, zext16_toNat (hlt.trans (by decide)), rfl⟩
  rw [hval]
  exact decodeGS_encodeGS s.cfg s.gsDraw s.gs _ _ hle

end Sys2Proof.Machine
end

section
/-! SUPPORT. The laws of the codec: one field, and the fields beside it (spec 40_codec R101, R102). -/

namespace Sys2Proof.Machine

theorem decodeDC_encodeDC (cfg : Config) (draw : Nat → Byte) (m : Memory) (c : Nat) {v : Nat} (hv : v ≤ 63) :
    decodeDC cfg draw (encodeDC cfg draw m c v) c = v :=
  getBits_putBits draw m 0 _ dcWidth v (Nat.lt_succ_of_le hv)

theorem decodeGS_encodeGS_of_ne {cfg : Config} (draw : Nat → Byte) (m : Memory) (base v : Nat) {c c' : Nat}
    (hc : c < cfg.numChannels) (hc' : c' < cfg.numChannels) (hne : c' ≠ c) :
    decodeGS cfg draw (encodeGS cfg draw m base c v) base c' = decodeGS cfg draw m base c' :=
  getBits_putBits_disjoint draw m base _ _ _ v (fieldOffset_disjoint cfg _ c c' hc hc' hne)

theorem decodeDC_encodeDC_of_ne {cfg : Config} (draw : Nat → Byte) (m : Memory) (v : Nat) {c c' : Nat}
    (hc : c < cfg.numChannels) (hc' : c' < cfg.numChannels) (hne : c' ≠ c) :
    decodeDC cfg draw (encodeDC cfg draw m c v) c' = decodeDC cfg draw m c' :=
  getBits_putBits_disjoint draw m 0 _ _ _ v (fieldOffset_disjoint cfg _ c c' hc hc' hne)

/-- PutBits leaves every stream bit outside its field as it was (20_memory R58). -/
theorem streamBit_putBits_outside (draw : Nat → Byte) (m : Memory) (base v : Nat) {off W k : Nat}
    (h : ¬ (off ≤ k ∧ k < off + W)) :
    streamBit draw (putBits draw m base off W v) base k = streamBit draw m base k := by
  rw [streamBit_putBits, if_neg h]

/-- Settles O7: GetBits reads back the field PutBits wrote. -/
theorem codecRoundTrip : Obligations.CodecRoundTrip := fun cfg draw m c _ _ =>
  ⟨fun base hv => decodeGS_encodeGS cfg draw m base c hv, fun hv => decodeDC_encodeDC cfg draw m c hv⟩

/-- Settles O8: PutBits writes the stream bits of its field alone, and the fields of two channels do not meet. -/
theorem codecNonInterference : Obligations.CodecNonInterference := fun _ draw m _ v hc =>
  ⟨fun base _ hc' hne => decodeGS_encodeGS_of_ne draw m base v hc hc' hne,
    fun _ hc' hne => decodeDC_encodeDC_of_ne draw m v hc hc' hne,
    fun base _ hk => streamBit_putBits_outside draw m base v hk,
    fun _ hk => streamBit_putBits_outside draw m 0 v hk⟩

end Sys2Proof.Machine
end

section
/-! SUPPORT. Bytes as fields of eight stream bits, and with them what the codec reads, byte by byte (spec 40_codec
R92, R97). -/

namespace Sys2Proof.Machine

/-- A field inside a field: `n` bits after the first `t` and before the last `r`. -/
theorem getBits_within (draw : Nat → Byte) (m : Memory) (base off t n r : Nat) :
    getBits draw m base (off + t) n = getBits draw m base off (t + n + r) / 2 ^ r % 2 ^ n := by
  rw [getBits_add, getBits_add, Nat.add_comm (_ * 2 ^ r), Nat.add_mul_div_right _ _ (Nat.two_pow_pos _),
    Nat.div_eq_of_lt (getBits_lt _ _ _ _ _), Nat.zero_add, Nat.mul_add_mod', Nat.mod_eq_of_lt (getBits_lt _ _ _ _ _)]

theorem read_toNat (draw : Nat → Byte) (m : Memory) (base j : Nat) :
    (m.read draw (base + j)).toNat = getBits draw m base (8 * j) 8 := by
  refine (getBits_eq draw m base (8 * j) 8 _ (BitVec.isLt _) fun t ht => ?_).symm
  rw [BitVec.testBit_toNat, getLsbD_read draw m base j _ (by omega)]
  congr 2
  omega

/-- A field that lies in byte `j` of a buffer, `r` bits above the byte's end. -/
theorem getBits_of_byte (draw : Nat → Byte) (m : Memory) (base j : Nat) {off n : Nat} (r : Nat)
    (hstart : 8 * j ≤ off) (hend : off + n + r = 8 * j + 8) :
    getBits draw m base off n = (m.read draw (base + j)).toNat / 2 ^ r % 2 ^ n := by
  obtain ⟨t, rfl⟩ := Nat.exists_eq_add_of_le hstart
  rw [getBits_within draw m base (8 * j) t n r, read_toNat, show t + n + r = 8 by omega]

/-- A field of `a + b` bits of which `a` end byte `j` and `b` begin the next, of which `r` bits are left. -/
theorem getBits_of_two_bytes (draw : Nat → Byte) (m : Memory) (base j a b : Nat) {off : Nat} (r : Nat) (ha : a ≤ 8)
    (hmid : off + a = 8 * (j + 1)) (hb : b + r = 8) :
    getBits draw m base off (a + b) =
      (m.read draw (base + j)).toNat % 2 ^ a * 2 ^ b + (m.read draw (base + (j + 1))).toNat / 2 ^ r := by
  have hlow : (m.read draw (base + (j + 1))).toNat / 2 ^ r < 2 ^ b := by
    rw [Nat.div_lt_iff_lt_mul (Nat.two_pow_pos r), ← pow_add, hb]
    exact BitVec.isLt _
  rw [getBits_add, hmid, getBits_of_byte draw m base j 0 (by omega) (by omega),
    getBits_of_byte draw m base (j + 1) r le_rfl (by omega), pow_zero, Nat.div_one, Nat.mod_eq_of_lt hlow]

/-- Settles O10: of the twelve bits at `12 * rev` the first byte holds eight or four, the next the rest. -/
theorem grayscaleDecodeRule : Obligations.GrayscaleDecodeRule := by
  intro cfg draw m base c hB _ rev i buf
  have hi : i = rev * 3 / 2 := rfl
  have hfield : decodeGS cfg draw m base c = getBits draw m base (12 * rev) 12 := by
    rw [decodeGS, hB]
    rfl
  rw [hfield]
  clear_value i
  constructor
  · intro heven
    rw [getBits_of_two_bytes draw m base i 8 4 4 le_rfl (by omega) rfl, Nat.mod_eq_of_lt (BitVec.isLt _)]
    rfl
  · intro hodd
    rw [getBits_of_two_bytes draw m base i 4 8 0 (by decide) (by omega) rfl, pow_zero, Nat.div_one]
    rfl

/-- Settles O12: the six bits at `6 * rev` lie in one byte, at its start or its end, or four and two or two and four of
them in two bytes. -/
theorem dotCorrectionDecodeRule : Obligations.DotCorrectionDecodeRule := by
  intro cfg draw m c _ rev i buf
  have hi : i = rev * 3 / 4 := rfl
  have hfield : decodeDC cfg draw m c = getBits draw m 0 (6 * rev) 6 := rfl
  have hbuf (j : Nat) : buf j = (m.read draw (0 + j)).toNat := by rw [Nat.zero_add]
  have hbyte (j : Nat) : (m.read draw (0 + j)).toNat < 256 := BitVec.isLt _
  rw [hfield]
  simp only [hbuf]
  clear_value i
  refine ⟨fun h0 => ?_, fun h1 => ?_, fun h2 => ?_, fun h3 => ?_⟩
  · rw [getBits_of_byte draw m 0 i 2 (by omega) (by omega)]
    exact Nat.mod_eq_of_lt (by have := hbyte i; omega)
  · exact getBits_of_two_bytes draw m 0 i 2 4 4 (by decide) (by omega) rfl
  · exact getBits_of_two_bytes draw m 0 i 4 2 6 (by decide) (by omega) rfl
  · rw [getBits_of_byte draw m 0 i 0 (by omega) (by omega), pow_zero, Nat.div_one]
    rfl

end Sys2Proof.Machine
end

section
/-! SUPPORT. Buffers every channel of which was set to one value (spec 40_codec R94, R99, R103). -/

namespace Sys2Proof.Machine

/-! ### The loop over the channels, for both formats -/

/-- `for c = 0 .. n-1`: the field of `w` bits of channel `c` of the buffer at `base` becomes `v`: `fillGS` and `fillDC`
at once. -/
def fillFields (cfg : Config) (draw : Nat → Byte) (base w v : Nat) : Nat → Memory → Memory
  | 0, m => m
  | n + 1, m => putBits draw (fillFields cfg draw base w v n m) base (fieldOffset cfg w n) w v

theorem fillGS_eq_fillFields (cfg : Config) (draw : Nat → Byte) (base v n : Nat) (m : Memory) :
    fillGS cfg draw base v n m = fillFields cfg draw base cfg.pwmBits v n m := by
  induction n with
  | zero => rfl
  | succ n ih => rw [fillGS, ih]; rfl

theorem fillDC_eq_fillFields (cfg : Config) (draw : Nat → Byte) (v n : Nat) (m : Memory) :
    fillDC cfg draw v n m = fillFields cfg draw 0 dcWidth v n m := by
  induction n with
  | zero => rfl
  | succ n ih => rw [fillDC, ih]; rfl

/-- Each field keeps its value while the fields of later channels are written. -/
theorem getBits_fillFields {cfg : Config} (draw : Nat → Byte) (base : Nat) {w v n c : Nat} (m : Memory)
    (hv : v < 2 ^ w) (hn : n ≤ cfg.numChannels) (hc : c < n) :
    getBits draw (fillFields cfg draw base w v n m) base (fieldOffset cfg w c) w = v := by
  induction n with
  | zero => cases hc
  | succ n ih =>
    rw [fillFields]
    obtain hlt | rfl := Nat.lt_succ_iff_lt_or_eq.1 hc
    · rw [getBits_putBits_disjoint, ih (by omega) hlt]
      exact fieldOffset_disjoint cfg w n c hn (by omega) hlt.ne
    · exact getBits_putBits _ _ _ _ _ _ hv

/-! ### Buffers that repeat one field -/

/-- Each of the first `n` fields of `w` bits of the buffer at `base` holds `v`. -/
def Repeats (draw : Nat → Byte) (m : Memory) (base w n v : Nat) : Prop :=
  ∀ q < n, getBits draw m base (w * q) w = v

theorem fillFields_repeats (cfg : Config) (draw : Nat → Byte) (base : Nat) {w v : Nat} (m : Memory) (hv : v < 2 ^ w) :
    Repeats draw (fillFields cfg draw base w v cfg.numChannels m) base w cfg.numChannels v := by
  intro q hq
  have hfield := getBits_fillFields draw base m hv le_rfl (by omega : cfg.numChannels - 1 - q < cfg.numChannels)
  rwa [fieldOffset, channelRev, show cfg.numChannels - 1 - (cfg.numChannels - 1 - q) = q by omega] at hfield

theorem fillGS_repeats (cfg : Config) (draw : Nat → Byte) (base : Nat) {v : Nat} (m : Memory) (hv : v ≤ cfg.maxGS) :
    Repeats draw (fillGS cfg draw base v cfg.numChannels m) base cfg.pwmBits cfg.numChannels v := by
  rw [fillGS_eq_fillFields]
  exact fillFields_repeats cfg draw base m ((le_maxGS cfg v).1 hv)

theorem fillDC_repeats (cfg : Config) (draw : Nat → Byte) {v : Nat} (m : Memory) (hv : v ≤ 63) :
    Repeats draw (fillDC cfg draw v cfg.numChannels m) 0 dcWidth cfg.numChannels v := by
  rw [fillDC_eq_fillFields]
  exact fillFields_repeats cfg draw 0 m (Nat.lt_succ_of_le hv)

namespace Repeats

variable {draw : Nat → Byte} {m m' : Memory} {base w n v : Nat}

/-- A channel's field is one of the repeated fields (30_encoding R75). -/
theorem getBits_channel {cfg : Config} (h : Repeats draw m base w cfg.numChannels v) {c : Nat}
    (hc : c < cfg.numChannels) : getBits draw m base (fieldOffset cfg w c) w = v :=
  h _ (by unfold channelRev; omega)

theorem streamBit (h : Repeats draw m base w n v) {k : Nat} (hk : k < w * n) :
    streamBit draw m base k = v.testBit (w - 1 - k % w) := by
  have hw : 0 < w := Nat.pos_of_mul_pos_right (Nat.zero_lt_of_lt hk)
  rw [← h (k / w) (Nat.div_lt_of_lt_mul hk), getBits_testBit _ _ _ _ _ _ (Nat.mod_lt k hw), Nat.div_add_mod]

/-- Bytes that begin at the same place of the repeated field are equal, in one buffer or in two. -/
theorem read_eq (h : Repeats draw m base w n v) (h' : Repeats draw m' base w n v) {j j' : Nat}
    (hj : 8 * j + 8 ≤ w * n) (hj' : 8 * j' + 8 ≤ w * n) (hmod : 8 * j % w = 8 * j' % w) :
    m.read draw (base + j) = m'.read draw (base + j') := by
  apply BitVec.eq_of_getLsbD_eq
  intro k hk
  have hplace : (8 * j + (7 - k)) % w = (8 * j' + (7 - k)) % w := Nat.ModEq.add_right _ hmod
  rw [getLsbD_read _ _ _ _ _ hk, getLsbD_read _ _ _ _ _ hk, h.streamBit (by omega), h'.streamBit (by omega), hplace]

/-- `b` bits within a repeated field, after its first `t` bits and before its last `r`. -/
theorem getBits_part (h : Repeats draw m base w n v) (q t b r : Nat) (hq : q < n) (hw : t + b + r = w) :
    getBits draw m base (w * q + t) b = v / 2 ^ r % 2 ^ b := by
  rw [getBits_within draw m base (w * q) t b r, hw, h q hq]

/-- A byte that lies in field `q`. -/
theorem read_of_one_field (h : Repeats draw m base w n v) (q t r : Nat) {j : Nat} (hq : q < n) (hw : t + 8 + r = w)
    (hj : 8 * j = w * q + t) : m.read draw (base + j) = BitVec.ofNat 8 (v / 2 ^ r) := by
  apply BitVec.eq_of_toNat_eq
  rw [read_toNat, hj, h.getBits_part q t 8 r hq hw, BitVec.toNat_ofNat]

/-- A byte whose first `b` bits end field `q`, after its first `t`, and whose last `d` begin the next field, of which
`r` bits are left. -/
theorem read_of_two_fields (h : Repeats draw m base w n v) (hv : v < 2 ^ w) (q t b d r : Nat) {j : Nat} (hq : q + 1 < n)
    (hfirst : t + b = w) (hsecond : d + r = w) (hbyte : b + d = 8) (hj : 8 * j = w * q + t) :
    m.read draw (base + j) = BitVec.ofNat 8 (v % 2 ^ b * 2 ^ d + v / 2 ^ r) := by
  have hnext : 8 * j + b = w * (q + 1) + 0 := by rw [hj, Nat.add_assoc, hfirst, Nat.mul_succ, Nat.add_zero]
  have hstart : v / 2 ^ r < 2 ^ d := by rwa [Nat.div_lt_iff_lt_mul (Nat.two_pow_pos r), ← pow_add, hsecond]
  have hbits : (m.read draw (base + j)).toNat = v % 2 ^ b * 2 ^ d + v / 2 ^ r := by
    have hsplit := getBits_add draw m base (8 * j) b d
    rwa [hbyte, hnext, h.getBits_part (q + 1) 0 d r hq (by omega), hj, h.getBits_part q t b 0 (by omega) hfirst,
      ← hj, ← read_toNat, pow_zero, Nat.div_one, Nat.mod_eq_of_lt hstart] at hsplit
  rw [← hbits, BitVec.ofNat_toNat, BitVec.setWidth_eq]

/-- Two fields of twelve bits in three bytes (40_codec R103). -/
theorem read_twelve_bit_fields (h : Repeats draw m base 12 n v) (hv : v < 2 ^ 12) {k : Nat} (hk : 2 * k + 1 < n) :
    m.read draw (base + 3 * k) = BitVec.ofNat 8 (v / 16) ∧
    m.read draw (base + (3 * k + 1)) = BitVec.ofNat 8 (v % 16 * 16 + v / 256) ∧
    m.read draw (base + (3 * k + 2)) = BitVec.ofNat 8 (v % 256) := by
  refine ⟨h.read_of_one_field (2 * k) 0 4 (by omega) rfl (by omega),
    h.read_of_two_fields hv (2 * k) 8 4 4 8 hk rfl rfl rfl (by omega), ?_⟩
  rw [h.read_of_one_field (2 * k + 1) 4 0 hk rfl (by omega), pow_zero, Nat.div_one]
  exact BitVec.eq_of_toNat_eq (Nat.mod_mod v 256).symm

/-- Four fields of six bits in three bytes (40_codec R103). -/
theorem read_six_bit_fields (h : Repeats draw m base 6 n v) (hv : v < 2 ^ 6) {k : Nat} (hk : 4 * k + 3 < n) :
    m.read draw (base + 3 * k) = BitVec.ofNat 8 (v * 4 + v / 16) ∧
    m.read draw (base + (3 * k + 1)) = BitVec.ofNat 8 (v % 16 * 16 + v / 4) ∧
    m.read draw (base + (3 * k + 2)) = BitVec.ofNat 8 (v % 4 * 64 + v) := by
  have hfirst := h.read_of_two_fields hv (4 * k) 0 6 2 4 (j := 3 * k) (by omega) rfl rfl rfl (by omega)
  rw [Nat.mod_eq_of_lt hv] at hfirst
  have hlast := h.read_of_two_fields hv (4 * k + 2) 4 2 6 0 (j := 3 * k + 2) hk rfl rfl rfl (by omega)
  rw [pow_zero, Nat.div_one] at hlast
  exact ⟨hfirst, h.read_of_two_fields hv (4 * k + 1) 2 4 4 2 (by omega) rfl rfl rfl (by omega), hlast⟩

end Repeats

/-- Settles O13: the fields of a filled buffer are all its bits, so they say what every channel and every byte is. -/
theorem bulkSetPattern : Obligations.BulkSetPattern := by
  intro cfg draw m base v _ gs dc
  have hchannels : cfg.numChannels = 16 * cfg.chipCount := rfl
  constructor
  · intro hv
    have hbits := gsLen_bits cfg
    have hrep (m : Memory) := fillGS_repeats cfg draw base m hv
    refine ⟨fun c hc => (hrep m).getBits_channel hc,
      fun m' j hj => (hrep m').read_eq (hrep m) (by omega) (by omega) rfl,
      fun hB k hk => ?_, fun j hj => (hrep m).read_eq (hrep m) (by omega) (by omega) ?_⟩
    · have htwelve := hrep m
      rw [hB] at htwelve
      exact htwelve.read_twelve_bit_fields (hB ▸ (le_maxGS cfg v).1 hv) (by omega)
    · rw [Nat.mul_add, Nat.add_mul_mod_self_right]
  · intro hv
    have hbits : 8 * cfg.dcLen = 6 * cfg.numChannels := dcLen_bits cfg
    have hrep (m : Memory) : Repeats draw (fillDC cfg draw v cfg.numChannels m) 0 6 cfg.numChannels v :=
      fillDC_repeats cfg draw m hv
    refine ⟨fun c hc => (hrep m).getBits_channel hc, fun m' j hj => ?_, fun k hk => ?_⟩
    · simpa only [Nat.zero_add] using (hrep m').read_eq (hrep m) (j := j) (by omega) (by omega) rfl
    · simpa only [Nat.zero_add] using (hrep m).read_six_bit_fields (Nat.lt_succ_of_le hv) (k := k) (by omega)

end Sys2Proof.Machine
end

section
/-! SUPPORT. The codec commands: where each completes or faults, what its writes leave in the memories (spec 40_codec
R90, R93 to R95, R98 to R100, R105). -/

namespace Sys2Proof.Machine

/-! ### The operands in range, and the two faults -/

theorem inRange_setgs_iff {c : Config} {row : BitVec 3} {chan val : BitVec 12} :
    (Instr.setgs row chan val).inRange c = true ↔
      chan.toNat < c.numChannels ∧ row.toNat < c.nRows ∧ val.toNat ≤ c.maxGS := by
  simp only [Instr.inRange, Bool.and_eq_true, decide_eq_true_eq, and_assoc]

theorem inRange_setallgs_iff {c : Config} {val : BitVec 12} :
    (Instr.setallgs val).inRange c = true ↔ val.toNat ≤ c.maxGS := decide_eq_true_iff

theorem inRange_getgs_iff {c : Config} {row : BitVec 3} {chan : BitVec 12} :
    (Instr.getgs row chan).inRange c = true ↔ chan.toNat < c.numChannels ∧ row.toNat < c.nRows :=
  Bool.and_eq_true_iff.trans (and_congr decide_eq_true_iff decide_eq_true_iff)

theorem inRange_setdc_iff {c : Config} {chan val : BitVec 12} :
    (Instr.setdc chan val).inRange c = true ↔ chan.toNat < c.numChannels ∧ val.toNat ≤ 63 :=
  Bool.and_eq_true_iff.trans (and_congr decide_eq_true_iff decide_eq_true_iff)

theorem inRange_setalldc_iff {c : Config} {val : BitVec 12} :
    (Instr.setalldc val).inRange c = true ↔ val.toNat ≤ 63 := decide_eq_true_iff

theorem inRange_getdc_iff {c : Config} {chan : BitVec 12} :
    (Instr.getdc chan).inRange c = true ↔ chan.toNat < c.numChannels := decide_eq_true_iff

section
variable {i : Instr} {s : State} (havail : i.available s.cfg = true)
include havail

theorem checked_outOfRange (hrange : ¬ i.inRange s.cfg = true) (act : State → Host.Outcome State Fault Refusal) :
    checked i s act = .fault (.operandOutOfRange (encode i)) := by
  rw [checked, if_pos havail, if_neg hrange]

/-- A command of the block with an operand out of range faults before anything else is looked at (40_codec R90). -/
theorem exec_outOfRange (hrange : ¬ i.inRange s.cfg = true) :
    exec i s = .fault (.operandOutOfRange (encode i)) := by
  cases i
  case setgs row chan val => rw [exec, execSetgs, checked_outOfRange havail hrange]
  case setallgs val => rw [exec, execSetallgs, checked_outOfRange havail hrange]
  case getgs row chan => rw [exec, execGetgs, checked_outOfRange havail hrange]
  case setdc chan val => rw [exec, execSetdc, checked_outOfRange havail hrange]
  case setalldc val => rw [exec, execSetalldc, checked_outOfRange havail hrange]
  case getdc chan => rw [exec, execGetdc, checked_outOfRange havail hrange]
  all_goals exact absurd rfl hrange

/-- The second check of the grayscale writers (40_codec R105). -/
theorem checked_whenNotPending_pending (hrange : i.inRange s.cfg = true) (hreq : s.updateReq = true)
    (act : State → Host.Outcome State Fault Refusal) :
    checked i s (fun s => whenNotPending i s act) = .fault (.backWriteWhilePending (encode i)) := by
  rw [checked, if_pos havail, if_pos hrange, whenNotPending, if_pos hreq]

end

theorem exec_setgs_pending {s : State} {row : BitVec 3} {chan val : BitVec 12}
    (hrange : (Instr.setgs row chan val).inRange s.cfg = true) (hreq : s.updateReq = true) :
    exec (.setgs row chan val) s = .fault (.backWriteWhilePending (encode (.setgs row chan val))) :=
  checked_whenNotPending_pending rfl hrange hreq _

theorem exec_setallgs_pending {s : State} {val : BitVec 12} (hrange : (Instr.setallgs val).inRange s.cfg = true)
    (hreq : s.updateReq = true) :
    exec (.setallgs val) s = .fault (.backWriteWhilePending (encode (.setallgs val))) :=
  checked_whenNotPending_pending rfl hrange hreq _

/-! ### The bytes outside what a loop writes -/

theorem Memory.read_write_of_ne (draw : Nat → Byte) (m : Memory) {a key : Nat} (v : Byte) (h : key ≠ a) :
    (m.write a v).read draw key = m.read draw key := by
  rw [Memory.read_write, if_neg h]

theorem read_fillGS_outside (cfg : Config) (draw : Nat → Byte) (base v : Nat) (m : Memory) {key : Nat}
    (h : ∀ j < cfg.gsLen, key ≠ base + j) :
    (fillGS cfg draw base v cfg.numChannels m).read draw key = m.read draw key :=
  fillGS_preserves (P := fun m' => m'.read draw key = m.read draw key) draw v le_rfl
    (fun m' j b hj hm => (Memory.read_write_of_ne draw m' b (h j hj)).trans hm) rfl

theorem read_fillRows_outside (cfg : Config) (draw : Nat → Byte) (p : Bool) (v : Nat) (m : Memory) {key : Nat}
    (h : ∀ r < cfg.nRows, ∀ j < cfg.gsLen, key ≠ gsKey p r j) :
    (fillRows cfg draw p v cfg.nRows m).read draw key = m.read draw key :=
  fillRows_preserves (P := fun m' => m'.read draw key = m.read draw key) draw v le_rfl
    (fun m' r j b hr hj hm => (Memory.read_write_of_ne draw m' b (h r hr j hj)).trans hm) rfl

theorem read_fillDC_outside (cfg : Config) (draw : Nat → Byte) (v : Nat) (m : Memory) {key : Nat}
    (h : ¬ key < cfg.dcLen) : (fillDC cfg draw v cfg.numChannels m).read draw key = m.read draw key :=
  fillDC_preserves (P := fun m' => m'.read draw key = m.read draw key) draw v le_rfl
    (fun m' j b hj hm => (Memory.read_write_of_ne draw m' b (by omega)).trans hm) rfl

/-! ### The values after a loop -/

/-- A channel's value depends on the bytes of its buffer alone. -/
theorem decodeGS_congr {cfg : Config} {draw : Nat → Byte} {m m' : Memory} {base c : Nat} (hc : c < cfg.numChannels)
    (h : ∀ j < cfg.gsLen, m.read draw (base + j) = m'.read draw (base + j)) :
    decodeGS cfg draw m base c = decodeGS cfg draw m' base c :=
  getBits_congr fun t ht => by rw [streamBit, streamBit, h _ (gsField_byte_lt hc ht)]

/-- Filling a row of a page changes no other row of it. -/
theorem decodeGS_fillGS_other_row {cfg : Config} (hvalid : cfg.Valid) (draw : Nat → Byte) (p : Bool) (v : Nat)
    (m : Memory) {r r' c : Nat} (hr : r < cfg.nRows) (hr' : r' < cfg.nRows) (hne : r ≠ r')
    (hc : c < cfg.numChannels) :
    decodeGS cfg draw (fillGS cfg draw (gsBase p r') v cfg.numChannels m) (gsBase p r) c =
      decodeGS cfg draw m (gsBase p r) c := by
  have hrows := nRows_le hvalid
  have hlen := gsLen_lt hvalid
  refine decodeGS_congr hc fun j hj => read_fillGS_outside cfg draw _ v m fun j' hj' hkey => ?_
  have hsame : gsKey p r j = gsKey p r' j' := hkey
  obtain ⟨-, hrow, -⟩ := gsKey_inj (by omega) (by omega) (by omega) (by omega) hsame
  exact hne hrow

theorem decodeGS_fillRows {cfg : Config} (hvalid : cfg.Valid) (draw : Nat → Byte) (p : Bool) {v : Nat}
    (hv : v ≤ cfg.maxGS) (m : Memory) {n r c : Nat} (hn : n ≤ cfg.nRows) (hr : r < n) (hc : c < cfg.numChannels) :
    decodeGS cfg draw (fillRows cfg draw p v n m) (gsBase p r) c = v := by
  induction n with
  | zero => cases hr
  | succ n ih =>
    rw [fillRows]
    obtain hlt | rfl := Nat.lt_succ_iff_lt_or_eq.1 hr
    · rw [decodeGS_fillGS_other_row hvalid draw p v _ (by omega) hn hlt.ne hc, ih (by omega) hlt]
    · exact (fillGS_repeats cfg draw _ _ hv).getBits_channel hc

/-! ### The commands -/

/-- Settles O15: SETGS is one `encodeGS`, whose field the other channels and bytes do not meet. -/
theorem setgsSetsOneChannel : Obligations.SetgsSetsOneChannel := by
  intro s row chan val
  refine ⟨fun hin => ⟨fun hreq => ?_, exec_setgs_pending (inRange_setgs_iff.2 hin)⟩,
    fun hout => exec_outOfRange rfl (mt inRange_setgs_iff.1 hout)⟩
  obtain ⟨hchan, hrow, hval⟩ := hin
  exact ⟨_, exec_setgs_next.2 ⟨inRange_setgs_iff.2 ⟨hchan, hrow, hval⟩, hreq, rfl⟩,
    decodeGS_encodeGS s.cfg s.gsDraw s.gs _ _ hval,
    fun c hc hne => decodeGS_encodeGS_of_ne s.gsDraw s.gs _ _ hchan hc hne,
    fun key hkey => read_putBits_outside s.gsDraw s.gs _ _ _ _ key hkey, rfl⟩

/-- Settles O16: SETALLGS fills the rows one by one, and no row of a page meets another. -/
theorem setallgsSetsBackPage : Obligations.SetallgsSetsBackPage := by
  intro s val hvalid
  refine ⟨fun hval => ⟨fun hreq => ?_, exec_setallgs_pending (inRange_setallgs_iff.2 hval)⟩,
    fun hout => exec_outOfRange rfl (mt inRange_setallgs_iff.1 hout)⟩
  exact ⟨_, exec_setallgs_next.2 ⟨inRange_setallgs_iff.2 hval, hreq, rfl⟩,
    fun r hr c hc => decodeGS_fillRows hvalid s.gsDraw _ hval s.gs le_rfl hr hc,
    fun key hkey => read_fillRows_outside s.cfg s.gsDraw _ _ s.gs hkey, rfl⟩

/-- Settles O17: a grayscale value has at most twelve bits, so `resp` holds it. -/
theorem getgsReadsBackPage : Obligations.GetgsReadsBackPage := by
  intro s row chan
  refine ⟨fun hin => ⟨_, exec_getgs_next.2 ⟨inRange_getgs_iff.2 hin, rfl⟩, fun hvalid => ?_, rfl⟩,
    fun hout => exec_outOfRange rfl (mt inRange_getgs_iff.1 hout)⟩
  have hle : s.gsValue s.back row.toNat chan.toNat ≤ s.cfg.maxGS := (le_maxGS _ _).2 (getBits_lt _ _ _ _ _)
  exact zext16_toNat ((hle.trans_lt (maxGS_lt hvalid)).trans (by decide))

/-- Settles O18: SETDC is one `encodeDC`, whose field the other channels and bytes do not meet. -/
theorem setdcSetsOneChannel : Obligations.SetdcSetsOneChannel := by
  intro s chan val hdc
  refine ⟨fun hin => ?_, fun hout => exec_outOfRange hdc (mt inRange_setdc_iff.1 hout)⟩
  obtain ⟨hchan, hval⟩ := hin
  exact ⟨_, exec_setdc_next.2 ⟨hdc, inRange_setdc_iff.2 ⟨hchan, hval⟩, rfl⟩,
    decodeDC_encodeDC s.cfg s.dcDraw s.dc _ hval,
    fun c hc hne => decodeDC_encodeDC_of_ne s.dcDraw s.dc _ hchan hc hne,
    fun key hkey => read_putBits_outside s.dcDraw s.dc 0 _ _ _ key fun t ht => by
      rw [Nat.zero_add]
      exact hkey t ht,
    rfl⟩

/-- Settles O19: SETALLDC fills the one buffer. -/
theorem setalldcSetsEveryChannel : Obligations.SetalldcSetsEveryChannel := by
  intro s val hdc
  refine ⟨fun hval => ?_, fun hout => exec_outOfRange hdc (mt inRange_setalldc_iff.1 hout)⟩
  exact ⟨_, exec_setalldc_next.2 ⟨hdc, inRange_setalldc_iff.2 hval, rfl⟩,
    fun c hc => (fillDC_repeats s.cfg s.dcDraw s.dc hval).getBits_channel hc,
    fun key hkey => read_fillDC_outside s.cfg s.dcDraw _ s.dc hkey, rfl⟩

/-- Settles O20: a dot-correction value has six bits, so `resp` holds it. -/
theorem getdcReadsChannel : Obligations.GetdcReadsChannel := by
  intro s chan hdc
  refine ⟨fun hchan => ⟨_, exec_getdc_next.2 ⟨hdc, inRange_getdc_iff.2 hchan, rfl⟩, ?_, rfl⟩,
    fun hout => exec_outOfRange hdc (mt inRange_getdc_iff.1 hout)⟩
  exact zext16_toNat ((getBits_lt _ _ _ _ _).trans (by decide : 2 ^ dcWidth < 2 ^ 16))

end Sys2Proof.Machine
end

section
/-! SUPPORT. The handoff of a frame: COMMIT, PENDING and INIT, and what a step can do to `front` and `update_req` (spec
41_handoff R120 to R126). -/

namespace Sys2Proof.Machine

/-! ### COMMIT, PENDING, INIT -/

/-- Settles O21: COMMIT is one write of the flag, and writing what stands there changes nothing. -/
theorem commitSetsRequest : Obligations.CommitSetsRequest := by
  intro s
  refine ⟨setUpdateReq s, exec_commit_next.2 rfl, rfl, rfl, fun hreq => ?_⟩
  rw [setUpdateReq, ← hreq]

/-- Settles O22: PENDING writes `update_req`, extended with zeros, to `resp`. -/
theorem pendingReportsRequest : Obligations.PendingReportsRequest := by
  intro s
  refine ⟨respond s.updateReq.toNat s, exec_pending_next.2 rfl, fun hreq => ?_, fun hreq => ?_, rfl⟩
  · rw [respond_resp, hreq]; rfl
  · rw [respond_resp, hreq]; rfl

theorem bitBanged_iff {c : Config} : c.bitBanged = true ↔ c.transportKind = .bitbang := beq_iff_eq

theorem hasProgSel_iff {c : Config} :
    c.hasProgSel = true ↔ c.includeDotCorrection = true ∧ c.hardwireProgramPins = false := by
  rw [Config.hasProgSel, Bool.and_eq_true, Bool.not_eq_true']

/-- Settles O23: INIT is its register writes and then its wire events, which put the pins the block has at their reset
values. -/
theorem initRestoresRegisters : Obligations.InitRestoresRegisters := by
  intro s hidle
  have hbusy : s.busy = false := by rw [State.busy, hidle]; rfl
  refine ⟨_, exec_init_next.2 ⟨hbusy, rfl⟩, ?_⟩
  have hpins := replay_initEvents s.cfg s.pins
  simp only [← bitBanged_iff, ← hasProgSel_iff]
  rw [emitAll_eq, initRegisters_pins, initRegisters_wire, hpins]
  refine ⟨rfl, rfl, fun hm => ?_, fun hm => ?_, rfl, rfl, rfl, rfl, rfl, rfl, rfl, rfl, rfl, ?_, rfl⟩
  · simp [hm]
  · simp [hm]
  · simp only [initEvents, List.append_assoc]

/-! ### `front` and `update_req` along a step -/

/-- The phases of a tick up to its ADVANCE (42_refresh_engine R150). -/
def Phase.beforeBoundary : Phase → Bool
  | .blankOn | .advance => true
  | p => p.blanked

theorem nextByte_keeps_handoff (s : State) :
    (nextByte s).front = s.front ∧ (nextByte s).updateReq = s.updateReq ∧ (nextByte s).rowCursor = s.rowCursor ∧
      (nextByte s).phase.beforeBoundary = false := by
  unfold nextByte
  split <;> exact ⟨rfl, rfl, rfl, rfl⟩

/-- A micro-step other than ADVANCE leaves the handoff alone, and stays on its side of the boundary test. -/
theorem microStep_keeps_handoff {s : State} (h : s.phase ≠ .advance) :
    (microStep s).front = s.front ∧ (microStep s).updateReq = s.updateReq ∧
      (microStep s).rowCursor = s.rowCursor ∧
      (microStep s).phase.beforeBoundary = s.phase.beforeBoundary := by
  unfold microStep
  cases hp : s.phase with
  | advance => exact absurd hp h
  | idle => exact ⟨rfl, rfl, rfl, congrArg _ hp⟩
  | rowOff | latchHi | rowOn | hold | blankOff | bitSetup | clkHi => exact ⟨rfl, rfl, rfl, rfl⟩
  | blankOn =>
    refine ⟨rfl, rfl, rfl, ?_⟩
    simp only [phaseBlankOn, goto_phase]
    split
    · rfl
    · split <;> rfl
  | latchLo =>
    simp only [phaseLatchLo]
    split <;> exact ⟨rfl, rfl, rfl, rfl⟩
  | load =>
    simp only [phaseLoad]
    split
    · exact ⟨rfl, rfl, rfl, rfl⟩
    · exact nextByte_keeps_handoff _
  | clkLo =>
    simp only [phaseClkLo]
    split
    · exact ⟨rfl, rfl, rfl, rfl⟩
    · exact nextByte_keeps_handoff _
  | done =>
    simp only [phaseDone]
    split <;> exact ⟨rfl, rfl, rfl, rfl⟩

theorem microStep_of_advance {s : State} (h : s.phase = .advance) : microStep s = phaseAdvance s := by
  rw [microStep, h]

/-- ADVANCE flips at a frame boundary with a request pending, and keeps the flag and the page at any other time
(41_handoff R123, R124, 42_refresh_engine R154). -/
theorem microStep_advance_handoff {s : State} (h : s.phase = .advance) :
    ((microStep s).front = s.front ∧ (microStep s).updateReq = s.updateReq) ∨
      (s.updateReq = true ∧ (microStep s).updateReq = false ∧ (microStep s).front = !s.front ∧
        (s.cfg.mux = true → (microStep s).rowCursor = 0)) := by
  rw [microStep_of_advance h, phaseAdvance, boundaryTest]
  split
  · next hflip =>
    rw [Bool.and_eq_true] at hflip
    obtain ⟨hboundary, hreq⟩ := hflip
    refine .inr ⟨hreq, rfl, rfl, fun hm => ?_⟩
    simpa [State.atBoundary, hm] using hboundary
  · exact .inl ⟨rfl, rfl⟩

/-- Of the commands, COMMIT alone sets the flag, and INIT alone puts the handoff at its reset values. -/
theorem exec_handoff {i : Instr} {s t : State} (h : exec i s = .next t) :
    (t.front = s.front ∧ t.updateReq = s.updateReq) ∨ (i = .commit ∧ t.front = s.front ∧ t.updateReq = true) ∨
      (i = .init ∧ t.front = false ∧ t.updateReq = false) := by
  cases i with
  | init =>
    obtain ⟨-, rfl⟩ := exec_init_next.1 h
    rw [emitAll_eq]
    exact .inr (.inr ⟨rfl, rfl, rfl⟩)
  | setgs row chan val =>
    obtain ⟨-, -, rfl⟩ := exec_setgs_next.1 h
    exact .inl ⟨rfl, rfl⟩
  | setallgs val =>
    obtain ⟨-, -, rfl⟩ := exec_setallgs_next.1 h
    exact .inl ⟨rfl, rfl⟩
  | getgs row chan =>
    obtain ⟨-, rfl⟩ := exec_getgs_next.1 h
    exact .inl ⟨rfl, rfl⟩
  | setdc chan val =>
    obtain ⟨-, -, rfl⟩ := exec_setdc_next.1 h
    exact .inl ⟨rfl, rfl⟩
  | setalldc val =>
    obtain ⟨-, -, rfl⟩ := exec_setalldc_next.1 h
    exact .inl ⟨rfl, rfl⟩
  | getdc chan =>
    obtain ⟨-, -, rfl⟩ := exec_getdc_next.1 h
    exact .inl ⟨rfl, rfl⟩
  | commit =>
    obtain rfl := exec_commit_next.1 h
    exact .inr (.inl ⟨rfl, rfl, rfl⟩)
  | pending =>
    obtain rfl := exec_pending_next.1 h
    exact .inl ⟨rfl, rfl⟩
  | gamma idx =>
    obtain ⟨-, rfl⟩ := exec_gamma_next.1 h
    exact .inl ⟨rfl, rfl⟩
  | clockindc =>
    obtain ⟨-, -, rfl⟩ := exec_clockindc_next.1 h
    rw [emitAll_eq, transmitAll_frame, emitAll_eq]
    exact .inl ⟨rfl, rfl⟩

/-- What a step does to `front` and `update_req`: nothing, the flip of an ADVANCE, or the write of `rst`, of INIT or of
COMMIT (41_handoff R123, R126). -/
theorem step_handoff {s t : State} (h : step s = .next t) :
    (t.front = s.front ∧ t.updateReq = s.updateReq) ∨
      (s.phase = .advance ∧ s.updateReq = true ∧ t.updateReq = false ∧ t.front = !s.front ∧
        (s.cfg.mux = true → t.rowCursor = 0)) ∨
      (∃ rest, s.inputs = .rst :: rest ∧ t.front = false ∧ t.updateReq = false) ∨
      (∃ rest, s.inputs = .cmd (encode .init) :: rest ∧ t.front = false ∧ t.updateReq = false) ∨
      (∃ rest, s.inputs = .cmd (encode .commit) :: rest ∧ t.front = s.front ∧ t.updateReq = true) := by
  obtain ⟨rest, rfl⟩ | ⟨rest, hin, rfl⟩ | ⟨rest, -, -, rfl⟩ | ⟨w, rest, i, u, hin, hw, hu, rfl⟩ := step_next_cases h
  · by_cases hp : s.phase = .advance
    · obtain hkeep | ⟨hreq, hclear, hflip, hwrap⟩ := microStep_advance_handoff (s := s.consume rest) hp
      · exact .inl hkeep
      · exact .inr (.inl ⟨hp, hreq, hclear, hflip, hwrap⟩)
    · obtain ⟨hfront, hreq, -, -⟩ := microStep_keeps_handoff (s := s.consume rest) hp
      exact .inl ⟨hfront, hreq⟩
  · exact .inr (.inr (.inl ⟨rest, hin, rfl, rfl⟩))
  · exact .inl ⟨rfl, rfl⟩
  · obtain rfl := encodeOfDecode w i hw
    obtain hkeep | ⟨rfl, hfront, hreq⟩ | ⟨rfl, hfront, hreq⟩ := exec_handoff hu
    · exact .inl hkeep
    · exact .inr (.inr (.inr (.inr ⟨rest, hin, hfront, hreq⟩)))
    · exact .inr (.inr (.inr (.inl ⟨rest, hin, hfront, hreq⟩)))

/-- Settles O39, over what a step can do to the handoff: COMMIT leaves the page. -/
theorem frontChangesOnlyAtFrameBoundary : Obligations.FrontChangesOnlyAtFrameBoundary := by
  intro s t hstep hne
  obtain ⟨hfront, -⟩ | hflip | ⟨rest, hin, hfront, -⟩ | ⟨rest, hin, hfront, -⟩ | ⟨-, -, hfront, -⟩ := step_handoff hstep
  · exact absurd hfront hne
  · exact .inl hflip
  · exact .inr (.inl ⟨rest, hin, hfront⟩)
  · exact .inr (.inr ⟨rest, hin, hfront⟩)
  · exact absurd hfront hne

/-- Settles O40, over what a step can do to the handoff. -/
theorem updateRequestLifecycle : Obligations.UpdateRequestLifecycle := by
  intro s t hstep
  obtain ⟨-, hreq⟩ | ⟨hp, -, hclear, hflip, -⟩ | ⟨rest, hin, -, hclear⟩ | ⟨rest, hin, -, hclear⟩ |
    ⟨rest, hin, -, hset⟩ := step_handoff hstep
  · exact ⟨by simp +contextual [hreq], by simp +contextual [hreq]⟩
  · exact ⟨by simp [hclear], fun _ _ => .inl ⟨hp, hflip⟩⟩
  · exact ⟨by simp [hclear], fun _ _ => .inr (.inl ⟨rest, hin⟩)⟩
  · exact ⟨by simp [hclear], fun _ _ => .inr (.inr ⟨rest, hin⟩)⟩
  · exact ⟨fun _ _ => ⟨rest, hin⟩, by simp [hset]⟩

end Sys2Proof.Machine
end

section
/-! SUPPORT. WAITCOMMIT: the events between two polls, how many ticks a pending commit still waits for, and that a poll
is seen by nothing but the host (spec 30_encoding R85, 41_handoff R127, 70_reset_and_hazards R217). -/

namespace Sys2Proof.Machine

/-! ### Events one after the other -/

theorem presentAll_cons_next {e : Input} {es : List Input} {s t : State} :
    s.presentAll (e :: es) = .next t ↔ ∃ u, s.present e = .next u ∧ u.presentAll es = .next t := by
  rw [State.presentAll]
  cases s.present e <;> simp

theorem presentAll_append_next {es fs : List Input} {s t : State} :
    s.presentAll (es ++ fs) = .next t ↔ ∃ u, s.presentAll es = .next u ∧ u.presentAll fs = .next t := by
  induction es generalizing s with
  | nil => simp [State.presentAll]
  | cons e es ih =>
    simp only [List.cons_append, presentAll_cons_next, ih]
    exact ⟨fun ⟨v, hv, u, hu, ht⟩ => ⟨u, ⟨v, hv, hu⟩, ht⟩, fun ⟨u, ⟨v, hv, hu⟩, ht⟩ => ⟨v, hv, u, hu, ht⟩⟩

theorem present_quiet (s : State) : s.present .quiet = .next (microStep (s.consume s.inputs)) := rfl

theorem present_tick_next {s t : State} :
    s.present .tick = .next t ↔ s.phase = .idle ∧ t = goto .blankOn (s.consume s.inputs) := takeTick_next

theorem present_inv {e : Input} {s t : State} (hinv : s.Inv) (h : s.present e = .next t) : t.Inv :=
  invariantKept { s with inputs := e :: s.inputs } t hinv h

/-! ### The ticks a pending commit still waits for -/

/-- How many ticks, after one in progress that has not come to its ADVANCE, up to the next frame boundary (41_handoff
R124). -/
def State.ticksToBoundary (s : State) : Nat := s.cfg.nRows - s.rowCursor - s.phase.beforeBoundary.toNat

/-- At ADVANCE, short of a frame boundary: the cursor takes the place of the tick in progress. -/
theorem phaseAdvance_ticksToBoundary {s : State} (hp : s.phase = .advance) (hcursor : s.rowCursor < s.cfg.nRows)
    (hboundary : (advanceCursor s).atBoundary = false) : (phaseAdvance s).ticksToBoundary = s.ticksToBoundary := by
  have hm : s.cfg.mux = true := by simpa using (Bool.or_eq_false_iff.1 hboundary).1
  have hrow : (s.rowCursor + 1) % s.cfg.multiplexRows ≠ 0 := by simpa [State.atBoundary, hm] using hboundary
  have hrows : s.cfg.nRows = s.cfg.multiplexRows := if_pos hm
  rw [hrows] at hcursor
  have hnext : (s.rowCursor + 1) % s.cfg.multiplexRows = s.rowCursor + 1 := by
    refine Nat.mod_eq_of_lt (lt_of_le_of_ne hcursor fun hlast => hrow ?_)
    rw [hlast, Nat.mod_self]
  rw [phaseAdvance, boundaryTest, hboundary, Bool.false_and, if_neg Bool.false_ne_true]
  simp [State.ticksToBoundary, hm, hrows, hnext, hp, Phase.beforeBoundary, Phase.blanked, Nat.sub_sub]

/-- While the request stays pending, a micro-step brings no boundary nearer but by the tick it belongs to. -/
theorem microStep_ticksToBoundary {s : State} (hcursor : s.rowCursor < s.cfg.nRows)
    (h : (microStep s).updateReq = true) :
    s.updateReq = true ∧ (microStep s).ticksToBoundary = s.ticksToBoundary := by
  by_cases hp : s.phase = .advance
  · rw [microStep_of_advance hp] at h ⊢
    have hflag : (!(advanceCursor s).atBoundary && s.updateReq) = true := by
      rw [← h, phaseAdvance, boundaryTest_eq]
      rfl
    rw [Bool.and_eq_true, Bool.not_eq_true'] at hflag
    exact ⟨hflag.2, phaseAdvance_ticksToBoundary hp hcursor hflag.1⟩
  · obtain ⟨-, hreq, hrow, hside⟩ := microStep_keeps_handoff hp
    obtain ⟨hcfg, -⟩ := microStep_outside s
    rw [State.ticksToBoundary, hcfg, hrow, hside]
    exact ⟨hreq ▸ h, rfl⟩

/-- Each tick that arrives while the request stays pending is one of those the boundary was away. -/
theorem present_ticksToBoundary {e : Input} {s t : State} (he : e = .tick ∨ e = .quiet) (hinv : s.Inv)
    (h : s.present e = .next t) (hreq : t.updateReq = true) :
    s.updateReq = true ∧ t.ticksToBoundary + [e].count .tick = s.ticksToBoundary := by
  obtain ⟨-, ⟨hcursor, -⟩, -⟩ := hinv
  obtain rfl | rfl := he
  · obtain ⟨hidle, rfl⟩ := present_tick_next.1 h
    refine ⟨hreq, ?_⟩
    simp [State.ticksToBoundary, hidle, Phase.beforeBoundary, Phase.blanked]
    omega
  · rw [present_quiet] at h
    injection h with h
    subst h
    exact microStep_ticksToBoundary (s := s.consume s.inputs) hcursor hreq

theorem presentAll_ticksToBoundary {es : List Input} {s t : State} (hes : ∀ e ∈ es, e = .tick ∨ e = .quiet)
    (hinv : s.Inv) (h : s.presentAll es = .next t) :
    t.Inv ∧ (t.updateReq = true → t.ticksToBoundary + es.count .tick = s.ticksToBoundary ∧ s.updateReq = true) := by
  induction es generalizing s with
  | nil =>
    obtain rfl : s = t := by simpa [State.presentAll] using h
    exact ⟨hinv, fun hreq => ⟨rfl, hreq⟩⟩
  | cons e es ih =>
    rw [List.forall_mem_cons] at hes
    obtain ⟨u, hu, ht⟩ := presentAll_cons_next.1 h
    obtain ⟨hinv', hrest⟩ := ih hes.2 (present_inv hinv hu) ht
    refine ⟨hinv', fun hreq => ?_⟩
    obtain ⟨hcount, hreq⟩ := hrest hreq
    obtain ⟨hreq, hfirst⟩ := present_ticksToBoundary hes.1 hinv hu hreq
    rw [← List.singleton_append, List.count_append]
    exact ⟨by omega, hreq⟩

/-- Once as many ticks have arrived and ended as there are rows, a frame boundary has answered the request (41_handoff
R127). -/
theorem presentAll_clears_request {es : List Input} {s t : State} (hes : ∀ e ∈ es, e = .tick ∨ e = .quiet)
    (hinv : s.Inv) (h : s.presentAll es = .next t) (hidle : t.phase = .idle) (hticks : s.cfg.nRows ≤ es.count .tick) :
    t.updateReq = false := by
  obtain ⟨⟨-, ⟨hcursor, -⟩, -⟩, hpending⟩ := presentAll_ticksToBoundary hes hinv h
  refine Bool.eq_false_iff.2 fun hreq => ?_
  obtain ⟨hcount, -⟩ := hpending hreq
  have hnext : 1 ≤ t.ticksToBoundary := by
    have hrows := Nat.sub_pos_of_lt hcursor
    rw [State.ticksToBoundary, hidle]
    exact hrows
  have hfar : s.ticksToBoundary ≤ s.cfg.nRows := (Nat.sub_le _ _).trans (Nat.sub_le _ _)
  omega

/-! ### What a poll leaves -/

/-- `s` after a read that answered `r`: `resp` and `cmd_done` alone. -/
def State.answering (r : BitVec 16) (d : Bool) (s : State) : State := { s with resp := r, cmdDone := d }

theorem microStep_answering (r : BitVec 16) (d : Bool) (s : State) :
    microStep (s.answering r d) = (microStep s).answering r d := by
  have hphase : (s.answering r d).phase = s.phase := rfl
  unfold microStep
  rw [hphase]
  cases s.phase with
  | idle | blankOn | rowOff | latchHi | rowOn | hold | blankOff | bitSetup | clkHi => rfl
  | advance => simp only [phaseAdvance, boundaryTest_eq]; rfl
  | latchLo =>
    simp only [phaseLatchLo]
    rw [apply_ite (State.answering r d)]
    rfl
  | load =>
    simp only [phaseLoad, nextByte_eq]
    rw [apply_ite (State.answering r d)]
    rfl
  | clkLo =>
    simp only [phaseClkLo, nextByte_eq]
    rw [apply_ite (State.answering r d)]
    rfl
  | done =>
    simp only [phaseDone]
    rw [apply_ite returnToIdle, apply_ite returnToIdle, apply_ite (State.answering r d)]
    rfl

/-- A poll is seen by no tick and by no micro-step. -/
theorem present_answering {e : Input} {s t : State} (he : e = .tick ∨ e = .quiet) (h : s.present e = .next t)
    (r : BitVec 16) (d : Bool) : (s.answering r d).present e = .next (t.answering r false) := by
  obtain rfl | rfl := he
  · obtain ⟨hidle, rfl⟩ := present_tick_next.1 h
    exact present_tick_next.2 ⟨hidle, rfl⟩
  · rw [present_quiet] at h
    injection h with h
    subst h
    exact congrArg Host.Outcome.next (microStep_answering r false (s.consume s.inputs))

theorem presentAll_answering {es : List Input} {s t : State} (hes : ∀ e ∈ es, e = .tick ∨ e = .quiet)
    (h : s.presentAll es = .next t) (r : BitVec 16) (d : Bool) :
    ∃ d', (s.answering r d).presentAll es = .next (t.answering r d') := by
  induction es generalizing s d with
  | nil =>
    obtain rfl : s = t := by simpa [State.presentAll] using h
    exact ⟨d, rfl⟩
  | cons e es ih =>
    rw [List.forall_mem_cons] at hes
    obtain ⟨u, hu, ht⟩ := presentAll_cons_next.1 h
    obtain ⟨d', hd'⟩ := ih hes.2 ht false
    exact ⟨d', presentAll_cons_next.2 ⟨_, present_answering hes.1 hu r d, hd'⟩⟩

/-! ### The loop -/

theorem present_pending_clear {s : State} (h : s.updateReq = false) :
    s.present (.cmd (encode .pending)) = .next (s.answering 0 true) := by
  rw [present_pending, h]
  rfl

theorem present_pending_set {s : State} (h : s.updateReq = true) :
    s.present (.cmd (encode .pending)) = .next (s.answering 1 true) := by
  rw [present_pending, h]
  rfl

/-- A poll with no commit pending ends the loop. -/
theorem waitCommit_clear (gaps : List (List Input)) {s : State} (h : s.updateReq = false) :
    waitCommit gaps s = .returned (s.answering 0 true) := by
  cases gaps with
  | nil => rw [waitCommit, present_pending_clear h]; rfl
  | cons gap gaps => rw [waitCommit, present_pending_clear h]; rfl

theorem waitCommit_nil_set {s : State} (h : s.updateReq = true) :
    waitCommit [] s = .polling (s.answering 1 true) := by
  rw [waitCommit, present_pending_set h]
  rfl

/-- A poll with a commit pending is followed by the next gap and the rest of the loop. -/
theorem waitCommit_cons_set {gap : List Input} (gaps : List (List Input)) {s t : State} (h : s.updateReq = true)
    (hgap : (s.answering 1 true).presentAll gap = .next t) : waitCommit (gap :: gaps) s = waitCommit gaps t := by
  have hresp : (s.answering 1 true).resp ≠ 0 := (by decide : (1 : BitVec 16) ≠ 0)
  rw [waitCommit, present_pending_set h]
  dsimp only
  rw [if_neg hresp, hgap]

/-- WAITCOMMIT returns when the ticks between its polls would have ended with the request answered. -/
theorem waitCommit_returns {gaps : List (List Input)} {s u : State}
    (hes : ∀ e ∈ gaps.flatten, e = .tick ∨ e = .quiet) (h : s.presentAll gaps.flatten = .next u)
    (hclear : u.updateReq = false) : ∃ t, waitCommit gaps s = .returned t ∧ t.resp = 0 ∧ t.updateReq = false := by
  induction gaps generalizing s u with
  | nil =>
    obtain rfl : s = u := by simpa [State.presentAll] using h
    exact ⟨_, waitCommit_clear [] hclear, rfl, hclear⟩
  | cons gap gaps ih =>
    cases hreq : s.updateReq with
    | false => exact ⟨_, waitCommit_clear _ hreq, rfl, hreq⟩
    | true =>
      rw [List.flatten_cons, List.forall_mem_append] at hes
      rw [List.flatten_cons] at h
      obtain ⟨v, hv, hu⟩ := presentAll_append_next.1 h
      obtain ⟨d, hgap⟩ := presentAll_answering hes.1 hv 1 true
      obtain ⟨d', hrest⟩ := presentAll_answering hes.2 hu 1 d
      rw [waitCommit_cons_set gaps hreq hgap]
      exact ih hes.2 hrest hclear

/-- In IDLE quiet steps change neither the phase nor the request. -/
theorem presentAll_quiet_idle {es : List Input} {s : State} (hes : ∀ e ∈ es, e = .quiet) (hidle : s.phase = .idle) :
    ∃ t, s.presentAll es = .next t ∧ t.phase = .idle ∧ t.updateReq = s.updateReq := by
  induction es generalizing s with
  | nil => exact ⟨s, rfl, hidle, rfl⟩
  | cons e es ih =>
    rw [List.forall_mem_cons] at hes
    obtain ⟨rfl, hes⟩ := hes
    have hquiet : s.present .quiet = .next (s.consume s.inputs) :=
      congrArg Host.Outcome.next (microSteps_idle 1 (s.consume s.inputs) hidle)
    obtain ⟨t, ht, hrest⟩ := ih hes (s := s.consume s.inputs) hidle
    exact ⟨t, presentAll_cons_next.2 ⟨_, hquiet, ht⟩, hrest⟩

/-- While no tick arrives, WAITCOMMIT polls on (70_reset_and_hazards R217). -/
theorem waitCommit_polls_on {gaps : List (List Input)} {s : State} (hes : ∀ e ∈ gaps.flatten, e = .quiet)
    (hidle : s.phase = .idle) (hreq : s.updateReq = true) :
    ∃ t, waitCommit gaps s = .polling t ∧ t.resp = 1 ∧ t.updateReq = true := by
  induction gaps generalizing s with
  | nil => exact ⟨_, waitCommit_nil_set hreq, rfl, hreq⟩
  | cons gap gaps ih =>
    rw [List.flatten_cons, List.forall_mem_append] at hes
    obtain ⟨t, hgap, hidle', hreq'⟩ := presentAll_quiet_idle hes.1 (s := s.answering 1 true) hidle
    rw [waitCommit_cons_set gaps hreq hgap]
    exact ih hes.2 hidle' (hreq'.trans hreq)

/-- Settles O58: the polls do not disturb the ticks, as many ticks as there are rows bring a frame boundary, and in
IDLE nothing but a tick moves the block. -/
theorem waitCommitReturns : Obligations.WaitCommitReturns := by
  intro s gaps hinv
  refine ⟨fun hreq => ⟨_, waitCommit_clear gaps hreq, rfl, hreq⟩, fun u hes h hidle hticks => ?_,
    fun hes hidle hreq => waitCommit_polls_on hes hidle hreq⟩
  exact waitCommit_returns hes h (presentAll_clears_request hes hinv h hidle hticks)

end Sys2Proof.Machine
end

section
/-! SUPPORT. At which events a step goes on (spec 41_handoff R125, 70_reset_and_hazards R215 to R221). -/

namespace Sys2Proof.Machine

theorem mayIssue_iff {s : State} {i : Instr} :
    mayIssue s i = true ↔ i.available s.cfg = true ∧ i.inRange s.cfg = true ∧
      (writesBackPage i = true → s.updateReq = false) ∧ (needsIdle i = true → s.busy = false) := by
  simp [mayIssue, Instr.wellFormed, and_assoc, imp_iff_not_or]

/-- A command completes exactly when the host may issue it. -/
theorem exec_goesOn_iff {i : Instr} {s : State} : (∃ t, exec i s = .next t) ↔ mayIssue s i = true := by
  rw [mayIssue_iff]
  cases i with
  | init | clockindc =>
    simp [exec_init_next, exec_clockindc_next, Instr.available, Instr.inRange, writesBackPage, needsIdle]
  | setgs row chan val | setallgs val =>
    simp [exec_setgs_next, exec_setallgs_next, Instr.available, writesBackPage, needsIdle]
  | getgs row chan | setdc chan val | setalldc val | getdc chan =>
    simp [exec_getgs_next, exec_setdc_next, exec_setalldc_next, exec_getdc_next, Instr.available, writesBackPage,
      needsIdle]
  | commit | pending | gamma idx =>
    simp [exec_commit_next, exec_pending_next, exec_gamma_next, Instr.available, Instr.inRange, writesBackPage,
      needsIdle]

theorem takeTick_goesOn_iff {s : State} : (∃ t, takeTick s = .next t) ↔ mayHappen s .tick = true := by
  simp [takeTick_next, mayHappen, State.busy]

/-- A command word is performed to its end exactly when it decodes and its command may be issued. -/
theorem runCommand_goesOn_iff {w : Word} {s : State} :
    (∃ t, runCommand w s = .next t) ↔ mayHappen s (.cmd w) = true := by
  cases hw : decode w with
  | error why => simp [runCommand_next, mayHappen, hw]
  | ok i => simp [runCommand_next, mayHappen, hw, ← exec_goesOn_iff]

/-- Settles O30, event by event: micro-steps and `rst` always go on; the premises do not look at the events that are
still to come, nor at `cmd_done`. -/
theorem stepGoesOnExactlyWhenEventMayHappen : Obligations.StepGoesOnExactlyWhenEventMayHappen := by
  intro s
  rw [step.eq_def, State.nextMayHappen]
  match s.inputs with
  | [] => exact ⟨fun _ => rfl, fun _ => ⟨_, rfl⟩⟩
  | .quiet :: rest => exact ⟨fun _ => rfl, fun _ => ⟨_, rfl⟩⟩
  | .rst :: rest => exact ⟨fun _ => rfl, fun _ => ⟨_, rfl⟩⟩
  | .tick :: rest => exact takeTick_goesOn_iff (s := s.consume rest)
  | .cmd w :: rest => exact runCommand_goesOn_iff (s := s.consume rest)

end Sys2Proof.Machine
end

section
/-! SUPPORT. The host's half of the block: what the commands that may meet a tick read and write, and that the sequencer
leaves it alone but for the flip at ADVANCE (spec 42_refresh_engine R157). -/

namespace Sys2Proof.Machine

/-! ### The commands see the host's half alone -/

/-- `s'` differs from `s` in nothing that a command other than INIT and CLOCKINDC reads or writes. -/
def State.SameToHost (s s' : State) : Prop :=
  s' = { s' with
    cfg := s.cfg, gs := s.gs, dc := s.dc, front := s.front, updateReq := s.updateReq, resp := s.resp, epoch := s.epoch }

/-- `s` with what those commands write as it stands in `h`. -/
def State.withHost (h s : State) : State :=
  { s with gs := h.gs, dc := h.dc, resp := h.resp, updateReq := h.updateReq }

/-- A command other than INIT and CLOCKINDC does the same in every state that is the same to the host. -/
theorem exec_sameToHost {i : Instr} {s s' t : State} (hi : needsIdle i = false) (hsame : s.SameToHost s')
    (h : exec i s = .next t) : exec i s' = .next (t.withHost s') := by
  rw [hsame]
  cases i with
  | init | clockindc => cases hi
  | setgs row chan val =>
    obtain ⟨hr, hu, rfl⟩ := exec_setgs_next.1 h
    exact exec_setgs_next.2 ⟨hr, hu, rfl⟩
  | setallgs val =>
    obtain ⟨hr, hu, rfl⟩ := exec_setallgs_next.1 h
    exact exec_setallgs_next.2 ⟨hr, hu, rfl⟩
  | getgs row chan =>
    obtain ⟨hr, rfl⟩ := exec_getgs_next.1 h
    exact exec_getgs_next.2 ⟨hr, rfl⟩
  | setdc chan val =>
    obtain ⟨ha, hr, rfl⟩ := exec_setdc_next.1 h
    exact exec_setdc_next.2 ⟨ha, hr, rfl⟩
  | setalldc val =>
    obtain ⟨ha, hr, rfl⟩ := exec_setalldc_next.1 h
    exact exec_setalldc_next.2 ⟨ha, hr, rfl⟩
  | getdc chan =>
    obtain ⟨ha, hr, rfl⟩ := exec_getdc_next.1 h
    exact exec_getdc_next.2 ⟨ha, hr, rfl⟩
  | commit =>
    obtain rfl := exec_commit_next.1 h
    rfl
  | pending =>
    obtain rfl := exec_pending_next.1 h
    rfl
  | gamma idx =>
    obtain ⟨ha, rfl⟩ := exec_gamma_next.1 h
    exact exec_gamma_next.2 ⟨ha, rfl⟩

/-- Such a command leaves the engine's half. -/
theorem exec_eq_withHost {i : Instr} {s t : State} (hi : needsIdle i = false) (h : exec i s = .next t) :
    t = t.withHost s := by
  have h' := exec_sameToHost hi (rfl : s.SameToHost s) h
  rw [h] at h'
  injection h'

/-! ### The sequencer leaves the host's half alone -/

/-- No flip is due: not the ADVANCE, or no commit is pending. -/
theorem microStep_sameToHost {s : State} (h : s.phase = .advance → s.updateReq = false) :
    s.SameToHost (microStep s) := by
  obtain ⟨hcfg, -, -, hepoch⟩ := microStep_outside s
  obtain ⟨hgs, hdc, hresp, -⟩ := microStep_drives s
  have hhandoff : (microStep s).front = s.front ∧ (microStep s).updateReq = s.updateReq := by
    by_cases hp : s.phase = .advance
    · obtain hkeep | ⟨hreq, -⟩ := microStep_advance_handoff hp
      · exact hkeep
      · rw [h hp] at hreq
        cases hreq
    · obtain ⟨hfront, hreq, -⟩ := microStep_keeps_handoff hp
      exact ⟨hfront, hreq⟩
  obtain ⟨hfront, hreq⟩ := hhandoff
  rw [State.SameToHost, ← hcfg, ← hgs, ← hdc, ← hfront, ← hreq, ← hresp, ← hepoch]

theorem nextByte_withHost (h s : State) : nextByte (h.withHost s) = h.withHost (nextByte s) := by
  rw [nextByte_eq, nextByte_eq]
  rfl

/-- The boundary test with no commit pending. -/
theorem boundaryTest_of_clear {s : State} (h : s.updateReq = false) : boundaryTest s = s := by
  rw [boundaryTest, h, Bool.and_false, if_neg Bool.false_ne_true]

/-- What the host wrote is seen by a micro-step only in a LOAD, which reads the front page, and at ADVANCE. -/
theorem microStep_withHost {h s : State} (hload : (h.withHost s).loadByte = s.loadByte)
    (hadv : s.phase = .advance → s.updateReq = false ∧ h.updateReq = false) :
    microStep (h.withHost s) = h.withHost (microStep s) := by
  have hphase : (h.withHost s).phase = s.phase := rfl
  unfold microStep
  rw [hphase]
  cases hp : s.phase with
  | idle | blankOn | rowOff | latchHi | rowOn | hold | blankOff | bitSetup | clkHi => rfl
  | latchLo =>
    simp only [phaseLatchLo]
    rw [apply_ite h.withHost]
    rfl
  | advance =>
    obtain ⟨hclear, hclear'⟩ := hadv hp
    have hs : (advanceCursor s).updateReq = false := hclear
    have hh : (advanceCursor (h.withHost s)).updateReq = false := hclear'
    simp only [phaseAdvance]
    rw [boundaryTest_of_clear hs, boundaryTest_of_clear hh]
    rfl
  | load =>
    simp only [phaseLoad]
    rw [hload, apply_ite h.withHost, ← nextByte_withHost]
    rfl
  | clkLo =>
    simp only [phaseClkLo]
    rw [apply_ite h.withHost, ← nextByte_withHost]
    rfl
  | done =>
    simp only [phaseDone]
    rw [apply_ite returnToIdle, apply_ite returnToIdle, apply_ite h.withHost]
    rfl

/-- No command changes the byte LOAD reads: it stands in the front page (20_memory R53). -/
theorem exec_loadByte {i : Instr} {s t : State} (hinv : s.Inv) (hi : needsIdle i = false) (h : exec i s = .next t) :
    (t.withHost s).loadByte = s.loadByte := by
  obtain ⟨hvalid, ⟨hcursor, -⟩, ⟨-, hbyte, -⟩, -⟩ := hinv
  have hrow : s.sendRow < 8 := by
    rw [State.sendRow]
    split
    · exact hcursor.trans_le (nRows_le hvalid)
    · decide
  have hread := hostNeverWritesFrontPage i s t hvalid h s.sendRow hrow s.byteIdx (hbyte.trans (gsLen_lt hvalid))
  rwa [exec_eq_withHost hi h] at hread

/-- A command that may meet a tick commutes with a micro-step at which no flip can be due. -/
theorem exec_microStep {i : Instr} {s t : State} (hinv : s.Inv) (hi : needsIdle i = false)
    (hadv : s.phase = .advance → s.updateReq = false ∧ i ≠ .commit) (h : exec i s = .next t) :
    exec i (microStep s) = .next (microStep t) := by
  have hstep : microStep t = t.withHost (microStep s) := by
    rw [exec_eq_withHost hi h]
    refine microStep_withHost (exec_loadByte hinv hi h) fun hp => ?_
    obtain ⟨hclear, hcommit⟩ := hadv hp
    obtain ⟨-, hreq⟩ | ⟨rfl, -⟩ | ⟨rfl, -⟩ := exec_handoff h
    · exact ⟨hclear, hreq.trans hclear⟩
    · exact absurd rfl hcommit
    · cases hi
  rw [hstep]
  exact exec_sameToHost hi (microStep_sameToHost fun hp => (hadv hp).1) h

/-- Settles O55: the engine leaves all that such a command reads, and reads nothing that it writes but the request at
ADVANCE. -/
theorem hostCommandsCommuteWithMicroSteps : Obligations.HostCommandsCommuteWithMicroSteps := by
  intro i s t hinv hadv hinit hclock h
  have hi : needsIdle i = false := by
    cases i with
    | init => exact absurd rfl hinit
    | clockindc => exact absurd rfl hclock
    | _ => rfl
  exact exec_microStep hinv hi hadv h

end Sys2Proof.Machine
end

section
/-! SUPPORT. Every run of `step` as a run of the operation level: a command that lands in a tick is performed before the
tick when it lands up to its ADVANCE, and after the tick when it lands later (spec 42_refresh_engine R157). -/

namespace Sys2Proof.Machine

/-! ### The block apart from the events still to come and `cmd_done` (logs 2 and 14) -/

theorem transmit_consume (b : Byte) (es : List Input) (s : State) :
    transmit b (s.consume es) = (transmit b s).consume es := by
  unfold transmit
  rw [apply_ite (State.consume · es)]
  rfl

theorem transmitAll_consume (bs : List Byte) (es : List Input) (s : State) :
    transmitAll bs (s.consume es) = (transmitAll bs s).consume es := by
  induction bs generalizing s with
  | nil => rfl
  | cons b bs ih => rw [transmitAll_cons, transmitAll_cons, transmit_consume, ih]

theorem emitAll_consume (ws : List WireEvent) (es : List Input) (s : State) :
    emitAll ws (s.consume es) = (emitAll ws s).consume es := by
  rw [emitAll_eq, emitAll_eq]
  rfl

theorem microStep_consume (es : List Input) (s : State) : microStep (s.consume es) = (microStep s).consume es := by
  have hconsume : s.consume es = (s.withInputs es).answering s.resp false := rfl
  rw [hconsume, microStep_answering, microStep_withInputs, ← (microStep_drives s).resp]
  rfl

theorem microSteps_consume (n : Nat) (es : List Input) (s : State) :
    microSteps n (s.consume es) = (microSteps n s).consume es := by
  induction n generalizing s with
  | zero => rfl
  | succ n ih => rw [microSteps_succ, microStep_consume, ih, microSteps_succ]

theorem exec_consume {i : Instr} {s t : State} (es : List Input) (h : exec i s = .next t) :
    exec i (s.consume es) = .next (t.consume es) := by
  cases hi : needsIdle i with
  | false =>
    rw [exec_sameToHost (s' := s.consume es) hi rfl h, exec_eq_withHost hi h]
    rfl
  | true =>
    obtain rfl | rfl : i = .init ∨ i = .clockindc := by cases i <;> simp [needsIdle] at hi ⊢
    · obtain ⟨hb, rfl⟩ := exec_init_next.1 h
      exact exec_init_next.2 ⟨hb, emitAll_consume _ es (initRegisters s)⟩
    · obtain ⟨ha, hb, rfl⟩ := exec_clockindc_next.1 h
      refine exec_clockindc_next.2 ⟨ha, hb, ?_⟩
      rw [emitAll_consume, transmitAll_consume, emitAll_consume]
      rfl

/-! ### What the operation level reaches -/

/-- A run of the operation level from `s` ends at `u`, the events still to come and `cmd_done` apart. -/
def State.Reaches (s u : State) : Prop :=
  ∃ ops v, runOperations ops s = .next v ∧ v.consume [] = u.consume []

theorem runOperations_concat {ops : List Operation} {o : Operation} {s u v : State}
    (hops : runOperations ops s = .next u) (ho : operationStep o u = .next v) :
    runOperations (ops ++ [o]) s = .next v := by
  induction ops generalizing s with
  | nil =>
    obtain rfl : s = u := by simpa [runOperations] using hops
    exact runOperations_cons_next.2 ⟨v, ho, rfl⟩
  | cons o' ops ih =>
    obtain ⟨w, hw, hrest⟩ := runOperations_cons_next.1 hops
    exact runOperations_cons_next.2 ⟨w, hw, ih hrest⟩

namespace State.Reaches

variable {s u t : State}

theorem refl (s : State) : s.Reaches s := ⟨[], s, rfl, rfl⟩

theorem congr (h : s.Reaches u) (htu : t.consume [] = u.consume []) : s.Reaches t := by
  obtain ⟨ops, v, hops, hv⟩ := h
  exact ⟨ops, v, hops, hv.trans htu.symm⟩

theorem rst (h : s.Reaches u) : s.Reaches (takeRst u) := by
  obtain ⟨ops, v, hops, hv⟩ := h
  have htake : (takeRst (v.consume [])).consume [] = (takeRst (u.consume [])).consume [] := by rw [hv]
  exact ⟨ops ++ [.rst], takeRst (v.consume v.inputs), runOperations_concat hops rfl, htake⟩

/-- One whole tick. -/
theorem tick (h : s.Reaches u) (hu : u.AtRest) : s.Reaches (tickOperation u) := by
  obtain ⟨ops, v, hops, hv⟩ := h
  have hrest : (v.consume []).AtRest := hv ▸ hu.consume
  have hstep : operationStep .tick v = .next (tickOperation (v.consume v.inputs)) :=
    operationStep_next.2 (.inr (.inl ⟨rfl, hrest.idle, rfl⟩))
  refine ⟨ops ++ [.tick], _, runOperations_concat hops hstep, ?_⟩
  rw [← microSteps_tick (s := v.consume v.inputs) hrest.consume, ← microSteps_tick hu, ← microSteps_consume,
    ← microSteps_consume]
  exact congrArg (fun x => microSteps (tickLength x) (goto .blankOn x)) hv

/-- One command. -/
theorem cmd {w : Word} {i : Instr} (h : s.Reaches u) (hw : decode w = .ok i) (hexec : exec i u = .next t) :
    s.Reaches t := by
  obtain ⟨ops, v, hops, hv⟩ := h
  have hbare : exec i (v.consume []) = .next (t.consume []) := by
    rw [hv]
    exact exec_consume [] hexec
  have hexec' : exec i (v.consume v.inputs) = .next (t.consume v.inputs) :=
    exec_consume (s := v.consume []) (t := t.consume []) v.inputs hbare
  have hstep : operationStep (.cmd w) v = .next { t.consume v.inputs with cmdDone := true } :=
    runCommand_next.2 ⟨i, _, hw, hexec', rfl⟩
  exact ⟨ops ++ [.cmd w], { t.consume v.inputs with cmdDone := true }, runOperations_concat hops hstep, rfl⟩

end State.Reaches

/-! ### The micro-steps up to ADVANCE, and those after it -/

theorem microSteps_inv {s : State} (n : Nat) (h : s.Inv) : (microSteps n s).Inv := by
  induction n generalizing s with
  | zero => exact h
  | succ n ih => exact ih (microStep_inv h)

/-- No micro-step leads back from behind the boundary test. -/
theorem microStep_beforeBoundary {s : State} (h : (microStep s).phase.beforeBoundary = true) :
    s.phase.beforeBoundary = true ∧ s.phase ≠ .advance := by
  by_cases hp : s.phase = .advance
  · rw [microStep_of_advance hp] at h
    cases h
  · obtain ⟨-, -, -, hside⟩ := microStep_keeps_handoff hp
    exact ⟨hside ▸ h, hp⟩

theorem microStep_afterBoundary {s : State} (h : s.phase.beforeBoundary = false) :
    (microStep s).phase.beforeBoundary = false :=
  Bool.eq_false_iff.2 fun h' => Bool.eq_false_iff.1 h (microStep_beforeBoundary h').1

theorem microSteps_succ_last (n : Nat) (s : State) : microSteps (n + 1) s = microStep (microSteps n s) :=
  microSteps_add n 1 s

/-- A command that goes on after a micro-step, no flip due, could have been performed before it. -/
theorem exec_microStep_back {i : Instr} {s t : State} (hinv : s.Inv) (hi : needsIdle i = false)
    (hp : s.phase ≠ .advance) (h : exec i (microStep s) = .next t) : ∃ u, exec i s = .next u ∧ t = microStep u := by
  obtain ⟨hcfg, -⟩ := microStep_outside s
  obtain ⟨-, hreq, -⟩ := microStep_keeps_handoff hp
  have hissue := mayIssue_iff.1 (exec_goesOn_iff.1 ⟨t, h⟩)
  rw [hcfg, hreq] at hissue
  obtain ⟨havail, hrange, hback, -⟩ := hissue
  obtain ⟨u, hu⟩ := exec_goesOn_iff.2 (mayIssue_iff.2 ⟨havail, hrange, hback, by simp [hi]⟩)
  have hu' := exec_microStep hinv hi (fun hp' => absurd hp' hp) hu
  rw [h] at hu'
  injection hu' with hu'
  exact ⟨u, hu, hu'⟩

/-- A command that lands in a tick up to its ADVANCE could have been performed at the tick's start. -/
theorem exec_microSteps_back {i : Instr} {s t : State} (n : Nat) (hinv : s.Inv) (hi : needsIdle i = false)
    (hside : (microSteps n s).phase.beforeBoundary = true) (h : exec i (microSteps n s) = .next t) :
    ∃ u, exec i s = .next u ∧ t = microSteps n u := by
  induction n generalizing t with
  | zero => exact ⟨t, h, rfl⟩
  | succ n ih =>
    rw [microSteps_succ_last] at hside h
    obtain ⟨hside, hp⟩ := microStep_beforeBoundary hside
    obtain ⟨v, hv, rfl⟩ := exec_microStep_back (microSteps_inv n hinv) hi hp h
    obtain ⟨u, hu, rfl⟩ := ih hside hv
    exact ⟨u, hu, (microSteps_succ_last n u).symm⟩

/-- A command that lands in a tick after its ADVANCE, or in IDLE, could as well be performed at the tick's end. -/
theorem exec_microSteps {i : Instr} {s t : State} (n : Nat) (hinv : s.Inv) (hi : needsIdle i = false)
    (hside : s.phase.beforeBoundary = false) (h : exec i s = .next t) :
    exec i (microSteps n s) = .next (microSteps n t) := by
  induction n generalizing s t with
  | zero => exact h
  | succ n ih =>
    have hadv : s.phase ≠ .advance := fun hp => by
      rw [hp] at hside
      cases hside
    exact ih (microStep_inv hinv) (microStep_afterBoundary hside) (exec_microStep hinv hi (fun hp => absurd hp hadv) h)

/-! ### The simulation -/

/-- `t` stands between operations that a run from `s` could have performed: in a tick up to its ADVANCE, the commands so
far performed before the tick; after it, or in IDLE, the commands so far performed once the tick has ended. -/
inductive State.Simulated (s t : State) : Prop
  | early (u : State) (n : Nat) (hreach : s.Reaches u) (hinv : u.Inv) (hidle : u.phase = .idle)
      (hside : t.phase.beforeBoundary = true) (ht : t = microSteps n (goto .blankOn u))
  | late (k : Nat) (hside : t.phase.beforeBoundary = false) (hidle : (microSteps k t).phase = .idle)
      (hreach : s.Reaches (microSteps k t))

/-- Behind the boundary test a micro-step leaves the end of the tick where it is. -/
theorem microSteps_microStep_of_idle {k : Nat} {t : State} (h : (microSteps k t).phase = .idle) :
    microSteps k (microStep t) = microSteps k t :=
  (microSteps_succ_last k t).trans (microSteps_idle 1 _ h)

/-- The tick has ended after its count of micro-steps (42_refresh_engine R156). -/
theorem lt_tickLength_of_busy {u : State} {n : Nat} (hu : u.AtRest)
    (h : (microSteps n (goto .blankOn u)).phase ≠ .idle) : n < tickLength u := by
  by_contra hlong
  refine microSteps_not_idle_of_le _ (not_lt.1 hlong) h ?_
  rw [microSteps_tick hu, tickOperation_phase, hu.idle]

theorem microStep_simulated {s t : State} (h : s.Simulated t) : s.Simulated (microStep t) := by
  cases h with
  | early u n hreach hinv hidle hside ht =>
    have hrest : u.AtRest := .of_inv hinv hidle
    have hnext : microStep t = microSteps (n + 1) (goto .blankOn u) := by rw [microSteps_succ_last, ht]
    cases hside' : (microStep t).phase.beforeBoundary with
    | true => exact .early u (n + 1) hreach hinv hidle hside' hnext
    | false =>
      have hlength : n + 1 ≤ tickLength u := lt_tickLength_of_busy hrest fun h => by
        rw [ht, h] at hside
        cases hside
      have hend : microSteps (tickLength u - (n + 1)) (microStep t) = tickOperation u := by
        rw [hnext, ← microSteps_add, Nat.add_sub_cancel' hlength, microSteps_tick hrest]
      refine .late (tickLength u - (n + 1)) hside' ?_ ?_
      · rw [hend, tickOperation_phase, hidle]
      · rw [hend]
        exact hreach.tick hrest
  | late k hside hidle hreach =>
    have hend := microSteps_microStep_of_idle hidle
    exact .late k (microStep_afterBoundary hside) (hend ▸ hidle) (hend ▸ hreach)

/-- What `rst` makes of a state depends on its configuration and its draw alone. -/
theorem takeRst_congr {t u : State} (hcfg : t.cfg = u.cfg) (hepoch : t.epoch = u.epoch) :
    (takeRst t).consume [] = (takeRst u).consume [] := by
  change State.afterReset t.cfg (t.epoch + 1) [] = State.afterReset u.cfg (u.epoch + 1) []
  rw [hcfg, hepoch]

theorem microSteps_outside (n : Nat) (s : State) : (microSteps n s).cfg = s.cfg ∧ (microSteps n s).epoch = s.epoch := by
  induction n generalizing s with
  | zero => exact ⟨rfl, rfl⟩
  | succ n ih =>
    obtain ⟨hcfg, -, -, hepoch⟩ := microStep_outside s
    exact ⟨(ih _).1.trans hcfg, (ih _).2.trans hepoch⟩

/-- `rst` abandons the tick in progress, and with it the commands that were put off. -/
theorem takeRst_simulated {s t : State} (h : s.Simulated t) : s.Simulated (takeRst t) := by
  refine .late 0 rfl rfl ?_
  cases h with
  | early u n hreach hinv hidle hside ht =>
    obtain ⟨hcfg, hepoch⟩ := microSteps_outside n (goto .blankOn u)
    exact hreach.rst.congr (takeRst_congr (ht ▸ hcfg) (ht ▸ hepoch))
  | late k hside hidle hreach =>
    obtain ⟨hcfg, hepoch⟩ := microSteps_outside k t
    exact hreach.rst.congr (takeRst_congr hcfg.symm hepoch.symm)

/-- In IDLE nothing is put off. -/
theorem State.Simulated.reaches {s t : State} (h : s.Simulated t) (hidle : t.phase = .idle) : s.Reaches t := by
  cases h with
  | early u n hreach hinv hidle' hside ht =>
    rw [hidle] at hside
    cases hside
  | late k hside hidle' hreach => rwa [microSteps_idle k t hidle] at hreach

theorem goto_blankOn_simulated {s t : State} (h : s.Simulated t) (hinv : t.Inv) (hidle : t.phase = .idle) :
    s.Simulated (goto .blankOn t) :=
  .early t 0 (h.reaches hidle) hinv hidle rfl rfl

/-- INIT and CLOCKINDC go on in IDLE alone (70_reset_and_hazards R218). -/
theorem exec_needsIdle {i : Instr} {s t : State} (hi : needsIdle i = true) (h : exec i s = .next t) :
    s.phase = .idle := by
  obtain ⟨-, -, -, hbusy⟩ := mayIssue_iff.1 (exec_goesOn_iff.1 ⟨t, h⟩)
  simpa [State.busy] using hbusy hi

/-- A command that may meet a tick moves no phase. -/
theorem exec_phase {i : Instr} {s t : State} (hi : needsIdle i = false) (h : exec i s = .next t) :
    t.phase = s.phase := by
  rw [exec_eq_withHost hi h]
  rfl

theorem exec_simulated {w : Word} {i : Instr} {s t t' : State} (h : s.Simulated t) (hinv : t.Inv)
    (hw : decode w = .ok i) (hexec : exec i t = .next t') : s.Simulated t' := by
  cases hi : needsIdle i with
  | true =>
    have hidle := exec_needsIdle hi hexec
    have hidle' : t'.phase = .idle := (exec_atRest hexec (.of_inv hinv hidle)).idle
    exact .late 0 (by rw [hidle']; rfl) hidle' ((h.reaches hidle).cmd hw hexec)
  | false =>
    have hphase : t'.phase = t.phase := exec_phase hi hexec
    cases h with
    | early u n hreach hinv' hidle hside ht =>
      rw [ht] at hside hexec
      obtain ⟨v, hv, ht'⟩ := exec_microSteps_back n (goto_blankOn_inv hinv' hidle) hi hside hexec
      have hu : exec i u = .next (v.withHost u) := exec_sameToHost (s := goto .blankOn u) hi rfl hv
      have hv' : v = goto .blankOn (v.withHost u) := exec_eq_withHost hi hv
      exact .early _ n (hreach.cmd hw hu) (exec_inv hinv' hu) hidle (by rw [hphase, ht]; exact hside) (hv' ▸ ht')
    | late k hside hidle hreach =>
      have hend := exec_microSteps k hinv hi hside hexec
      have hidle' : (microSteps k t').phase = .idle := (exec_phase hi hend).trans hidle
      exact .late k (hphase ▸ hside) hidle' (hreach.cmd hw hend)

/-! ### Runs of `step` -/

theorem step_simulated {s t t' : State} (h : s.Simulated (t.consume [])) (hinv : t.Inv) (hstep : step t = .next t') :
    s.Simulated (t'.consume []) := by
  have hinv' : (t.consume []).Inv := hinv
  obtain ⟨rest, rfl⟩ | ⟨rest, -, rfl⟩ | ⟨rest, -, hidle, rfl⟩ | ⟨w, rest, i, u, -, hw, hu, rfl⟩ := step_next_cases hstep
  · rw [← microStep_consume]
    exact microStep_simulated h
  · exact takeRst_simulated h
  · exact goto_blankOn_simulated h hinv' hidle
  · have hexec : exec i (t.consume []) = .next (u.consume []) := exec_consume (s := t.consume rest) [] hu
    exact exec_simulated h hinv' hw hexec

theorem runsTo_simulated {n : Nat} {s t u : State} (h : s.Simulated (t.consume [])) (hinv : t.Inv)
    (hrun : RunsTo n t u) : s.Simulated (u.consume []) :=
  (hrun.preserves (P := fun v => s.Simulated (v.consume []) ∧ v.Inv)
    (fun v w hstep ⟨hv, hinv⟩ => ⟨step_simulated hv hinv hstep, invariantKept v w hinv hstep⟩) ⟨h, hinv⟩).1

/-- Settles O57: every step keeps the simulation, and in IDLE it has nothing put off. -/
theorem everyRunIsAnOperationRun : Obligations.EveryRunIsAnOperationRun := by
  intro n s t hinv hidle hrun hidle'
  have hstart : s.Simulated (s.consume []) :=
    .late 0 (by rw [State.consume_phase, hidle]; rfl) hidle ((State.Reaches.refl s).congr rfl)
  obtain ⟨ops, u, hops, hu⟩ := (runsTo_simulated hstart hinv hrun).reaches hidle'
  exact ⟨ops, u, hops, (congrArg (fun x => { x with inputs := t.inputs, cmdDone := t.cmdDone }) hu).symm⟩

end Sys2Proof.Machine
end

section
/-! SUPPORT. The row-select pins: the table, and that they follow the cursor through a tick (spec 42_refresh_engine
R141, R158). -/

namespace Sys2Proof.Machine

/-! ### The table (42_refresh_engine R158) -/

theorem rowTab_deassert (R c : Nat) : rowTab R (2 * c) = 1#8 <<< ((c + R - 1) % R) := by
  rw [rowTab, if_pos (by omega), Nat.mul_div_cancel_left c (by decide)]

theorem rowTab_assert (R c : Nat) : rowTab R (2 * c + 1) = 1#8 <<< c := by
  rw [rowTab, if_neg (by omega), show (2 * c + 1) / 2 = c by omega]

/-- The row before `c`, in a cycle of `R` rows. -/
theorem previous_mod {R c : Nat} (hc : c < R) : (c + R - 1) % R = if c = 0 then R - 1 else c - 1 := by
  split
  · next h => rw [h, Nat.zero_add, Nat.mod_eq_of_lt (by omega)]
  · rw [show c + R - 1 = c - 1 + R by omega, Nat.add_mod_right, Nat.mod_eq_of_lt (by omega)]

/-- The row before the next one is the row itself. -/
theorem previous_mod_next {R c : Nat} (hc : c < R) : ((c + 1) % R + R - 1) % R = c := by
  rw [previous_mod (Nat.mod_lt _ (by omega))]
  obtain hlast | hlt := Nat.eq_or_lt_of_le (Nat.succ_le_of_lt hc)
  · rw [show c + 1 = R from hlast, Nat.mod_self, if_pos rfl]
    omega
  · rw [Nat.mod_eq_of_lt hlt, if_neg (by omega)]
    rfl

/-- Settles O37: each entry is one bit, by its parity. -/
theorem rowSelectTable : Obligations.RowSelectTable :=
  ⟨fun R s _ _ hs => ⟨by rw [rowTab_deassert, previous_mod hs], rowTab_assert R s⟩, by decide⟩

/-! ### `row_sel` along the micro-steps -/

theorem deassertRow_rowSel (s : State) :
    (deassertRow s).pins.rowSel = s.pins.rowSel &&& ~~~(1#8 <<< s.previousRow) := by
  rw [deassertRow, rowTab_deassert]
  rfl

theorem assertRow_rowSel (s : State) : (assertRow s).pins.rowSel = s.pins.rowSel ||| 1#8 <<< s.rowCursor := by
  rw [assertRow, rowTab_assert]
  rfl

/-- At most the previous row was asserted, so none is once it is de-asserted. -/
theorem and_not_eq_zero {v w : BitVec 8} (h : v = 0 ∨ v = w) : v &&& ~~~w = 0 := by
  obtain rfl | rfl := h
  · exact BitVec.zero_and
  · exact BitVec.and_not_self v

/-- What a phase asks of `row_sel` when `mux` (42_refresh_engine R141). -/
def State.AdmitsRowSel (s : State) : Phase → Prop
  | .idle | .blankOn | .rowOff => s.pins.rowSel = 0 ∨ s.pins.rowSel = 1#8 <<< s.previousRow
  | .latchHi | .latchLo | .rowOn => s.pins.rowSel = 0
  | .hold | .blankOff | .advance => s.pins.rowSel = 1#8 <<< s.rowCursor
  | .load | .bitSetup | .clkHi | .clkLo | .done => s.pins.rowSel = 1#8 <<< s.previousRow

theorem rowSelFollowsCursor_iff {s : State} :
    s.RowSelFollowsCursor ↔ (s.cfg.mux = true → s.AdmitsRowSel s.phase) := by
  unfold State.RowSelFollowsCursor
  cases s.phase <;> rfl

theorem nextByte_admitsRowSel {s : State} (h : s.pins.rowSel = 1#8 <<< s.previousRow) :
    (nextByte s).AdmitsRowSel (nextByte s).phase := by
  unfold nextByte
  split
  · exact h
  · exact h

/-- After the advance the tick's row is the previous one of the cursor (42_refresh_engine R138, R141). -/
theorem phaseAdvance_previousRow {s : State} (hm : s.cfg.mux = true) (hcursor : s.rowCursor < s.cfg.nRows) :
    (phaseAdvance s).previousRow = s.rowCursor := by
  have hrows : s.cfg.nRows = s.cfg.multiplexRows := if_pos hm
  rw [hrows] at hcursor
  rw [phaseAdvance, boundaryTest_eq]
  simpa [State.previousRow, hm] using previous_mod_next hcursor

theorem microStep_admitsRowSel {s : State} (hm : s.cfg.mux = true) (hcursor : s.rowCursor < s.cfg.nRows)
    (h : s.AdmitsRowSel s.phase) : (microStep s).AdmitsRowSel (microStep s).phase := by
  unfold microStep
  cases hp : s.phase with
  | idle => exact h
  | blankOn =>
    rw [hp] at h
    simp only [phaseBlankOn, if_pos hm]
    exact h
  | rowOff =>
    rw [hp] at h
    exact (deassertRow_rowSel s).trans (and_not_eq_zero h)
  | latchLo =>
    rw [hp] at h
    simp only [phaseLatchLo, if_pos hm]
    exact h
  | rowOn =>
    rw [hp] at h
    have hnone : s.pins.rowSel = 0 := h
    exact (assertRow_rowSel s).trans (hnone ▸ BitVec.zero_or)
  | latchHi | hold | blankOff | bitSetup | clkHi =>
    rw [hp] at h
    exact h
  | advance =>
    rw [hp] at h
    have hpins : (phaseAdvance s).pins = s.pins := by rw [phaseAdvance, boundaryTest_eq]; rfl
    have hrow : s.pins.rowSel = 1#8 <<< s.rowCursor := h
    rw [← hpins, ← phaseAdvance_previousRow hm hcursor] at hrow
    exact hrow
  | load =>
    rw [hp] at h
    simp only [phaseLoad]
    split
    · exact h
    · exact nextByte_admitsRowSel h
  | clkLo =>
    rw [hp] at h
    simp only [phaseClkLo]
    split
    · exact h
    · exact nextByte_admitsRowSel h
  | done =>
    rw [hp] at h
    simp only [phaseDone, if_pos hm]
    exact .inr h

theorem exec_admitsRowSel {i : Instr} {s t : State} (hinv : s.Inv) (h : s.AdmitsRowSel s.phase)
    (hexec : exec i s = .next t) : t.AdmitsRowSel t.phase := by
  obtain ⟨gs, rfl⟩ | ⟨dc, rfl⟩ | ⟨n, rfl⟩ | rfl | ⟨rfl, -, -⟩ | ⟨rfl, hbusy, -⟩ := exec_next_cases hexec
  · exact h
  · exact h
  · exact h
  · exact h
  · obtain ⟨-, -, -, -, hphase, -, -, -, hpins⟩ := exec_init_atResetValues hinv hexec
    rw [hphase]
    exact .inl (by rw [hpins]; rfl)
  · have hidle : s.phase = .idle := by simpa [State.busy] using hbusy
    obtain ⟨hrow, -⟩ := exec_clockindc_registers hexec
    have hpins : t.pins.rowSel = s.pins.rowSel := by
      obtain ⟨-, -, hrows, -⟩ := replay_bytes s.cfg s.dcBytes { s.pins with progSel := true }
      rw [exec_clockindc_pins hexec]
      exact hrows
    rw [hidle] at h
    rw [(exec_atRest hexec (.of_inv hinv hidle)).idle, State.AdmitsRowSel, State.previousRow, hpins, hrow,
      exec_cfg hexec]
    exact h

/-- Settles O54, over the cases of a step: the micro-steps hand `row_sel` on from phase to phase, `rst` and INIT clear
it, and no other step writes it. -/
theorem rowSelFollowsCursorKept : Obligations.RowSelFollowsCursorKept := by
  intro s t hinv hs hstep
  rw [rowSelFollowsCursor_iff] at hs ⊢
  intro hm
  rw [step_cfg hstep] at hm
  have h := hs hm
  have ⟨_, ⟨hcursor, _⟩, _⟩ := hinv
  obtain ⟨rest, rfl⟩ | ⟨rest, -, rfl⟩ | ⟨rest, -, hidle, rfl⟩ | ⟨w, rest, i, u, -, -, hu, rfl⟩ := step_next_cases hstep
  · exact microStep_admitsRowSel (s := s.consume rest) hm hcursor h
  · exact .inl rfl
  · rw [hidle] at h
    exact h
  · have hexec := exec_admitsRowSel (s := s.consume rest) hinv h hu
    exact hexec

end Sys2Proof.Machine
end

section
/-! SUPPORT. One whole tick at the operation level: its handoff, its events and pins, its latch pulse and its row (spec
42_refresh_engine R137 to R147). -/

namespace Sys2Proof.Machine

/-! ### The registers and the pins of a tick -/

/-- A tick: the handoff's new values, the shifter's registers, the pins and the wire, and nothing else. -/
theorem tickOperation_eq (s : State) :
    tickOperation s = { s with
      rowCursor := (advanceCursor s).rowCursor
      front := if (advanceCursor s).atBoundary && s.updateReq then !s.front else s.front
      updateReq := !(advanceCursor s).atBoundary && s.updateReq
      latchPending := !s.cfg.mux || s.latchPending
      sr := (tickOperation s).sr, bitCnt := (tickOperation s).bitCnt
      pins := (tickOperation s).pins, wire := (tickOperation s).wire } := by
  cases hm : s.cfg.mux with
  | true =>
    rw [tickOperation_mux s hm]
    obtain ⟨sr, bitCnt, pins, wire, h⟩ := transmitAll_touches _ _
    rw [h, emitAll_eq, boundaryTest_eq]
    rfl
  | false =>
    rw [tickOperation_plain s hm]
    obtain ⟨sr, bitCnt, pins, wire, h⟩ := transmitAll_touches _ _
    rw [h, emitAll_eq, boundaryTest_eq, advanceCursor_plain s hm]
    rfl

/-- What a state keeps through a tick. -/
theorem tickOperation_frame (s : State) :
    tickOperation s = { s with
      rowCursor := (tickOperation s).rowCursor, front := (tickOperation s).front
      updateReq := (tickOperation s).updateReq, latchPending := (tickOperation s).latchPending
      sr := (tickOperation s).sr, bitCnt := (tickOperation s).bitCnt
      pins := (tickOperation s).pins, wire := (tickOperation s).wire } := by
  rw [tickOperation_eq]

theorem tickOperation_rowCursor (s : State) : (tickOperation s).rowCursor = (advanceCursor s).rowCursor := by
  rw [tickOperation_eq]

theorem tickOperation_front (s : State) :
    (tickOperation s).front = if (advanceCursor s).atBoundary && s.updateReq then !s.front else s.front := by
  rw [tickOperation_eq]

theorem tickOperation_updateReq (s : State) :
    (tickOperation s).updateReq = (!(advanceCursor s).atBoundary && s.updateReq) := by
  rw [tickOperation_eq]

theorem tickOperation_latchPending (s : State) :
    (tickOperation s).latchPending = (!s.cfg.mux || s.latchPending) := by
  rw [tickOperation_eq]

theorem tickOperation_drives (s : State) : s.DrivesTo (tickOperation s) := by
  cases hm : s.cfg.mux with
  | true =>
    have hadvance : s.DrivesTo (advanceCursor s) := .of_silent rfl rfl rfl rfl rfl
    rw [tickOperation_mux s hm]
    exact ((hadvance.trans (boundaryTest_drives _)).trans (emitAll_drives _ _)).trans (transmitAll_drives _ _)
  | false =>
    have hpulse : s.DrivesTo { s with latchPending := false } := .of_silent rfl rfl rfl rfl rfl
    rw [tickOperation_plain s hm]
    exact (((hpulse.trans (boundaryTest_drives _)).trans (emitAll_drives _ _)).trans (transmitAll_drives _ _)).trans
      (.of_silent rfl rfl rfl rfl rfl)

theorem tickOperation_pins (s : State) : (tickOperation s).pins = s.pins.replay (tickEvents s) := by
  obtain ⟨es, hwire, hpins⟩ := (tickOperation_drives s).wire
  rw [tickOperation_wire] at hwire
  rw [hpins, List.append_cancel_left hwire]

/-- The transmission leaves the other pins as the pulse left them. -/
theorem tickOperation_controlPins (s : State) :
    let t := tickOperation s
    let ps := s.pins.replay (pulseEvents s)
    t.pins.blank = ps.blank ∧ t.pins.latch = ps.latch ∧ t.pins.rowSel = ps.rowSel ∧ t.pins.progSel = ps.progSel := by
  intro t ps
  rw [tickOperation_pins, tickEvents, Pins.replay_append]
  exact replay_bytes s.cfg (tickBytes s) ps

theorem length_tickEvents (s : State) (h : s.cfg.bitBanged = true) :
    (tickEvents s).length = (pulseEvents s).length + 24 * s.cfg.gsLen := by
  rw [tickEvents, List.length_append, length_bytes _ _ h, tickBytes, State.rowBytes]
  simp

/-! ### A tick when not multiplexing (42_refresh_engine R137) -/

theorem pulseEvents_plain {s : State} (hm : s.cfg.mux = false) :
    pulseEvents s = [.pin .blank true] ++
      (if s.latchPending = true then [.pin .latch true, .pin .latch false] else []) ++ [.pin .blank false] := by
  rw [pulseEvents, hm]
  rfl

theorem replay_pulseEvents_plain {s : State} (hm : s.cfg.mux = false) (ps : Pins) :
    ps.replay (pulseEvents s) =
      { ps with blank := false, latch := if s.latchPending = true then false else ps.latch } := by
  rw [pulseEvents_plain hm]
  cases s.latchPending <;> rfl

theorem tickBytes_plain {s : State} (hm : s.cfg.mux = false) :
    tickBytes s = s.rowBytes (tickOperation s).front 0 := by
  rw [tickBytes, State.sendRow, tickOperation_cfg, hm]
  rfl

/-- Settles O32: every tick is a frame boundary, its events are the pulse and row 0, and the transmission leaves the
pins of the pulse. -/
theorem plainTickEffect : Obligations.PlainTickEffect := by
  intro s hm t events
  have hrow : t.rowCursor = s.rowCursor := by rw [tickOperation_rowCursor, advanceCursor_plain s hm]
  have hboundary : (advanceCursor s).atBoundary = true := by rw [State.atBoundary, advanceCursor_cfg, hm]; rfl
  have hframe := tickOperation_frame s
  rw [hrow] at hframe
  have hevents : events = tickEvents s := by rw [tickEvents, pulseEvents_plain hm, tickBytes_plain hm]
  obtain ⟨hblank, hlatch, hrowSel, hprog⟩ := tickOperation_controlPins s
  rw [replay_pulseEvents_plain hm] at hblank hlatch hrowSel hprog
  refine ⟨?_, ?_, ?_, hevents ▸ tickOperation_wire s, hevents ▸ tickOperation_pins s, fun hb => ?_, hblank, hrowSel,
    hprog, hlatch, hframe⟩
  · rw [tickOperation_front, hboundary, Bool.true_and]
  · rw [tickOperation_updateReq, hboundary]
    rfl
  · rw [tickOperation_latchPending, hm]
    rfl
  · rw [hevents, length_tickEvents s hb, pulseEvents_plain hm]
    cases s.latchPending <;> rfl

/-! ### A tick when multiplexing (42_refresh_engine R138) -/

theorem pulseEvents_mux {s : State} (hm : s.cfg.mux = true) :
    let off := s.pins.rowSel &&& ~~~(1#8 <<< s.previousRow)
    pulseEvents s = [.pin .blank true, .rowSel off, .pin .latch true, .pin .latch false,
      .rowSel (off ||| (1#8 <<< s.rowCursor)), .pin .blank false] := by
  rw [pulseEvents, if_pos hm, rowTab_deassert, rowTab_assert]
  rfl

theorem replay_pulseEvents_mux {s : State} (hm : s.cfg.mux = true) (ps : Pins) :
    ps.replay (pulseEvents s) =
      { ps with
        blank := false, latch := false
        rowSel := (s.pins.rowSel &&& ~~~(1#8 <<< s.previousRow)) ||| (1#8 <<< s.rowCursor) } := by
  rw [pulseEvents_mux hm]
  rfl

theorem tickBytes_mux {s : State} (hm : s.cfg.mux = true) :
    tickBytes s = s.rowBytes (tickOperation s).front (tickOperation s).rowCursor := by
  rw [tickBytes, State.sendRow, tickOperation_cfg, if_pos hm]

/-- The cursor's advance, in a cycle of `R` rows. -/
theorem next_mod {R c : Nat} (hc : c < R) : (c + 1) % R = if c + 1 = R then 0 else c + 1 := by
  split
  · next h => rw [h, Nat.mod_self]
  · rw [Nat.mod_eq_of_lt (by omega)]

/-- Settles O33: the boundary is the wrap of the cursor, the events are the pulse with the row switch and the row at
the new cursor, and the transmission leaves the pins of the pulse. -/
theorem muxTickEffect : Obligations.MuxTickEffect := by
  intro s hm hcursor t off events
  have hboundary : (advanceCursor s).atBoundary = decide (t.rowCursor = 0) := by
    rw [tickOperation_rowCursor, State.atBoundary, advanceCursor_cfg, hm]
    rfl
  have hframe := tickOperation_frame s
  rw [tickOperation_latchPending, hm, Bool.not_true, Bool.false_or] at hframe
  have hevents : events = tickEvents s := by rw [tickEvents, pulseEvents_mux hm, tickBytes_mux hm]
  obtain ⟨hblank, hlatch, hrowSel, hprog⟩ := tickOperation_controlPins s
  rw [replay_pulseEvents_mux hm] at hblank hlatch hrowSel hprog
  refine ⟨?_, ?_, ?_, hevents ▸ tickOperation_wire s, hevents ▸ tickOperation_pins s, fun hb => ?_, hrowSel, hblank,
    hlatch, hprog, hframe⟩
  · rw [tickOperation_rowCursor, advanceCursor_rowCursor, if_pos hm, next_mod hcursor]
  · rw [tickOperation_front, hboundary]
    simp
  · rw [tickOperation_updateReq, hboundary]
    by_cases h : t.rowCursor = 0 <;> simp [h]
  · rw [hevents, length_tickEvents s hb, pulseEvents_mux hm]
    rfl

/-- One bit of `row_sel`. -/
theorem getLsbD_row {c : Nat} (hc : c < 8) (k : Nat) : (1#8 <<< c).getLsbD k = decide (k = c) := by
  rw [← BitVec.twoPow_eq, BitVec.getLsbD_twoPow]
  simp [hc, eq_comm]

/-- Settles O38: of the row that was asserted nothing is left but the row of the step. -/
theorem exactlyOneRowAsserted : Obligations.ExactlyOneRowAsserted := by
  intro s hvalid hm hcursor hrow k hk
  obtain ⟨-, -, hrows⟩ := hvalid
  obtain ⟨-, -, hrowSel, -⟩ := tickOperation_controlPins s
  have hstep : (tickOperation s).pins.rowSel = 1#8 <<< s.rowCursor := by
    rw [hrowSel, replay_pulseEvents_mux hm, and_not_eq_zero hrow]
    exact BitVec.zero_or
  rw [hstep]
  exact getLsbD_row (hcursor.trans_le hrows) k

/-! ### The latch pulse (42_refresh_engine R139, R140, R147) -/

/-- The pulse raises the latch once when `mux` or when it is owed, inside the blanked interval. -/
theorem latchesFrom_pulseEvents {s : State} {ps : Pins} (hlatch : ps.latch = false) (n : Nat) :
    latchesFrom ps n (pulseEvents s) =
      if s.cfg.mux = true ∨ s.latchPending = true then
        [⟨n, true, ps.progSel, if s.cfg.mux then (deassertRow s).pins.rowSel else ps.rowSel⟩]
      else [] := by
  obtain ⟨clk, dat, lat, bl, pr, rs⟩ := ps
  obtain rfl : lat = false := hlatch
  unfold pulseEvents
  cases s.cfg.mux with
  | true => rfl
  | false => cases s.latchPending <;> rfl

/-- Settles O36: the transmission raises no latch edge, and the pulse comes before it. -/
theorem tickLatchesExactlyWhenOwed : Obligations.TickLatchesExactlyWhenOwed := by
  intro s hinv hidle
  obtain ⟨-, hlatch, -⟩ := hinv.idle_pins hidle
  refine ⟨tickEvents s, tickOperation_wire s, ?_⟩
  rw [tickEvents, latchesFrom_append, latchesFrom_bytes, List.append_nil, latchesFrom_pulseEvents hlatch]
  split
  · simp
  · simp

/-! ### The micro-steps of a tick (42_refresh_engine R156, R157) -/

/-- The last byte of a transmission leads to DONE. -/
theorem microSteps_load_done {u : State} (hlen : 1 ≤ u.cfg.gsLen) :
    (microSteps (u.cfg.gsLen * byteSteps u.cfg) (goto .load (setByteIdx 0 u))).phase = .done := by
  obtain ⟨n, hn⟩ := Nat.exists_eq_add_of_le' hlen
  have hbuffer := microSteps_buffer n (goto .load (setByteIdx 0 u)) rfl (by simp [hn])
  rw [goto_cfg, setByteIdx_cfg, ← hn] at hbuffer
  rw [hbuffer, goto_phase]

/-- Before the last micro-step of its count the tick has come to DONE, and no further. -/
theorem microSteps_tick_done {s : State} (h : s.AtRest) :
    (microSteps (tickLength s - 1) (goto .blankOn s)).phase = .done := by
  have hlen := Config.one_le_gsLen h.valid
  rw [tickLength_eq, ← Nat.add_assoc, Nat.add_sub_cancel, microSteps_add]
  cases hm : s.cfg.mux with
  | true =>
    have hdone := microSteps_load_done (u := boundaryTest (advanceCursor (pulseMux s))) (by simpa using hlen)
    have hcfg : (boundaryTest (advanceCursor (pulseMux s))).cfg = s.cfg := by simp
    rw [if_pos rfl, microSteps_pulseMux s hm, ← hcfg]
    exact hdone
  | false =>
    have hdone := microSteps_load_done (u := boundaryTest (pulsePlain s)) (by simpa using hlen)
    have hcfg : (boundaryTest (pulsePlain s)).cfg = s.cfg := by simp
    rw [if_neg Bool.false_ne_true, microSteps_pulsePlain s hm, ← hcfg]
    exact hdone

/-- Settles O31: the tick event takes the block out of IDLE, the micro-steps of the count are the whole tick, and the
last of them is that of DONE. -/
theorem microStepsRefineTick : Obligations.MicroStepsRefineTick := by
  intro s hvalid hseq hidle hin
  obtain ⟨hidleValues, -⟩ := hseq
  obtain ⟨hbyte, hbit⟩ := hidleValues hidle
  have hrest : (s.consume []).AtRest := ⟨hvalid, hidle, hbyte, hbit⟩
  have htake : step { s with inputs := [.tick] } = .next (goto .blankOn (s.consume [])) :=
    takeTick_next.2 ⟨hidle, rfl⟩
  have hrun (n : Nat) : RunsTo (n + 1) { s with inputs := [.tick] } (microSteps n (goto .blankOn (s.consume []))) :=
    (runsTo_step htake).2 (runsTo_microSteps n _ rfl rfl)
  refine ⟨?_, by rw [tickOperation_phase, hidle], fun k hk hle => ?_⟩
  · have hlow : { s with cmdDone := false } = s.consume [] := by rw [State.consume, ← hin]
    rw [Nat.add_comm, hlow, ← microSteps_tick hrest]
    exact hrun (tickLength s)
  · obtain ⟨n, rfl⟩ := Nat.exists_eq_add_of_le' hk
    refine ⟨_, hrun n, microSteps_not_idle_of_le _ (Nat.le_sub_one_of_lt hle) ?_⟩
    have hdone : (microSteps (tickLength s - 1) (goto .blankOn (s.consume []))).phase = .done :=
      microSteps_tick_done hrest
    simp [hdone]

end Sys2Proof.Machine
end

section
/-! SUPPORT. The serial transport: one byte, the dot-correction buffer and the buffer of a tick (spec 43_transport R167,
R171, R172). -/

namespace Sys2Proof.Machine

/-- A bit-banged byte shows the receiver its bits, most significant first (43_transport R167). -/
theorem bitsFrom_shiftEvents {ps : Pins} (b : Byte) (hclk : ps.clkOut = false) :
    bitsFrom ps (shiftEvents b) = byteBits b := bitsFrom_transmitEvents Config.standard ps b hclk

/-- Settles O35: ShiftByte is its 24 events over the loaded shift register. -/
theorem shiftByteSendsMsbFirst : Obligations.ShiftByteSendsMsbFirst := by
  intro b s t events
  have ht : t = setBitCnt 7 (emitAll events (setSr b s)) := shiftByte_eq b s
  rw [emitAll_eq] at ht
  rw [ht]
  exact ⟨rfl, rfl, fun hclk => bitsFrom_shiftEvents b hclk, replay_shiftEvents s.pins b, rfl, rfl, rfl⟩

/-- What a state keeps through CLOCKINDC (43_transport R172). -/
theorem exec_clockindc_frame {s t : State} (h : exec .clockindc s = .next t) :
    t = { s with sr := t.sr, bitCnt := t.bitCnt, pins := t.pins, wire := t.wire } := by
  obtain ⟨-, -, rfl⟩ := exec_clockindc_next.1 h
  obtain ⟨sr, bitCnt, pins, wire, hsent⟩ := transmitAll_touches s.dcBytes (emitAll [.pin .progSel true] s)
  rw [hsent, emitAll_eq, emitAll_eq]

/-- 24 events a byte of `DC`, and four around them (43_transport R172). -/
theorem length_clockindcEvents (s : State) (h : s.cfg.bitBanged = true) :
    (clockindcEvents s).length = 4 + 24 * s.cfg.dcLen := by
  have hbytes := length_bytes s.cfg s.dcBytes h
  have hlen : s.dcBytes.length = s.cfg.dcLen := by simp [State.dcBytes]
  simp only [clockindcEvents, List.length_cons, List.length_append, List.length_nil, hbytes, hlen]
  omega

/-- Settles O26: in IDLE the command the block has completes, its events are those of `clockindcEvents`, and the
transmission leaves every pin but the clock and the data pin. -/
theorem clockindcSendsDotCorrection : Obligations.ClockindcSendsDotCorrection := by
  intro s hdot hwired hidle
  have hbusy : s.busy = false := by rw [State.busy, hidle]; rfl
  have hexec := exec_clockindc_next.2 ⟨hasProgSel_iff.2 ⟨hdot, hwired⟩, hbusy, rfl⟩
  have hwire := exec_clockindc_wire hexec
  have hpins := exec_clockindc_pins hexec
  obtain ⟨hblank, -, hrow, -⟩ := replay_bytes s.cfg s.dcBytes { s.pins with progSel := true }
  refine ⟨_, hexec, ?_, fun hb => ?_, ?_, ?_, ?_, ?_, exec_clockindc_frame hexec⟩
  · rw [hwire, clockindcEvents]
    simp only [List.append_assoc, List.cons_append, List.nil_append]
  · rw [hwire, List.length_append, length_clockindcEvents s hb]
  · rw [hpins]
  · rw [hpins]
  · rw [hpins]
    exact hblank
  · rw [hpins]
    exact hrow

/-- The pulse of a tick clocks no bit. -/
theorem bitsFrom_pulseEvents (s : State) (ps : Pins) : bitsFrom ps (pulseEvents s) = [] := by
  unfold pulseEvents
  cases s.cfg.mux with
  | true => rfl
  | false => cases s.latchPending <;> rfl

/-- Settles O34: the pulse clocks no bit and leaves the clock low, so the bits of a tick are those of its bytes. -/
theorem tickClocksOutTheBuffer : Obligations.TickClocksOutTheBuffer := by
  intro s _ hinv hidle
  obtain ⟨hclk, -⟩ := hinv.idle_pins hidle
  obtain ⟨hclk', -⟩ := replay_pulseEvents s s.pins
  refine ⟨tickEvents s, tickOperation_wire s, ?_⟩
  rw [tickEvents, bitsFrom_append, bitsFrom_pulseEvents, List.nil_append, bitsFrom_bytes _ _ _ (hclk'.trans hclk)]
  exact groupBytes_byteBits (tickBytes s)

end Sys2Proof.Machine
end

section
/-! SUPPORT. Lawful traces (spec 43_transport R170): which events may follow the pins at hand, and that the sequencer and
every command append only such. -/

namespace Sys2Proof.Machine

/-! ### Lawful events -/

/-- The two facts of 43_transport R170, of events that find the pins at `ps`, however many bits went before. -/
structure LawfulFrom (ps : Pins) (es : List WireEvent) : Prop where
  latch : ∀ n, ∀ edge ∈ latchesFrom ps n es, edge.progSel = false → edge.blank = true
  clock : ∀ level ∈ clockEdgesFrom ps es, level = false

theorem LawfulFrom.nil (ps : Pins) : LawfulFrom ps [] := ⟨by simp [latchesFrom], by simp [clockEdgesFrom]⟩

theorem LawfulFrom.append {ps : Pins} {es fs : List WireEvent} (hes : LawfulFrom ps es)
    (hfs : LawfulFrom (ps.replay es) fs) : LawfulFrom ps (es ++ fs) where
  latch n edge hmem := by
    rw [latchesFrom_append] at hmem
    exact (List.mem_append.1 hmem).elim (hes.latch n edge) (hfs.latch _ edge)
  clock level hmem := by
    rw [clockEdgesFrom_append] at hmem
    exact (List.mem_append.1 hmem).elim (hes.clock level) (hfs.clock level)

/-- A rise of the latch is lawful while the outputs are blanked or the chips are being programmed. -/
theorem LawfulFrom.latch_up {ps : Pins} (h : ps.progSel = false → ps.blank = true) :
    LawfulFrom ps [.pin .latch true] where
  latch n edge hmem := by
    simp only [latchesFrom, List.append_nil, List.mem_ite_nil_right, List.mem_singleton] at hmem
    obtain ⟨-, rfl⟩ := hmem
    exact h
  clock := by simp [clockEdgesFrom, clockEdge]

/-- A rise of the clock is lawful while the latch is low. -/
theorem LawfulFrom.clock_up {ps : Pins} (h : ps.latch = false) : LawfulFrom ps [.pin .clkOut true] where
  latch := by simp [latchesFrom, isLatchEdge]
  clock := by simp [clockEdgesFrom, clockEdge, h]

/-- The events that raise the latch or the clock where they find it low. -/
def WireEvent.raises : WireEvent → Bool
  | .pin .latch v | .pin .clkOut v => v
  | .pin .dataOut _ | .pin .blank _ | .pin .progSel _ | .rowSel _ | .byte _ => false

theorem WireEvent.no_edge {e : WireEvent} (h : e.raises = false) (ps : Pins) :
    isLatchEdge ps e = false ∧ clockEdge ps e = [] := by
  cases e with
  | rowSel | byte => exact ⟨rfl, rfl⟩
  | pin p v =>
    cases p with
    | dataOut | blank | progSel => exact ⟨rfl, rfl⟩
    | latch | clkOut =>
      obtain rfl : v = false := h
      exact ⟨rfl, rfl⟩

/-- Events that raise neither are lawful wherever they stand. -/
theorem LawfulFrom.of_no_rise {es : List WireEvent} (h : ∀ e ∈ es, e.raises = false) (ps : Pins) :
    LawfulFrom ps es := by
  induction es generalizing ps with
  | nil => exact .nil ps
  | cons e es ih =>
    obtain ⟨he, hes⟩ := List.forall_mem_cons.1 h
    obtain ⟨hlatch, hclock⟩ := e.no_edge he ps
    refine .append (es := [e]) ⟨?_, ?_⟩ (ih hes _)
    · simp [latchesFrom, hlatch]
    · simp [clockEdgesFrom, hclock]

/-- A transmission is lawful while the latch is low (43_transport R165). -/
theorem LawfulFrom.bytes (c : Config) (bs : List Byte) {ps : Pins} (h : ps.latch = false) :
    LawfulFrom ps (bs.flatMap (transmitEvents c)) where
  latch n := by simp [latchesFrom_bytes]
  clock := clockEdgesFrom_bytes c bs ps h

/-- `t`'s trace is `s`'s and, after it, events that are lawful from `s`'s pins. -/
def State.ExtendsLawfully (s t : State) : Prop := ∃ es, t.wire = s.wire ++ es ∧ LawfulFrom s.pins es

theorem State.ExtendsLawfully.of_wire_eq {s t : State} (h : t.wire = s.wire) : s.ExtendsLawfully t :=
  ⟨[], by rw [h, List.append_nil], .nil _⟩

theorem State.ExtendsLawfully.of_no_rise {s t : State} (e : WireEvent) (h : t.wire = s.wire ++ [e])
    (he : e.raises = false) : s.ExtendsLawfully t := ⟨[e], h, .of_no_rise (by simpa using he) _⟩

/-- When the pins follow the wire, the pins a trace ends at are those its lawful extension starts from. -/
theorem State.ExtendsLawfully.wireLawful {s t : State} (h : s.ExtendsLawfully t) (hpins : s.PinsFollowWire)
    (hs : s.WireLawful) : t.WireLawful := by
  obtain ⟨es, hwire, hes⟩ := h
  obtain ⟨hlatch, hclock⟩ := hs
  rw [State.WireLawful, latches, clockEdges, hwire, latchesFrom_append, clockEdgesFrom_append, hpins]
  exact ⟨List.forall_mem_append.2 ⟨hlatch, hes.latch _⟩, List.forall_mem_append.2 ⟨hclock, hes.clock⟩⟩

/-! ### The sequencer (42_refresh_engine R150) -/

theorem nextByte_wire (s : State) : (nextByte s).wire = s.wire := by rw [nextByte_eq]

/-- The latch rises at LATCH_HI, in the blanked interval, the clock at CLK_HI, where the latch is low. -/
theorem microStep_extendsLawfully {s : State} (h : s.PinsLegal) : s.ExtendsLawfully (microStep s) := by
  obtain ⟨hlatch, -, -, hblank, -⟩ := h
  unfold microStep
  cases hp : s.phase with
  | idle | hold => exact .of_wire_eq rfl
  | blankOn => exact .of_no_rise (.pin .blank true) rfl rfl
  | rowOff | rowOn => exact .of_no_rise (.rowSel _) rfl rfl
  | latchHi => exact ⟨[.pin .latch true], rfl, .latch_up fun _ => hblank (by rw [hp]; rfl)⟩
  | latchLo =>
    refine .of_no_rise (.pin .latch false) ?_ rfl
    simp only [phaseLatchLo]
    split <;> rfl
  | blankOff => exact .of_no_rise (.pin .blank false) rfl rfl
  | advance => exact .of_wire_eq (boundaryTest_wire (advanceCursor s))
  | load =>
    simp only [phaseLoad]
    split
    · exact .of_wire_eq rfl
    · exact .of_no_rise (.byte s.loadByte) (nextByte_wire _) rfl
  | bitSetup => exact .of_no_rise (.pin .dataOut _) rfl rfl
  | clkHi => exact ⟨[.pin .clkOut true], rfl, .clock_up (by rw [hlatch, hp]; rfl)⟩
  | clkLo =>
    refine .of_no_rise (.pin .clkOut false) ?_ rfl
    simp only [phaseClkLo]
    split
    · rfl
    · exact nextByte_wire _
  | done =>
    refine .of_wire_eq ?_
    simp only [phaseDone]
    split <;> rfl

/-! ### The commands -/

/-- INIT raises neither the latch nor the clock (41_handoff R120). -/
theorem raises_of_mem_initEvents (c : Config) : ∀ e ∈ initEvents c, e.raises = false := by
  simp [initEvents, or_imp, forall_and, WireEvent.raises]

/-- CLOCKINDC clocks its bytes while the latch is low, and pulses the latch while `prog_sel` is high (43_transport
R172). -/
theorem lawfulFrom_clockindcEvents (s : State) {ps : Pins} (hlatch : ps.latch = false) :
    LawfulFrom ps (clockindcEvents s) := by
  obtain ⟨-, -, -, hprog⟩ := replay_bytes s.cfg s.dcBytes (ps.set .progSel true)
  have hraise : LawfulFrom ps [.pin .progSel true] := .of_no_rise (by simp [WireEvent.raises]) _
  have hbytes : LawfulFrom (ps.set .progSel true) (s.dcBytes.flatMap (transmitEvents s.cfg)) := .bytes _ _ hlatch
  have hpulse : LawfulFrom ((ps.set .progSel true).replay (s.dcBytes.flatMap (transmitEvents s.cfg)))
      [.pin .latch true] := .latch_up fun hlow => absurd (hlow.symm.trans hprog) Bool.false_ne_true
  have hlower : ∀ qs, LawfulFrom qs [.pin .latch false, .pin .progSel false] :=
    .of_no_rise (by simp [WireEvent.raises])
  exact hraise.append (hbytes.append (hpulse.append (hlower _)))

theorem exec_extendsLawfully {i : Instr} {s t : State} (hinv : s.Inv) (h : exec i s = .next t) :
    s.ExtendsLawfully t := by
  obtain ⟨gs, rfl⟩ | ⟨dc, rfl⟩ | ⟨n, rfl⟩ | rfl | ⟨-, -, rfl⟩ | ⟨rfl, hbusy, -⟩ := exec_next_cases h
  · exact .of_wire_eq rfl
  · exact .of_wire_eq rfl
  · exact .of_wire_eq rfl
  · exact .of_wire_eq rfl
  · exact ⟨initEvents s.cfg, emitAll_wire _ _, .of_no_rise (raises_of_mem_initEvents s.cfg) _⟩
  · obtain ⟨-, hlatch, -⟩ := hinv.idle_pins (by simpa [State.busy] using hbusy)
    exact ⟨clockindcEvents s, exec_clockindc_wire h, lawfulFrom_clockindcEvents s hlatch⟩

/-- Settles O53, over the cases of a step: the micro-steps and the commands append lawful events, the tick event appends
none, and `rst` empties the trace. -/
theorem wireLawfulKept : Obligations.WireLawfulKept := by
  intro s t hinv hpins hs hstep
  obtain ⟨rest, rfl⟩ | ⟨rest, -, rfl⟩ | ⟨rest, -, -, rfl⟩ | ⟨w, rest, i, u, -, -, hu, rfl⟩ := step_next_cases hstep
  · obtain ⟨-, -, -, hlegal⟩ := hinv
    have hmicro : (s.consume rest).ExtendsLawfully _ := microStep_extendsLawfully hlegal
    exact hmicro.wireLawful hpins hs
  · exact ⟨List.forall_mem_nil _, List.forall_mem_nil _⟩
  · exact hs
  · have hexec : (s.consume rest).ExtendsLawfully u := exec_extendsLawfully hinv hu
    have hlawful : u.WireLawful := hexec.wireLawful hpins hs
    exact hlawful

end Sys2Proof.Machine
end

section
/-! SUPPORT. The gamma tables against the integer statement of their rounding (spec 44_gamma R180, R181, R184). -/

namespace Sys2Proof.Machine

theorem isRoundedGamma_zero {maxGS n : Nat} : isRoundedGamma maxGS 0 n = true ↔ n = 0 := by
  simp [isRoundedGamma]

theorem isRoundedGamma_pos {maxGS i n : Nat} (hi : 0 < i) :
    isRoundedGamma maxGS i n = true ↔
      (0 < n → (2 * n - 1) ^ 2 * 255 ^ 5 < 4 * maxGS ^ 2 * i ^ 5) ∧
      4 * maxGS ^ 2 * i ^ 5 < (2 * n + 1) ^ 2 * 255 ^ 5 := by
  rw [isRoundedGamma, if_neg hi.ne', Bool.and_eq_true, Bool.or_eq_true, beq_iff_eq, decide_eq_true_iff,
    decide_eq_true_iff, Nat.pos_iff_ne_zero, ← or_iff_not_imp_left]

/-- Rounding is monotone: the lower bound at the smaller index is below the upper bound at the larger one. -/
theorem isRoundedGamma_le {maxGS i j n m : Nat} (hij : i ≤ j) (hn : isRoundedGamma maxGS i n = true)
    (hm : isRoundedGamma maxGS j m = true) : n ≤ m := by
  obtain rfl | hi := Nat.eq_zero_or_pos i
  · rw [isRoundedGamma_zero.1 hn]
    exact Nat.zero_le m
  obtain rfl | hnpos := Nat.eq_zero_or_pos n
  · exact Nat.zero_le m
  obtain ⟨hlower, -⟩ := (isRoundedGamma_pos hi).1 hn
  obtain ⟨-, hupper⟩ := (isRoundedGamma_pos (hi.trans_le hij)).1 hm
  have hscaled : (2 * n - 1) ^ 2 * 255 ^ 5 < (2 * m + 1) ^ 2 * 255 ^ 5 :=
    calc (2 * n - 1) ^ 2 * 255 ^ 5 < 4 * maxGS ^ 2 * i ^ 5 := hlower hnpos
      _ ≤ 4 * maxGS ^ 2 * j ^ 5 := Nat.mul_le_mul_left _ (Nat.pow_le_pow_left hij 5)
      _ < (2 * m + 1) ^ 2 * 255 ^ 5 := hupper
  have hroot : 2 * n - 1 < 2 * m + 1 :=
    lt_of_pow_lt_pow_left₀ 2 (Nat.zero_le _) (lt_of_mul_lt_mul_right hscaled (Nat.zero_le _))
  omega

/-- At index 255 the power is 1, so `maxGS` itself is what rounds there. -/
theorem isRoundedGamma_maxGS (maxGS : Nat) : isRoundedGamma maxGS 255 maxGS = true := by
  have hsq : 4 * maxGS ^ 2 = (2 * maxGS) ^ 2 := by ring
  rw [isRoundedGamma_pos (by decide), hsq]
  have hmul {a b : Nat} (h : a < b) : a ^ 2 * 255 ^ 5 < b ^ 2 * 255 ^ 5 :=
    Nat.mul_lt_mul_of_pos_right (Nat.pow_lt_pow_left h two_ne_zero) (by decide)
  exact ⟨fun hpos => hmul (by omega), hmul (by omega)⟩

theorem gammaTable_length {pwmBits : Nat} (hlow : 8 ≤ pwmBits) (hhigh : pwmBits ≤ 12) :
    (gammaTable pwmBits).length = 256 := by
  interval_cases pwmBits <;> decide +kernel

/-- The printed tables meet R180, entry by entry. -/
theorem gammaTable_isRounded {pwmBits : Nat} (hlow : 8 ≤ pwmBits) (hhigh : pwmBits ≤ 12) :
    ∀ i < 256, isRoundedGamma (2 ^ pwmBits - 1) i ((gammaTable pwmBits).getD i 0) = true := by
  interval_cases pwmBits <;> decide +kernel

theorem gammaTable_pairwise_le {pwmBits : Nat} (hlow : 8 ≤ pwmBits) (hhigh : pwmBits ≤ 12) :
    (gammaTable pwmBits).Pairwise (· ≤ ·) := by
  have hentry (i : Nat) (hi : i < (gammaTable pwmBits).length) :
      isRoundedGamma (2 ^ pwmBits - 1) i (gammaTable pwmBits)[i] = true := by
    rw [← List.getD_eq_getElem _ 0 hi]
    exact gammaTable_isRounded hlow hhigh i (gammaTable_length hlow hhigh ▸ hi)
  exact List.pairwise_iff_getElem.2 fun i j hi hj hij => isRoundedGamma_le hij.le (hentry i hi) (hentry j hj)

theorem gammaTable_first {pwmBits : Nat} (hlow : 8 ≤ pwmBits) (hhigh : pwmBits ≤ 12) :
    (gammaTable pwmBits).getD 0 1 = 0 := by
  have hpos : 0 < (gammaTable pwmBits).length := by rw [gammaTable_length hlow hhigh]; decide
  have hzero := isRoundedGamma_zero.1 (gammaTable_isRounded hlow hhigh 0 (by decide))
  rwa [List.getD_eq_getElem _ _ hpos] at hzero ⊢

theorem gammaTable_last {pwmBits : Nat} (hlow : 8 ≤ pwmBits) (hhigh : pwmBits ≤ 12) :
    (gammaTable pwmBits).getD 255 0 = 2 ^ pwmBits - 1 :=
  have hlast := gammaTable_isRounded hlow hhigh 255 (by decide)
  have hmax := isRoundedGamma_maxGS (2 ^ pwmBits - 1)
  le_antisymm (isRoundedGamma_le le_rfl hlast hmax) (isRoundedGamma_le le_rfl hmax hlast)

theorem gammaEntry_isRounded {c : Config} (hc : c.Valid) (idx : BitVec 8) :
    isRoundedGamma (2 ^ c.pwmBits - 1) idx.toNat (gammaEntry c idx.toNat) = true := by
  obtain ⟨-, ⟨hlow, hhigh⟩, -⟩ := hc
  exact gammaTable_isRounded hlow hhigh idx.toNat idx.isLt

/-- Settles O24: GAMMA leaves the table's entry in `resp`, whole, and the entry is the rounded power. -/
theorem gammaLooksUp : Obligations.GammaLooksUp := by
  intro s idx hvalid hgamma
  have hround := gammaEntry_isRounded hvalid idx
  have hfits : gammaEntry s.cfg idx.toNat < 2 ^ 16 :=
    ((gammaEntry_le_maxGS hvalid _).trans_lt (maxGS_lt hvalid)).trans (by decide)
  refine ⟨_, exec_gamma_next.2 ⟨hgamma, rfl⟩, ?_⟩
  rw [respond_resp, zext16_toNat hfits]
  refine ⟨fun hzero => ?_, fun hpos => ?_, fun hpos => ?_, rfl⟩
  · rw [hzero] at hround ⊢
    exact isRoundedGamma_zero.1 hround
  · exact ((isRoundedGamma_pos hpos).1 hround).1
  · exact ((isRoundedGamma_pos hpos).1 hround).2

theorem gammaTable_sums :
    (gammaTable 12).sum = 300400 ∧ (gammaTable 11).sum = 150154 ∧ (gammaTable 10).sum = 75040 ∧
      (gammaTable 9).sum = 37481 ∧ (gammaTable 8).sum = 18701 := by
  decide +kernel

theorem gammaTable_zeros :
    (∀ i < 7, (gammaTable 12).getD i 1 = 0) ∧ ∀ i < 22, (gammaTable 8).getD i 1 = 0 := by
  decide +kernel

/-- A table never decreases, so its distinct values are counted at the places where neighbours differ. -/
theorem gammaTable_dedup {pwmBits : Nat} (hlow : 8 ≤ pwmBits) (hhigh : pwmBits ≤ 12) :
    (gammaTable pwmBits).dedup = (gammaTable pwmBits).destutter (· ≠ ·) :=
  (gammaTable_pairwise_le hlow hhigh).destutter_eq_dedup.symm

theorem gammaTable_distinct :
    (gammaTable 12).dedup.length = 243 ∧ (gammaTable 8).dedup.length = 173 := by
  rw [gammaTable_dedup (by decide) (by decide), gammaTable_dedup (by decide) (by decide)]
  decide +kernel

/-- Settles O25: the first entry, the last and the order follow from the rounding; the sums and the counts are read off
the printed tables. -/
theorem gammaTableProperties : Obligations.GammaTableProperties := by
  obtain ⟨hsum12, hsum11, hsum10, hsum9, hsum8⟩ := gammaTable_sums
  obtain ⟨hzeros12, hzeros8⟩ := gammaTable_zeros
  obtain ⟨hdistinct12, hdistinct8⟩ := gammaTable_distinct
  refine ⟨fun B hlow hhigh => ?_, hsum12, hsum11, hsum10, hsum9, hsum8, hzeros12, hdistinct12, hzeros8, hdistinct8⟩
  exact ⟨gammaTable_length hlow hhigh, gammaTable_first hlow hhigh, gammaTable_last hlow hhigh,
    gammaTable_pairwise_le hlow hhigh⟩

end Sys2Proof.Machine
end

section
/-! SUPPORT. The faults of a command, that the engine leaves the host's memories and request alone, and that no command
but INIT and CLOCKINDC drives the wire (spec 60_exceptions R190, R191, R199). -/

namespace Sys2Proof.Machine

/-! ### The commands a fault names -/

theorem needsIdle_iff {i : Instr} : needsIdle i = true ↔ i = .init ∨ i = .clockindc := by
  cases i <;> simp [needsIdle]

theorem mnemonic_of_writesBackPage {i : Instr} (h : writesBackPage i = true) :
    i.mnemonic ∈ ["SETGS", "SETALLGS"] := by
  cases i with
  | setgs row chan val | setallgs val => simp [Instr.mnemonic]
  | init | getgs row chan | setdc chan val | setalldc val | getdc chan | commit | pending | gamma idx | clockindc =>
    cases h

/-- The commands with an operand that can be out of range (60_exceptions R191). -/
theorem mnemonic_of_outOfRange {i : Instr} {c : Config} (h : i.inRange c = false) :
    i.mnemonic ∈ ["SETGS", "SETALLGS", "GETGS", "SETDC", "SETALLDC", "GETDC"] := by
  cases i with
  | setgs row chan val | setallgs val | getgs row chan | setdc chan val | setalldc val | getdc chan =>
    simp [Instr.mnemonic]
  | init | commit | pending | gamma idx | clockindc => cases h

/-! ### Where a command faults -/

/-- The grayscale writers, in range, fault while a commit is pending (40_codec R105). -/
theorem exec_pending_fault {i : Instr} {s : State} (hi : writesBackPage i = true)
    (hrange : i.inRange s.cfg = true) (hreq : s.updateReq = true) :
    exec i s = .fault (.backWriteWhilePending (encode i)) := by
  cases i with
  | setgs row chan val => exact exec_setgs_pending hrange hreq
  | setallgs val => exact exec_setallgs_pending hrange hreq
  | init | getgs row chan | setdc chan val | setalldc val | getdc chan | commit | pending | gamma idx | clockindc =>
    cases hi

theorem checked_passed {i : Instr} {s : State} (havail : i.available s.cfg = true) (hrange : i.inRange s.cfg = true)
    (act : State → Host.Outcome State Fault Refusal) : checked i s act = act s := by
  rw [checked, if_pos havail, if_pos hrange]

theorem exec_init_busy {s : State} (hbusy : s.busy = true) : exec .init s = .fault .initWhileBusy := by
  rw [exec, execInit, if_pos hbusy]

theorem exec_clockindc_busy {s : State} (havail : s.cfg.hasProgSel = true) (hbusy : s.busy = true) :
    exec .clockindc s = .fault .clockInDcWhileBusy := by
  have hpassed := checked_passed (i := .clockindc) havail rfl
  rw [exec, execClockindc, hpassed, if_pos hbusy]

/-- Settles O28, over the host's obligations (70_reset_and_hazards R215, R218, R221): a command that keeps them goes
on, and each one broken has its own outcome. -/
theorem faultsAreContractViolations : Obligations.FaultsAreContractViolations := by
  intro i s f h
  have hfault {g : Fault} (hg : exec i s = .fault g) : f = g := Host.Outcome.fault.inj (h.symm.trans hg)
  cases havail : i.available s.cfg with
  | false => simp [exec_unavailable havail] at h
  | true =>
    cases hrange : i.inRange s.cfg with
    | false => exact .inl ⟨hfault (exec_outOfRange havail (by simp [hrange])), rfl, mnemonic_of_outOfRange hrange⟩
    | true =>
      by_cases hpending : writesBackPage i = true ∧ s.updateReq = true
      · obtain ⟨hwrites, hreq⟩ := hpending
        exact .inr (.inl ⟨hfault (exec_pending_fault hwrites hrange hreq), rfl, hreq,
          mnemonic_of_writesBackPage hwrites⟩)
      · by_cases hmeets : needsIdle i = true ∧ s.busy = true
        · obtain ⟨hidle, hbusy⟩ := hmeets
          have hphase : s.phase ≠ .idle := by simpa [State.busy] using hbusy
          obtain rfl | rfl := needsIdle_iff.1 hidle
          · exact .inr (.inr (.inl ⟨hfault (exec_init_busy hbusy), rfl, hphase⟩))
          · exact .inr (.inr (.inr ⟨hfault (exec_clockindc_busy havail hbusy), rfl, hphase⟩))
        · have hissue : mayIssue s i = true :=
            mayIssue_iff.2 ⟨havail, hrange, by simpa using hpending, by simpa using hmeets⟩
          obtain ⟨t, ht⟩ := exec_goesOn_iff.2 hissue
          rw [ht] at h
          cases h

/-! ### The engine and the request -/

/-- The engine never sets `update_req`; ADVANCE alone touches it (41_handoff R126). -/
theorem microStep_updateReq {s : State} (h : (microStep s).updateReq = true) : s.updateReq = true := by
  by_cases hp : s.phase = .advance
  · obtain ⟨-, hkeep⟩ | ⟨hreq, -, -, -⟩ := microStep_advance_handoff hp
    · exact hkeep.symm.trans h
    · exact hreq
  · obtain ⟨-, hkeep, -, -⟩ := microStep_keeps_handoff hp
    exact hkeep.symm.trans h

/-- Settles O42: at both levels the engine only drives the wire, and the request falls or stays. -/
theorem engineWritesNoMemory : Obligations.EngineWritesNoMemory := by
  intro s
  obtain ⟨hgs, hdc, hresp, -⟩ := microStep_drives s
  obtain ⟨hgs', hdc', hresp', -⟩ := tickOperation_drives s
  refine ⟨⟨hgs, hdc, hresp, microStep_updateReq⟩, hgs', hdc', hresp', fun hreq => ?_⟩
  rw [tickOperation_updateReq, Bool.and_eq_true] at hreq
  exact hreq.2

/-! ### The commands that drive the wire -/

/-- Settles O44: a command other than INIT and CLOCKINDC leaves the engine's half of the block. -/
theorem onlyInitAndClockindcTouchTheWire : Obligations.OnlyInitAndClockindcTouchTheWire := by
  intro i s t h hinit hclockindc
  have hi : needsIdle i = false := by simp [← Bool.not_eq_true, needsIdle_iff, hinit, hclockindc]
  rw [exec_eq_withHost hi h]
  exact ⟨rfl, rfl, rfl, rfl⟩

end Sys2Proof.Machine
end

section
/-! SUPPORT. What the premises on host and platform are for: a broken one stops the block, and a frame committed in time
is on display after two ticks (spec 70_reset_and_hazards R214, R216, R218). -/

namespace Sys2Proof.Machine

/-! ### A tick in progress (70_reset_and_hazards R216, R218) -/

theorem takeTick_busy {s : State} (hbusy : s.busy = true) : takeTick s = .fault .tickWhileBusy := if_pos hbusy

/-- Settles O29: each of the three asks first whether a tick is in progress. -/
theorem brokenPremisesStop : Obligations.BrokenPremisesStop := by
  intro s hphase
  have hbusy : s.busy = true := bne_iff_ne.2 hphase
  refine ⟨exec_init_busy hbusy, fun hdot hwired => ?_, fun rest hinputs => ?_⟩
  · exact exec_clockindc_busy (hasProgSel_iff.2 ⟨hdot, hwired⟩) hbusy
  · rw [step, hinputs]
    exact takeTick_busy hbusy

/-! ### Two ticks (70_reset_and_hazards R214) -/

/-- A whole tick keeps the block's invariant, as its micro-steps do. -/
theorem tickOperation_inv {s : State} (hinv : s.Inv) (hidle : s.phase = .idle) : (tickOperation s).Inv :=
  microSteps_tick (.of_inv hinv hidle) ▸ microSteps_inv _ (goto_blankOn_inv hinv hidle)

/-- A tick's pulse is owed to the next one, so after two ticks the output registers hold the bytes of the first. -/
theorem receive_two_ticks {s : State} (chain : Receiver) (hinv : s.Inv) (hidle : s.phase = .idle)
    (hm : s.cfg.mux = false) :
    (Receiver.receive s.cfg s.pins chain (tickEvents s ++ tickEvents (tickOperation s))).cout =
      shiftBits s.cfg.numChannels false chain.csr ((tickBytes s).flatMap byteBits) := by
  obtain ⟨hclk, hlatch, hprog⟩ := hinv.idle_pins hidle
  obtain ⟨hclk', hlatch', hprog'⟩ :=
    (tickOperation_inv hinv hidle).idle_pins ((tickOperation_phase s).trans hidle)
  have howed : (tickOperation s).latchPending = true := by rw [tickOperation_latchPending, hm]; rfl
  have hsecond := fun r => receive_tickEvents (tickOperation s) r hclk' hlatch' hprog'
  rw [tickOperation_cfg] at hsecond
  rw [receive_append, ← tickOperation_pins, hsecond, receive_tickEvents s chain hclk hlatch hprog, howed, Bool.or_true]
  rfl

/-- Settles O60: the first tick flips to the page the host wrote and shifts its row in, the second latches it and ends
with the outputs on. -/
theorem committedFrameIsDisplayed : Obligations.CommittedFrameIsDisplayed := by
  intro s chain hinv hidle hm hB hreq t
  obtain ⟨hfront, -⟩ := plainTickEffect s hm
  have hm' : (tickOperation s).cfg.mux = false := by rw [tickOperation_cfg, hm]
  obtain ⟨-, -, -, -, -, -, hblank, -⟩ := plainTickEffect (tickOperation s) hm'
  have hflip : (tickOperation s).front = !s.front := by rw [hfront, if_pos hreq]
  refine ⟨tickEvents s ++ tickEvents (tickOperation s), ?_, hblank, fun c hc => ?_⟩
  · rw [tickOperation_wire, tickOperation_wire, List.append_assoc]
  · rw [Receiver.shows, hblank, if_neg Bool.false_ne_true, Receiver.duty, receive_two_ticks chain hinv hidle hm,
      tickBytes_plain hm, hflip, rowBytes_channel hB _ _ _ hc]

end Sys2Proof.Machine
end

section
/-! SUPPORT. The words of 95_test_vectors 2.4: the decoder inverts the encoder, so a word is checked by encoding the
command it stands for. -/

namespace Sys2Proof

theorem decode_eq_ok_iff_encode_eq {i : Instr} {w : Word} : decode w = .ok i ↔ encode i = w :=
  ⟨encodeOfDecode w i, fun h => h ▸ decodeOfEncode i⟩

end Sys2Proof

namespace Sys2Proof.Machine

/-- Settles O5: each command's word is its encoding, and a SETGS word with bit `z` set is rejected for that bit. -/
theorem specWordsDecode : Obligations.SpecWordsDecode := by
  have hz : decode 0x2FFFFFFF = .error .zBit := by decide
  simp only [Obligations.SpecWordsDecode, decode_eq_ok_iff_encode_eq, hz, and_true]
  decide

end Sys2Proof.Machine
end
